-- ==== Sys2Proof/Word.lean ====
section
/-! DEFINITION. The word types of the engine (`00_scope.md` R9, R10): bytes in every buffer and stream, 32-bit
hash words and command words, 64-bit subkeys, halves and counters, and the 4-bit entries of the open
tables. Bit 0 is the least significant bit (R10); everything is unsigned. -/

namespace Sys2Proof

/-- A `u8` (R10). -/
abbrev Byte := BitVec 8

/-- A `u32` (R10): a hash word, the command word, `STATUS`. -/
abbrev Word32 := BitVec 32

/-- A `u64` (R10): a subkey, a cipher half, `CREM`, `NBYTES`, the container length `L`. -/
abbrev Word64 := BitVec 64

/-- An entry of one of the sixteen 4-bit tables (R4). -/
abbrev Nibble := BitVec 4

/-- The 128-bit cipher block, the IV and the chain value: 16 bytes in wire order (`BLOCK_BYTES`, R7, R11). -/
abbrev Block := Vector Byte 16

end Sys2Proof
end

