-- ==== Sys2Proof/Syntax.lean ====
section
/-! DEFINITION. The commands of the engine, its "instructions" (`30_encoding.md` R90, R93): one constructor per row of
the opcode table, each with the payload that follows its command word. The `len` field of the word is
the payload's length (R91). A payload of a length the command does not allow is still a command: it is
decoded and then faults with `E_BAD_LEN` (R96 check 2), so the constructors take any payload. -/

namespace Sys2Proof

/-- A command: its opcode as the constructor, its payload as the operand (R90, R93, R94). -/
inductive Instr where
  /-- `0x00` NOP (R240). -/
  | nop (payload : List Byte)
  /-- `0x01` ZEROIZE (R241). -/
  | zeroize (payload : List Byte)
  /-- `0x02` ABORT (R242). -/
  | abort (payload : List Byte)
  /-- `0x03` RD_STATUS (R243). -/
  | rdStatus (payload : List Byte)
  /-- `0x10` KDF_INIT (R131). -/
  | kdfInit (payload : List Byte)
  /-- `0x11` KDF_ABSORB (R134). -/
  | kdfAbsorb (payload : List Byte)
  /-- `0x12` KDF_FINAL (R135). -/
  | kdfFinal (payload : List Byte)
  /-- `0x13` KM_READ (R136). -/
  | kmRead (payload : List Byte)
  /-- `0x14` KS_DERIVE (R151). -/
  | ksDerive (payload : List Byte)
  /-- `0x15` KS_LOAD (R152). -/
  | ksLoad (payload : List Byte)
  /-- `0x20` BLK_ENC (R167). -/
  | blkEnc (payload : List Byte)
  /-- `0x21` BLK_DEC (R168). -/
  | blkDec (payload : List Byte)
  /-- `0x30` ENC_START (R200). -/
  | encStart (payload : List Byte)
  /-- `0x31` ENC_DATA (R202). -/
  | encData (payload : List Byte)
  /-- `0x32` ENC_FINAL (R203). -/
  | encFinal (payload : List Byte)
  /-- `0x38` DEC_START (R206). -/
  | decStart (payload : List Byte)
  /-- `0x39` DEC_DATA (R208). -/
  | decData (payload : List Byte)
  /-- `0x3A` DEC_FINAL (R212). -/
  | decFinal (payload : List Byte)
  /-- `0x40` HASH_INIT (R187). -/
  | hashInit (payload : List Byte)
  /-- `0x41` HASH_UPDATE (R188). -/
  | hashUpdate (payload : List Byte)
  /-- `0x42` HASH_FINAL (R189). -/
  | hashFinal (payload : List Byte)
deriving DecidableEq, Repr

/-- The payload of a command (R90): the bytes that follow its command word. -/
def Instr.payload : Instr → List Byte
  | .nop p => p
  | .zeroize p => p
  | .abort p => p
  | .rdStatus p => p
  | .kdfInit p => p
  | .kdfAbsorb p => p
  | .kdfFinal p => p
  | .kmRead p => p
  | .ksDerive p => p
  | .ksLoad p => p
  | .blkEnc p => p
  | .blkDec p => p
  | .encStart p => p
  | .encData p => p
  | .encFinal p => p
  | .decStart p => p
  | .decData p => p
  | .decFinal p => p
  | .hashInit p => p
  | .hashUpdate p => p
  | .hashFinal p => p

end Sys2Proof
end

