-- ==== Sys2Proof/Machine/Operands.lean ====
section
/-! DEFINITION. The operand rules of the commands (`30_encoding.md` R94): which payload length each command requires,
and how a payload is cut into operands. Also the byte-string slices every unit uses (`00_scope.md` R11,
`MemRead` of R16). -/

namespace Sys2Proof.Machine

/-- `MAX_PAYLOAD` (R6, D2): the `len` field has 16 bits. -/
def maxPayload : Nat := 65535

/-- The length rule of R94: `some n` is "fixed n", `none` is "any". -/
def requiredLen : Instr → Option Nat
  | .nop _ => some 0
  | .zeroize _ => some 0
  | .abort _ => some 0
  | .rdStatus _ => some 0
  | .kdfInit _ => some 0
  | .kdfAbsorb _ => none
  | .kdfFinal _ => some 0
  | .kmRead _ => some 0
  | .ksDerive _ => some 0
  | .ksLoad _ => some 512
  | .blkEnc _ => some 16
  | .blkDec _ => some 16
  | .encStart _ => some 16
  | .encData _ => none
  | .encFinal _ => some 0
  | .decStart _ => some 24
  | .decData _ => none
  | .decFinal _ => some 32
  | .hashInit _ => some 0
  | .hashUpdate _ => none
  | .hashFinal _ => some 0

/-- Check 2 of R96: the payload length satisfies R94. -/
def lenOk (i : Instr) : Bool :=
  match requiredLen i with
  | some n => i.payload.length == n
  | none => true

/-- The `n` bytes of `s` from index `off` on, as an array; bytes past the end of `s` are 0. Where `off + n ≤ len(s)`
this is `MemRead(s, off, n)` (R16); the zero fill is the `RES[RLEN..15] <- 0` of R202 and R208. -/
@[irreducible] def bytesAt (n off : Nat) (s : List Byte) : Vector Byte n :=
  ⟨⟨(s.drop off ++ List.replicate n 0).take n⟩, by simp⟩

/-- `KM = payload[0..511]` of KS_LOAD (R94, R152). -/
def operandKm (payload : List Byte) : Vector Byte 512 := bytesAt 512 0 payload

/-- `blk = payload[0..15]` of BLK_ENC and BLK_DEC, and the IV of ENC_START (R94, R167, R168, R200). -/
def operandBlock (payload : List Byte) : Block := bytesAt 16 0 payload

/-- The eight length bytes `payload[0..7]` of DEC_START (R94, R206). -/
def operandLenBytes (payload : List Byte) : Vector Byte 8 := bytesAt 8 0 payload

/-- `IV = payload[8..23]` of DEC_START (R94, R206). -/
def operandDecIv (payload : List Byte) : Block := bytesAt 16 8 payload

/-- `tag = payload[0..31]` of DEC_FINAL (R94, R212). -/
def operandTag (payload : List Byte) : Vector Byte 32 := bytesAt 32 0 payload

/-- The complete 16-byte blocks at the front of a byte string, in order: `buf[16i .. 16i+15]` for `i < floor(len/16)`
(R202, R208). -/
def blocksOf (buf : List Byte) : List Block :=
  (List.range (buf.length / 16)).map fun i => bytesAt 16 (16 * i) buf

/-- The bytes after the last complete block, `buf[16*nb .. len-1]`: 0 to 15 bytes (R202, R208). -/
def restOf (buf : List Byte) : List Byte := buf.drop (16 * (buf.length / 16))

end Sys2Proof.Machine
end

