-- ==== Sys2Proof/WellFormed.lean ====
section
/-! DEFINITION. Well-formed commands (`30_encoding.md` R90, R94): the payload fits the 16-bit `len` field, and its
length is one the command allows. A command that fails only the second check can still be encoded and
sent; it then faults with `E_BAD_LEN` (R96, R98). -/

namespace Sys2Proof

/-- The payload can be announced by the 16-bit `len` field (R90). -/
def Instr.framable (i : Instr) : Bool := i.payload.length ≤ Machine.maxPayload

/-- A command whose word can be written and whose length R94 allows. -/
def Instr.wellFormed (i : Instr) : Bool := i.framable && Machine.lenOk i

end Sys2Proof
end

