-- ==== Sys2Proof/Decode.lean ====
section
/-! DEFINITION. Decoding and encoding of commands (`30_encoding.md` R90, R91, R93, R98, R99, R102). A command word has one
format: `opcode[31:24]`, `rsvd[23:16] = 0`, `len[15:0]`, followed by `len` payload bytes. Decoding is total:
every word with every payload is a command or is rejected under a name of its own. -/

namespace Sys2Proof

/-- `w[31:24]` (R90). -/
def opcodeField (w : Word32) : BitVec 8 := w.extractLsb' 24 8

/-- `w[23:16]` (R90): must be 0. -/
def rsvdField (w : Word32) : BitVec 8 := w.extractLsb' 16 8

/-- `w[15:0]` (R90, R91): the number of payload bytes that follow the word, whatever the opcode. -/
def lenField (w : Word32) : Nat := (w.extractLsb' 0 16).toNat

/-- The opcode map of R93, read from the left: the command an opcode selects, none for the 235 undefined values. -/
def instrOfOpcode (op : BitVec 8) (payload : List Byte) : Option Instr :=
  match op.toNat with
  | 0x00 => some (.nop payload)
  | 0x01 => some (.zeroize payload)
  | 0x02 => some (.abort payload)
  | 0x03 => some (.rdStatus payload)
  | 0x10 => some (.kdfInit payload)
  | 0x11 => some (.kdfAbsorb payload)
  | 0x12 => some (.kdfFinal payload)
  | 0x13 => some (.kmRead payload)
  | 0x14 => some (.ksDerive payload)
  | 0x15 => some (.ksLoad payload)
  | 0x20 => some (.blkEnc payload)
  | 0x21 => some (.blkDec payload)
  | 0x30 => some (.encStart payload)
  | 0x31 => some (.encData payload)
  | 0x32 => some (.encFinal payload)
  | 0x38 => some (.decStart payload)
  | 0x39 => some (.decData payload)
  | 0x3A => some (.decFinal payload)
  | 0x40 => some (.hashInit payload)
  | 0x41 => some (.hashUpdate payload)
  | 0x42 => some (.hashFinal payload)
  | _ => none

/-- Why a word with a payload is no command. -/
inductive DecodeError where
  /-- The opcode is not one of the 21 of R93 (R98): `E_ILLEGAL` outside phase `FAULT`. -/
  | undefinedOpcode (op : BitVec 8)
  /-- The `rsvd` field is not 0 (R98): `E_ILLEGAL` outside phase `FAULT`. -/
  | reservedNonzero (rsvd : BitVec 8)
  /-- The byte string given is not the `len` payload bytes of the word (R91). The engine never sees this: it takes
  exactly `len` bytes. -/
  | wrongFraming
deriving DecidableEq, Repr

/-- The decoder (R90, R93, R98, R102): a command word with its payload gives a command or a named rejection. The
payload's length is not judged here: that is check 2 of R96. -/
def decode (w : Word32) (payload : List Byte) : Except DecodeError Instr :=
  if payload.length ≠ lenField w then .error .wrongFraming
  else if rsvdField w ≠ 0 then .error (.reservedNonzero (rsvdField w))
  else
    match instrOfOpcode (opcodeField w) payload with
    | some i => .ok i
    | none => .error (.undefinedOpcode (opcodeField w))

/-- The opcode map of R93, read from the right. -/
def opcodeOf : Instr → BitVec 8
  | .nop _ => 0x00
  | .zeroize _ => 0x01
  | .abort _ => 0x02
  | .rdStatus _ => 0x03
  | .kdfInit _ => 0x10
  | .kdfAbsorb _ => 0x11
  | .kdfFinal _ => 0x12
  | .kmRead _ => 0x13
  | .ksDerive _ => 0x14
  | .ksLoad _ => 0x15
  | .blkEnc _ => 0x20
  | .blkDec _ => 0x21
  | .encStart _ => 0x30
  | .encData _ => 0x31
  | .encFinal _ => 0x32
  | .decStart _ => 0x38
  | .decData _ => 0x39
  | .decFinal _ => 0x3A
  | .hashInit _ => 0x40
  | .hashUpdate _ => 0x41
  | .hashFinal _ => 0x42

/-- The command word of a command: `(opcode << 24) | len` with `rsvd = 0` (R90, R100). -/
def encodeWord (i : Instr) : Word32 :=
  opcodeOf i ++ (0 : BitVec 8) ++ BitVec.ofNat 16 i.payload.length

/-- The encoder: the command word and the payload bytes that follow it (R90). -/
def encode (i : Instr) : Word32 × List Byte := (encodeWord i, i.payload)

/-- The instruction the decoder reads from the low `nbits` bits `w` of a command, every later bit 0: the word is
`w` itself (R90 gives it no byte order) and its `len` payload bytes are all 0. -/
def decodeTableWord (nbits w : Nat) : Option Instr :=
  match decode (BitVec.ofNat 32 (w % 2 ^ nbits)) (List.replicate (lenField (BitVec.ofNat 32 (w % 2 ^ nbits))) 0) with
  | .ok i => some i
  | .error _ => none

/-- The mnemonics of R93. -/
def mnemonic : Instr → String
  | .nop _ => "NOP"
  | .zeroize _ => "ZEROIZE"
  | .abort _ => "ABORT"
  | .rdStatus _ => "RD_STATUS"
  | .kdfInit _ => "KDF_INIT"
  | .kdfAbsorb _ => "KDF_ABSORB"
  | .kdfFinal _ => "KDF_FINAL"
  | .kmRead _ => "KM_READ"
  | .ksDerive _ => "KS_DERIVE"
  | .ksLoad _ => "KS_LOAD"
  | .blkEnc _ => "BLK_ENC"
  | .blkDec _ => "BLK_DEC"
  | .encStart _ => "ENC_START"
  | .encData _ => "ENC_DATA"
  | .encFinal _ => "ENC_FINAL"
  | .decStart _ => "DEC_START"
  | .decData _ => "DEC_DATA"
  | .decFinal _ => "DEC_FINAL"
  | .hashInit _ => "HASH_INIT"
  | .hashUpdate _ => "HASH_UPDATE"
  | .hashFinal _ => "HASH_FINAL"

/-- One hexadecimal digit (R11). -/
def hexDigit (n : Nibble) : Char :=
  ['0', '1', '2', '3', '4', '5', '6', '7', '8', '9', 'a', 'b', 'c', 'd', 'e', 'f'].getD n.toNat '0'

/-- A byte as a pair of hexadecimal digits (R11). -/
def hexByte (b : Byte) : String := String.ofList [hexDigit (b.extractLsb' 4 4), hexDigit (b.extractLsb' 0 4)]

/-- A command in the assembler syntax of R100: its mnemonic, then its payload in hexadecimal, wire order. -/
def asmLine (i : Instr) : String :=
  i.payload.foldl (fun line b => line ++ " " ++ hexByte b) (mnemonic i)

end Sys2Proof
end

