-- ==== Sys2Proof/Machine/State.lean ====
section
/-! DEFINITION. The architectural state of the engine, whole (`10_state.md` R20 to R35), its reset value (R50, R280), and the
reasons a step can stop. The tables `T`, `TSUB`, `SHA_K`, `SHA_H0` are ROM, not state (R37). The three port
queues `cmd`, `din`, `dout` are the model's own form of the spaces `CMD`, `DIN`, `DOUT` of R38 (assumption
log 2 and 3). The engine has no memory and no address space (R38, R60, R68). -/

namespace Sys2Proof.Machine

/-- `PHASE` (R21): the sequencer register, which takes the place of a program counter (R42). Value 6 is never taken
(R98), so it has no constructor (`93_implementation_defined.md` U8). -/
inductive Phase where
  /-- 0: no operation in progress. -/
  | idle
  /-- 1: a key derivation is absorbing passphrase bytes. -/
  | kdfAbs
  /-- 2: KeyMaterial is ready in `WORK[0..511]`. -/
  | kdfRdy
  /-- 3: a stream encryption is in progress. -/
  | enc
  /-- 4: a stream decryption is in progress. -/
  | dec
  /-- 5: a raw integrity-hash computation is in progress. -/
  | hash
  /-- 7: a fatal error was taken. -/
  | fault
deriving DecidableEq, Repr

/-- The causes of a fault of the ENGINE (R250): a fault is taken by going to phase `FAULT`, so it is a next state of
the model, never a stop. -/
inductive ErrCode where
  /-- `E_MALFORMED`. -/
  | malformed
  /-- `E_PADDING`. -/
  | padding
  /-- `E_ILLEGAL`. -/
  | illegal
  /-- `E_BAD_LEN`. -/
  | badLen
  /-- `E_BAD_PHASE`. -/
  | badPhase
  /-- `E_NO_KEY`. -/
  | noKey
  /-- `E_OVERRUN`. -/
  | overrun
  /-- `E_UNDERRUN`. -/
  | underrun
deriving DecidableEq, Repr

/-- DerivationState (R29 to R32). -/
structure KdfState where
  /-- `ACC[0..511]` (R29). -/
  acc : Vector Byte 512
  /-- `WORK[0..1535]` (R30); KeyMaterial is its first 512 bytes (R33). -/
  work : Vector Byte 1536
  /-- `RS`, the running scalar (R31). -/
  rs : Byte
  /-- `POS`, the fill cursor: in `0..511` between commands (R32 lets a model type it so). -/
  pos : Fin 512
deriving DecidableEq, Repr

/-- IntegrityHashState (R28). -/
structure HashState where
  /-- `H[0..7]`. -/
  h : Vector Word32 8
  /-- `NBYTES`, the bytes absorbed since the last init; the fill of `BUF` is `NBYTES mod 64`. -/
  nbytes : Word64
  /-- `BUF[0..63]`. -/
  buf : Vector Byte 64
deriving DecidableEq, Repr

/-- The state of the engine and of its ports. -/
structure State where
  /-- `PHASE` (R21). -/
  phase : Phase
  /-- `K[0..63]` (R22). -/
  k : Vector Word64 64
  /-- `KV` (R23). -/
  kv : Bool
  /-- `CHAIN[0..15]` (R25). -/
  chain : Block
  /-- `RES[0..15]` (R26). -/
  res : Block
  /-- `RLEN` in `0..15` (R26). -/
  rlen : Fin 16
  /-- `CREM` (R27). -/
  crem : Word64
  /-- `H`, `NBYTES`, `BUF` (R28). -/
  hash : HashState
  /-- `ACC`, `WORK`, `RS`, `POS` (R29 to R32). -/
  kdf : KdfState
  /-- `ERR` (R34). -/
  err : Byte
  /-- `AV` (R35). -/
  av : Bool
  /-- `AOK` (R35). -/
  aok : Bool
  /-- The command port `CMD` (R38, R90): the command words the host has issued and the engine has not yet taken. -/
  cmd : List Word32
  /-- The payload stream `DIN` (R38, R61): the bytes the host has sent and no command has consumed. -/
  din : List Byte
  /-- The output stream `DOUT` (R38, R62): every byte emitted, in order; append-only. -/
  dout : List Byte
deriving DecidableEq, Repr

/-- A step of this machine never stops with a fault: the engine's own faults are next states in phase `FAULT` (R256),
decoding is total (R102) and no index can leave its buffer (R74). The type is empty, so no one raises one. -/
inductive Fault : Type
deriving DecidableEq, Repr

/-- Why a step is refused. -/
inductive Refusal where
  /-- `exec`, for an instruction whose meaning is not written. No instruction is left so. Safe: the run stops. -/
  | notModelled (mnemonic : String)
  /-- Raised by the commands that feed the hash, when the message would reach `2^61` bytes: "a model refuses such a
  run" (R186, U9). Safe: the run stops where the spec gives no meaning. -/
  | hashTooLong
  /-- Raised by the fetch of a command, when fewer payload bytes than `len` are in `DIN`: the model "takes a command as
  word plus complete payload" (U14, R290). Safe: the run stops where the spec gives no meaning. -/
  | incompletePayload
deriving DecidableEq, Repr

/-- The KDF state with every register 0 (R50); also what `init()` leaves (R131). -/
def KdfState.zero : KdfState where
  acc := Vector.replicate 512 0
  work := Vector.replicate 1536 0
  rs := 0
  pos := 0

/-- The hash state with every register 0 (R50): not the SHA-256 initial value, which IH.init loads (R181). -/
def HashState.zero : HashState where
  h := Vector.replicate 8 0
  nbytes := 0
  buf := Vector.replicate 64 0

/-- Reset (R50, R280): every piece of state is zero. The ports are empty: no command has been issued (log 2, 3). -/
def State.reset : State where
  phase := .idle
  k := Vector.replicate 64 0
  kv := false
  chain := Vector.replicate 16 0
  res := Vector.replicate 16 0
  rlen := 0
  crem := 0
  hash := HashState.zero
  kdf := KdfState.zero
  err := 0
  av := false
  aok := false
  cmd := []
  din := []
  dout := []

end Sys2Proof.Machine
end

