-- ==== Sys2Proof/Machine/Ops.lean ====
section
/-! DEFINITION. The operations every unit shares: byte order (`20_memory.md` R63, R64; `00_scope.md` R12), rotations (R19), the
output stream (R62), the named register writes, fault entry (`60_exceptions.md` R250, R256) and return
(R259, R51), and the admission checks of `30_encoding.md` R96 with the phase table R97. -/

namespace Sys2Proof.Machine

/-- `BE64(s[0..7])` (R12): `s[0]` in bits 63:56. -/
def be64 (s : Vector Byte 8) : Word64 :=
  s[0] ++ s[1] ++ s[2] ++ s[3] ++ s[4] ++ s[5] ++ s[6] ++ s[7]

/-- `BE64inv(w)` (R12): `s[i] = w[63-8i : 56-8i]`. -/
def be64inv (w : Word64) : Vector Byte 8 :=
  Vector.ofFn fun i : Fin 8 => w.extractLsb' (56 - 8 * i.val) 8

/-- `BE32(s[0..3])` (R12). -/
def be32 (s : Vector Byte 4) : Word32 := s[0] ++ s[1] ++ s[2] ++ s[3]

/-- `BE32inv(w)` (R12). -/
def be32inv (w : Word32) : Vector Byte 4 :=
  Vector.ofFn fun i : Fin 4 => w.extractLsb' (24 - 8 * i.val) 8

/-- `rotl64(x, n) = trunc_64(x << n) or (x >> (64 - n))` for `0 < n < 64` (R19). -/
def rotl64 (x : Word64) (n : Nat) : Word64 := (x <<< n) ||| (x >>> (64 - n))

/-- `rotr32(x, n) = (x >> n) or trunc_32(x << (32 - n))` for `0 < n < 32` (R19). -/
def rotr32 (x : Word32) (n : Nat) : Word32 := (x >>> n) ||| (x <<< (32 - n))

/-- XOR of two byte strings of equal length, byte `i` with byte `i` (R19, R64). -/
def xorBytes {n : Nat} (a b : Vector Byte n) : Vector Byte n := Vector.zipWith (· ^^^ ·) a b

/-- `emit(bs)` (R16, R62): append to `DOUT`, first byte first. -/
def emit (bs : List Byte) (s : State) : State := { s with dout := s.dout ++ bs }

/-- `PHASE <- p` (R16): the engine's only control transfer. -/
def setPhase (p : Phase) (s : State) : State := { s with phase := p }

/-- `K <- k; KV <- 1` (R150): the schedule is written as a whole. -/
def loadKey (k : Vector Word64 64) (s : State) : State := { s with k := k, kv := true }

/-- The KDF registers `<- kdf` (R29 to R32). -/
def setKdf (kdf : KdfState) (s : State) : State := { s with kdf := kdf }

/-- `ACC, WORK, RS, POS <- 0` (R131, R151, R242). -/
def wipeKdf (s : State) : State := { s with kdf := KdfState.zero }

/-- The IH registers `<- hash` (R28). -/
def setHash (hash : HashState) (s : State) : State := { s with hash := hash }

/-- `H, NBYTES, BUF <- 0` (R189, R203, R212, R242). -/
def wipeHash (s : State) : State := { s with hash := HashState.zero }

/-- `CHAIN[0..15] <- c` (R25). -/
def setChain (c : Block) (s : State) : State := { s with chain := c }

/-- `CREM <- n` (R27). -/
def setCrem (n : Word64) (s : State) : State := { s with crem := n }

/-- `RLEN <- len(rest) mod 16; RES[0..RLEN-1] <- rest; RES[RLEN..15] <- 0` (R26, R202, R208), for the bytes `rest` left
over after the complete blocks: at most 15 (`restOf`). -/
def setResidual (rest : List Byte) (s : State) : State :=
  { s with res := bytesAt 16 0 rest, rlen := Fin.ofNat 16 rest.length }

/-- `CHAIN[0..15] <- 0; RES[0..15] <- 0; RLEN <- 0` (R203, R212, R242). -/
def wipeChain (s : State) : State :=
  { s with chain := Vector.replicate 16 0, res := Vector.replicate 16 0, rlen := 0 }

/-- The reset state of the engine with the ports kept (R51): ZEROIZE (R241) is this, fault entry begins with it (R256).
`DOUT` is not retracted (R62, R241) and the host's pending input is untouched (R61). It is also the only
way out of phase `FAULT` (R259). -/
def toReset (s : State) : State := { State.reset with cmd := s.cmd, din := s.din, dout := s.dout }

/-- The error codes of R250. -/
def errCode : ErrCode → Byte
  | .malformed => 0x01
  | .padding => 0x02
  | .illegal => 0x10
  | .badLen => 0x11
  | .badPhase => 0x12
  | .noKey => 0x13
  | .overrun => 0x14
  | .underrun => 0x15

/-- Fault entry, `raise Fault(code)` (R256): the whole state to its reset value, then `PHASE <- FAULT`, `ERR <- code`. Nothing
is saved; bytes already emitted stay on `DOUT`. -/
def takeFault (e : ErrCode) (s : State) : State := { toReset s with phase := .fault, err := errCode e }

/-- The phases in which a command is legal (R97, check 3 of R96). -/
def legalIn : Instr → Phase → Bool
  | .nop _, _ => true
  | .rdStatus _, _ => true
  | .zeroize _, _ => true
  | .abort _, p => p != .fault
  | .kdfInit _, p => p == .idle || p == .kdfAbs || p == .kdfRdy
  | .kdfAbsorb _, p => p == .kdfAbs
  | .kdfFinal _, p => p == .kdfAbs
  | .kmRead _, p => p == .kdfRdy
  | .ksDerive _, p => p == .kdfRdy
  | .ksLoad _, p => p == .idle
  | .blkEnc _, p => p == .idle
  | .blkDec _, p => p == .idle
  | .encStart _, p => p == .idle
  | .encData _, p => p == .enc
  | .encFinal _, p => p == .enc
  | .decStart _, p => p == .idle
  | .decData _, p => p == .dec
  | .decFinal _, p => p == .dec
  | .hashInit _, p => p == .idle
  | .hashUpdate _, p => p == .hash
  | .hashFinal _, p => p == .hash

/-- The commands check 4 of R96 asks a key of. -/
def needsKey : Instr → Bool
  | .blkEnc _ => true
  | .blkDec _ => true
  | .encStart _ => true
  | .decStart _ => true
  | .nop _ => false
  | .zeroize _ => false
  | .abort _ => false
  | .rdStatus _ => false
  | .kdfInit _ => false
  | .kdfAbsorb _ => false
  | .kdfFinal _ => false
  | .kmRead _ => false
  | .ksDerive _ => false
  | .ksLoad _ => false
  | .encData _ => false
  | .encFinal _ => false
  | .decData _ => false
  | .decFinal _ => false
  | .hashInit _ => false
  | .hashUpdate _ => false
  | .hashFinal _ => false

/-- The admission checks 0, 2, 3 and 4 of R96 for a decoded command, in their order; `perform` is check 5, the
command's own rule. In phase `FAULT` only a well-formed NOP, RD_STATUS or ZEROIZE acts, and every other
command is ignored (R258). -/
def withChecks (i : Instr) (s : State) (perform : State → Host.Outcome State Fault Refusal) :
    Host.Outcome State Fault Refusal :=
  if s.phase = .fault then
    if legalIn i .fault && lenOk i then perform s else .next s
  else if !lenOk i then .next (takeFault .badLen s)
  else if !legalIn i s.phase then .next (takeFault .badPhase s)
  else if needsKey i && !s.kv then .next (takeFault .noKey s)
  else perform s

/-- What a word that decodes to no command does (checks 0 and 1 of R96, R98): `E_ILLEGAL`, or nothing in phase `FAULT`. -/
def illegalCommand (s : State) : State :=
  if s.phase = .fault then s else takeFault .illegal s

/-- The bound of R186: `perform` runs if `n` more message bytes keep the hash below `2^61` bytes, otherwise the run is
refused. -/
def hashGuard (n : Nat) (s : State) (perform : Host.Outcome State Fault Refusal) :
    Host.Outcome State Fault Refusal :=
  if s.hash.nbytes.toNat + n < 2 ^ 61 then perform else .refused .hashTooLong

end Sys2Proof.Machine
end

