-- ==== Sys2Proof/Config.lean ====
section
/-! DEFINITION. The OPEN parameters of the engine (`00_scope.md` R4, R5; `92_eei_decisions.md` P1, P2). The record
`Cfg` holds them and `Config.cfg` is the one the machine is built with: an opaque constant without a
body, so that no proof can learn a table entry. Every unit function takes a `Cfg` as an argument, so a
statement about it holds for every configuration. The DECIDED fields of R6 (`PAIR_ORDER`, `TABLE_POS`,
`MIX_SEED`, `KDF_PAD_BYTE`) and the SHA-256 constants are plain definitions beside the units that read
them. Assumption log 1. -/

namespace Sys2Proof

/-- The open tables. `perm4 j` is `PERM4[j]`, "a permutation of 0..15" (R4), hence a `Perm`; `tsub` is `TSUB`, 256
bytes that need not be a permutation (R5). -/
structure Cfg where
  /-- `PERM4[0..15]`, each a bijection on the nibbles (R4). -/
  perm4 : Fin 16 → Equiv.Perm Nibble
  /-- `TSUB[0..255]` (R5). -/
  tsub : Byte → Byte
deriving Inhabited

/-- The configuration of this engine: open, so a constant of which nothing is known but its type (R4, R5). -/
opaque Config.cfg : Cfg

end Sys2Proof
end

