-- ==== Sys2Proof/Machine/Tables.lean ====
section
/-! DEFINITION. Unit SBOX: the eight byte tables of the block cipher (`40_substitution_tables.md` R120 to R123). `T` is a
pure function of the configuration and is never stored in the state (R37, R121). -/

namespace Sys2Proof.Machine

/-- `PAIR_ORDER`, low half (R6, D5): `P_low[i] = PERM4[2i]`. -/
def pairLow (i : Fin 8) : Fin 16 := ⟨2 * i.val, by omega⟩

/-- `PAIR_ORDER`, high half (R6, D5): `P_high[i] = PERM4[2i+1]`. -/
def pairHigh (i : Fin 8) : Fin 16 := ⟨2 * i.val + 1, by omega⟩

/-- `T[i][v] = (PERM4[2i+1][v[7:4]] << 4) or PERM4[2i][v[3:0]]` (R120). -/
def sbox (c : Cfg) (i : Fin 8) (v : Byte) : Byte :=
  ((c.perm4 (pairHigh i) (v.extractLsb' 4 4)).setWidth 8 <<< 4)
    ||| (c.perm4 (pairLow i) (v.extractLsb' 0 4)).setWidth 8

/-- `TABLE_POS` (R6, D6, R160): the table that serves byte lane `n` of the round function's argument, lane 0 being bits
7:0. -/
def tablePos : Vector (Fin 8) 8 := #v[4, 5, 6, 7, 0, 1, 2, 3]

end Sys2Proof.Machine
end

