-- ==== Sys2Proof/Machine/Cipher.lean ====
section
/-! DEFINITION. Unit BC: the block cipher, a Feistel network of 64 rounds in 32 loop iterations (`43_block_cipher.md` R160 to
R169), and its commands BLK_ENC, BLK_DEC. The halves and the loop counter are locals (`10_state.md` R24). -/

namespace Sys2Proof.Machine

/-- Byte lane `n` of `x` (R160): lane 0 is bits 7:0, lane 7 bits 63:56. -/
def lane (x : Word64) (n : Nat) : Byte := x.extractLsb' (8 * n) 8

/-- Lane `n` of `x` through its table `T[TABLE_POS[n]]` (R160). -/
def substLane (c : Cfg) (x : Word64) (n : Fin 8) : Byte := sbox c tablePos[n] (lane x n.val)

/-- The substituted word of R160, `(y' << 32) or z'`: every lane stays in place. -/
def substWord (c : Cfg) (x : Word64) : Word64 :=
  substLane c x 7 ++ substLane c x 6 ++ substLane c x 5 ++ substLane c x 4
    ++ substLane c x 3 ++ substLane c x 2 ++ substLane c x 1 ++ substLane c x 0

/-- `BC.f(x)` (R160): substitute the eight bytes, then rotate left by 11 (`ROT`, R7). -/
def roundF (c : Cfg) (x : Word64) : Word64 := rotl64 (substWord c x) 11

/-- `BC.to_words(blk)` (R162): the first word from bytes 0..7, the second from bytes 8..15. -/
def toWords (blk : Block) : Word64 × Word64 := (be64 (bytesAt 8 0 blk.toList), be64 (bytesAt 8 8 blk.toList))

/-- `BC.to_bytes(w0, w1) = BE64inv(w0) || BE64inv(w1)` (R163). -/
def toBytes (w0 w1 : Word64) : Block := bytesAt 16 0 ((be64inv w0).toList ++ (be64inv w1).toList)

/-- One loop iteration of R164 and R165 on `(A, B)`: `B <- B xor f(A + k1)`, then `A <- A xor f(B + k2)` with the `B` just
written. The sums wrap modulo `2^64` (R18). -/
def iteration (c : Cfg) (k1 k2 : Word64) (ab : Word64 × Word64) : Word64 × Word64 :=
  let b := ab.2 ^^^ roundF c (ab.1 + k1)
  (ab.1 ^^^ roundF c (b + k2), b)

/-- `BC.encrypt(blk)` (R164): 32 iterations with `K[2r]`, `K[2r+1]`, output `(B, A)`. -/
@[irreducible] def blockEncrypt (c : Cfg) (k : Vector Word64 64) (blk : Block) : Block :=
  let ab := Nat.fold 32 (fun r _ ab => iteration c k[2 * r] k[2 * r + 1] ab) (toWords blk)
  toBytes ab.2 ab.1

/-- `BC.decrypt(blk)` (R165): the same loop with `K[63-2r]`, `K[62-2r]`, output `(B, A)`. -/
@[irreducible] def blockDecrypt (c : Cfg) (k : Vector Word64 64) (blk : Block) : Block :=
  let ab := Nat.fold 32 (fun r _ ab => iteration c k[63 - 2 * r] k[62 - 2 * r] ab) (toWords blk)
  toBytes ab.2 ab.1

/-- BLK_ENC (R167). -/
def execBlkEnc (payload : List Byte) (s : State) : Host.Outcome State Fault Refusal :=
  withChecks (.blkEnc payload) s fun s => .next (emit (blockEncrypt Config.cfg s.k (operandBlock payload)).toList s)

/-- BLK_DEC (R168). -/
def execBlkDec (payload : List Byte) (s : State) : Host.Outcome State Fault Refusal :=
  withChecks (.blkDec payload) s fun s => .next (emit (blockDecrypt Config.cfg s.k (operandBlock payload)).toList s)

end Sys2Proof.Machine
end

