-- ==== Sys2Proof/Machine/Flags.lean ====
section
/-! DEFINITION. The flags and the status word (`10_state.md` R21, R23, R34 to R36). `KV`, `AV`, `AOK` are the engine's only
flags; no data operation sets a condition code (R19, R35). `STATUS` is computed from the state and is
not a register of its own (R36). -/

namespace Sys2Proof.Machine

/-- The 3-bit value of `PHASE` (R21). -/
def phaseBits : Phase → BitVec 3
  | .idle => 0
  | .kdfAbs => 1
  | .kdfRdy => 2
  | .enc => 3
  | .dec => 4
  | .hash => 5
  | .fault => 7

/-- A flag as one bit. -/
def flagBit (b : Bool) : BitVec 1 := BitVec.ofBool b

/-- `STATUS` (R36): `PHASE` in 2:0, `KV` 3, `AV` 4, `AOK` 5, reserved 7:6 as 0, `ERR` in 15:8, reserved 31:16 as 0. -/
def status (s : State) : Word32 :=
  (0 : BitVec 16) ++ s.err ++ (0 : BitVec 2) ++ flagBit s.aok ++ flagBit s.av ++ flagBit s.kv ++ phaseBits s.phase

/-- `AV <- 0; AOK <- 0` (R35): ENC_START, DEC_START, ABORT. -/
def clearAuth (s : State) : State := { s with av := false, aok := false }

/-- `AV <- 1; AOK <- ok` (R35, R212): DEC_FINAL. -/
def setAuth (ok : Bool) (s : State) : State := { s with av := true, aok := ok }

end Sys2Proof.Machine
end

