-- ==== Sys2Proof/Machine/Hash.lean ====
section
/-! DEFINITION. Unit IH: the integrity hash, SHA-256 (`44_integrity_hash.md` R180 to R190), and its commands HASH_INIT,
HASH_UPDATE, HASH_FINAL. The message schedule and the working variables are locals (`10_state.md` R41). -/

namespace Sys2Proof.Machine

/-- `SHA_H0[0..7]` (R185). -/
def shaH0 : Vector Word32 8 :=
  #v[0x6a09e667, 0xbb67ae85, 0x3c6ef372, 0xa54ff53a, 0x510e527f, 0x9b05688c, 0x1f83d9ab, 0x5be0cd19]

/-- The listing of `SHA_K` (R185), one entry for each of its lines: eight words of 32 bits, the first word uppermost. -/
def shaKLines : Vector (BitVec 256) 8 :=
  #v[0x428a2f98_71374491_b5c0fbcf_e9b5dba5_3956c25b_59f111f1_923f82a4_ab1c5ed5,
     0xd807aa98_12835b01_243185be_550c7dc3_72be5d74_80deb1fe_9bdc06a7_c19bf174,
     0xe49b69c1_efbe4786_0fc19dc6_240ca1cc_2de92c6f_4a7484aa_5cb0a9dc_76f988da,
     0x983e5152_a831c66d_b00327c8_bf597fc7_c6e00bf3_d5a79147_06ca6351_14292967,
     0x27b70a85_2e1b2138_4d2c6dfc_53380d13_650a7354_766a0abb_81c2c92e_92722c85,
     0xa2bfe8a1_a81a664b_c24b8b70_c76c51a3_d192e819_d6990624_f40e3585_106aa070,
     0x19a4c116_1e376c08_2748774c_34b0bcb5_391c0cb3_4ed8aa4a_5b9cca4f_682e6ff3,
     0x748f82ee_78a5636f_84c87814_8cc70208_90befffa_a4506ceb_bef9a3f7_c67178f2]

/-- The eight words of one line of R185's listing, from left to right. -/
def lineWords (line : BitVec 256) : List Word32 := (List.range 8).map fun c => line.extractLsb' (32 * (7 - c)) 32

/-- `SHA_K[0..63]` (R185): the words of the listing, line after line. -/
def shaK : Vector Word32 64 := ⟨⟨shaKLines.toList.flatMap lineWords⟩, rfl⟩

/-- `ch(x,y,z)` (R182). -/
def shaCh (x y z : Word32) : Word32 := (x &&& y) ^^^ (~~~x &&& z)

/-- `maj(x,y,z)` (R182). -/
def shaMaj (x y z : Word32) : Word32 := (x &&& y) ^^^ (x &&& z) ^^^ (y &&& z)

/-- `bsig0(x)` (R182). -/
def bsig0 (x : Word32) : Word32 := rotr32 x 2 ^^^ rotr32 x 13 ^^^ rotr32 x 22

/-- `bsig1(x)` (R182). -/
def bsig1 (x : Word32) : Word32 := rotr32 x 6 ^^^ rotr32 x 11 ^^^ rotr32 x 25

/-- `ssig0(x)` (R182). -/
def ssig0 (x : Word32) : Word32 := rotr32 x 7 ^^^ rotr32 x 18 ^^^ (x >>> 3)

/-- `ssig1(x)` (R182). -/
def ssig1 (x : Word32) : Word32 := rotr32 x 17 ^^^ rotr32 x 19 ^^^ (x >>> 10)

/-- The first sixteen words of the message schedule, `W[t] <- BE32(BUF[4t .. 4t+3])`, the other 48 still 0 (R182). -/
def blockWords (buf : Vector Byte 64) : Vector Word32 64 :=
  Vector.ofFn fun t : Fin 64 => if t.val < 16 then be32 (bytesAt 4 (4 * t.val) buf.toList) else 0

/-- The message schedule `W[0..63]` (R182): step `j` writes `W[t]` for `t = 16 + j`. -/
def messageSchedule (buf : Vector Byte 64) : Vector Word32 64 :=
  Nat.fold 48 (fun j _ w =>
    w.set (16 + j) (ssig1 w[14 + j] + w[9 + j] + ssig0 w[1 + j] + w[j])) (blockWords buf)

/-- The working variables `a..h` of one compression (R182). -/
structure Working where
  /-- `a`. -/
  a : Word32
  /-- `b`. -/
  b : Word32
  /-- `c`. -/
  c : Word32
  /-- `d`. -/
  d : Word32
  /-- `e`. -/
  e : Word32
  /-- `f`. -/
  f : Word32
  /-- `g`. -/
  g : Word32
  /-- `h`. -/
  h : Word32
deriving DecidableEq, Repr

/-- One round of the compression (R182), with the round's constant and schedule word. -/
def shaRound (v : Working) (kt wt : Word32) : Working :=
  let t1 := v.h + bsig1 v.e + shaCh v.e v.f v.g + kt + wt
  let t2 := bsig0 v.a + shaMaj v.a v.b v.c
  { a := t1 + t2, b := v.a, c := v.b, d := v.c, e := v.d + t1, f := v.e, g := v.f, h := v.g }

/-- The 64 rounds from `(a,..,h) <- (H[0],..,H[7])` (R182). -/
def shaRounds (h : Vector Word32 8) (w : Vector Word32 64) : Working :=
  Nat.fold 64 (fun t _ v => shaRound v shaK[t] w[t])
    { a := h[0], b := h[1], c := h[2], d := h[3], e := h[4], f := h[5], g := h[6], h := h[7] }

/-- `IH.compress()` (R182): the new `H` from `H` and `BUF`. -/
@[irreducible] def shaCompress (h : Vector Word32 8) (buf : Vector Byte 64) : Vector Word32 8 :=
  let v := shaRounds h (messageSchedule buf)
  #v[h[0] + v.a, h[1] + v.b, h[2] + v.c, h[3] + v.d, h[4] + v.e, h[5] + v.f, h[6] + v.g, h[7] + v.h]

/-- `IH.init()` (R181). -/
def hashInitial : HashState := { h := shaH0, nbytes := 0, buf := Vector.replicate 64 0 }

/-- One step of `IH.update` (R183): `BUF[NBYTES mod 64] <- x; NBYTES <- NBYTES + 1`, and a compression when the block is
complete. -/
def hashByte (st : HashState) (x : Byte) : HashState :=
  let buf := st.buf.set (st.nbytes.toNat % 64) x (Nat.mod_lt _ (by decide))
  let nbytes := st.nbytes + 1
  if nbytes.toNat % 64 = 0 then { h := shaCompress st.h buf, nbytes := nbytes, buf := buf }
  else { h := st.h, nbytes := nbytes, buf := buf }

/-- `IH.update(s)` (R183). -/
def hashBytes (st : HashState) (s : List Byte) : HashState := s.foldl hashByte st

/-- How many zero bytes R184's loop "while NBYTES mod 64 != 56" appends after the byte `0x80` to a message of `n` bytes:
the 0 to 63 that bring `n + 1 + z` to 56 modulo 64. -/
def hashZeros (n : Nat) : Nat := (119 - n % 64) % 64

/-- The padding of R184 for a message of `n` bytes: `0x80`, the zero bytes, and `BE64inv(8 * n)`. -/
def hashPadding (n : Word64) : List Byte :=
  (0x80 : Byte) :: (List.replicate (hashZeros n.toNat) 0 ++ (be64inv (8 * n)).toList)

/-- The output of R184: `BE32inv(H[0]) || ... || BE32inv(H[7])`. -/
def digestBytes (h : Vector Word32 8) : Vector Byte 32 :=
  bytesAt 32 0 (h.toList.flatMap fun w => (be32inv w).toList)

/-- `IH.final()` (R184): the digest of the bytes absorbed since `IH.init`. The spent registers are wiped by every caller. -/
@[irreducible] def hashDigest (st : HashState) : Vector Byte 32 := digestBytes (hashBytes st (hashPadding st.nbytes)).h

/-- The SHA-256 digest of a whole message: `IH.init`, `IH.update` of its bytes, `IH.final` (R181, R183, R184). -/
def shaDigest (m : List Byte) : Vector Byte 32 := hashDigest (hashBytes hashInitial m)

/-- HASH_INIT (R187). -/
def execHashInit (payload : List Byte) (s : State) : Host.Outcome State Fault Refusal :=
  withChecks (.hashInit payload) s fun s => .next (setPhase .hash (setHash hashInitial s))

/-- HASH_UPDATE (R188); the message stays below `2^61` bytes (R186). -/
def execHashUpdate (payload : List Byte) (s : State) : Host.Outcome State Fault Refusal :=
  withChecks (.hashUpdate payload) s fun s =>
    hashGuard payload.length s (.next (setHash (hashBytes s.hash payload) s))

/-- HASH_FINAL (R189). -/
def execHashFinal (payload : List Byte) (s : State) : Host.Outcome State Fault Refusal :=
  withChecks (.hashFinal payload) s fun s =>
    .next (setPhase .idle (wipeHash (emit (hashDigest s.hash).toList s)))

end Sys2Proof.Machine
end

