-- ==== Sys2Proof/Machine/Cbc.lean ====
section
/-! DEFINITION. Unit CBC: the chained-mode pipeline and padding controller (`45_cbc_pipeline.md` R200 to R217) and its
commands ENC_START, ENC_DATA, ENC_FINAL, DEC_START, DEC_DATA, DEC_FINAL. -/

namespace Sys2Proof.Machine

/-- `CBC.enc_block(p)` (R201): `c <- BC.encrypt(p xor CHAIN); emit(c); CHAIN <- c; IH.update(c)`. -/
def encBlock (cfg : Cfg) (s : State) (p : Block) : State :=
  let c := blockEncrypt cfg s.k (xorBytes p s.chain)
  setHash (hashBytes s.hash c.toList) (setChain c (emit c.toList s))

/-- The loop of R202: every complete block in stream order. -/
def encBlocks (cfg : Cfg) (s : State) (bs : List Block) : State := bs.foldl (encBlock cfg) s

/-- `RES[0..RLEN-1]` (R26). -/
def resBytes (s : State) : List Byte := s.res.toList.take s.rlen.val

/-- `CBC.pad(r, n)` (R204) for the residual bytes `r`, at most 15: `r || rep(p, p)` with `p = 16 - n`. -/
def padBlock (r : List Byte) : Block :=
  bytesAt 16 0 (r ++ List.replicate (16 - r.length) (BitVec.ofNat 8 (16 - r.length)))

/-- `CBC.unpad(q)` (R209): `none` is "invalid"; `some t` is "valid(t)", the block without its `p` pad bytes. -/
def unpad (q : Block) : Option (List Byte) :=
  let p := q[15].toNat
  if p < 1 ∨ p > 16 then none
  else if (q.toList.drop (16 - p)).any (fun x => x != q[15]) then none
  else some (q.toList.take (16 - p))

/-- `CBC.dec_block(c)` (R207): the hash takes `c`, and the plaintext is `BC.decrypt(c) xor CHAIN` with the previous `CHAIN`. -/
def decBlock (cfg : Cfg) (s : State) (c : Block) : State × Block :=
  let q := xorBytes (blockDecrypt cfg s.k c) s.chain
  (setChain c (setHash (hashBytes s.hash c.toList) s), q)

/-- The loop of R208 over the complete blocks of one command, `CREM` being already reduced. `.ok s` is the state after
all of them; `.error s` is the state at `raise Fault(E_PADDING)`, with the plaintext of the earlier blocks
emitted. The last block of the container is the last one here when `CREM = 0`. -/
def decBlocks (cfg : Cfg) : State → List Block → Except State State
  | s, [] => .ok s
  | s, c :: cs =>
    let r := decBlock cfg s c
    if s.crem = 0 ∧ cs = [] then
      match unpad r.2 with
      | none => .error r.1
      | some t => .ok (emit t r.1)
    else decBlocks cfg (emit r.2.toList r.1) cs

/-- ENC_START (R200). -/
def execEncStart (payload : List Byte) (s : State) : Host.Outcome State Fault Refusal :=
  withChecks (.encStart payload) s fun s =>
    let iv := operandBlock payload
    .next (setPhase .enc (clearAuth (setHash hashInitial (setResidual [] (setChain iv (emit iv.toList s))))))

/-- ENC_DATA (R202); the hashed ciphertext stays below `2^61` bytes (R186). -/
def execEncData (payload : List Byte) (s : State) : Host.Outcome State Fault Refusal :=
  withChecks (.encData payload) s fun s =>
    let buf := resBytes s ++ payload
    hashGuard (16 * (buf.length / 16)) s
      (.next (setResidual (restOf buf) (encBlocks Config.cfg s (blocksOf buf))))

/-- ENC_FINAL (R203); the last block, too, keeps the hashed ciphertext below `2^61` bytes (R186). -/
def execEncFinal (payload : List Byte) (s : State) : Host.Outcome State Fault Refusal :=
  withChecks (.encFinal payload) s fun s =>
    hashGuard 16 s
      (let s1 := encBlock Config.cfg s (padBlock (resBytes s))
       .next (setPhase .idle (wipeHash (wipeChain (emit (hashDigest s1.hash).toList s1)))))

/-- The malformed test of DEC_START (R206): `L < 48`, or `(L - 48) mod 16 != 0`, or `L - 48 = 0`. -/
def malformed (len : Word64) : Bool :=
  decide (len.toNat < 48) || decide ((len.toNat - 48) % 16 ≠ 0) || decide (len.toNat - 48 = 0)

/-- DEC_START (R206). -/
def execDecStart (payload : List Byte) (s : State) : Host.Outcome State Fault Refusal :=
  withChecks (.decStart payload) s fun s =>
    let len := be64 (operandLenBytes payload)
    if malformed len then .next (takeFault .malformed s)
    else
      .next (setPhase .dec (clearAuth (setHash hashInitial
        (setCrem (len - 48) (setResidual [] (setChain (operandDecIv payload) s))))))

/-- DEC_DATA (R208): `E_OVERRUN` before anything is consumed; then the blocks; `E_PADDING` leaves the earlier blocks
emitted. The hashed ciphertext stays below `2^61` bytes (R186). -/
def execDecData (payload : List Byte) (s : State) : Host.Outcome State Fault Refusal :=
  withChecks (.decData payload) s fun s =>
    if payload.length > s.crem.toNat then .next (takeFault .overrun s)
    else
      let buf := resBytes s ++ payload
      hashGuard (16 * (buf.length / 16)) s
        (match decBlocks Config.cfg (setCrem (s.crem - BitVec.ofNat 64 payload.length) s) (blocksOf buf) with
         | .error s1 => .next (takeFault .padding s1)
         | .ok s1 => .next (setResidual (restOf buf) s1))

/-- DEC_FINAL (R212): the tag comparison is reported in `AV`, `AOK` and is never a fault (R213, R252). -/
def execDecFinal (payload : List Byte) (s : State) : Host.Outcome State Fault Refusal :=
  withChecks (.decFinal payload) s fun s =>
    if s.crem ≠ 0 then .next (takeFault .underrun s)
    else
      .next (setPhase .idle (wipeHash (setCrem 0 (wipeChain
        (setAuth (hashDigest s.hash == operandTag payload) s)))))

end Sys2Proof.Machine
end

