-- ==== Sys2Proof/Machine/Kdf.lean ====
section
/-! DEFINITION. Unit KDF: the keyed hash derivation (`41_kdf.md` R130 to R138) and its commands KDF_INIT, KDF_ABSORB,
KDF_FINAL, KM_READ. -/

namespace Sys2Proof.Machine

/-- `MIX_SEED` (R6, D7): the start value of `running_mix` in each mixing pass. -/
def mixSeed : Byte := 0

/-- `KDF_PAD_BYTE(rem) = rem mod 256` (R6, D8). -/
def kdfPadByte (rem : Nat) : Byte := BitVec.ofNat 8 rem

/-- One pass over the bytes of `WORK` in ascending order (inner loop of R133): `b <- b xor TSUB[m]; m <- b`. Gives the new
bytes and the last `m`. -/
def mixBytes (c : Cfg) : Byte → List Byte → List Byte × Byte
  | m, [] => ([], m)
  | m, b :: bs =>
    let r := mixBytes c (b ^^^ c.tsub m) bs
    ((b ^^^ c.tsub m) :: r.1, r.2)

theorem mixBytes_length (c : Cfg) (m : Byte) (bs : List Byte) : (mixBytes c m bs).1.length = bs.length := by
  induction bs generalizing m with
  | nil => rfl
  | cons b bs ih => simp [mixBytes, ih]

/-- The inner loop of R133 on `WORK`. -/
def mixRound (c : Cfg) (work : Vector Byte 1536) (m : Byte) : Vector Byte 1536 × Byte :=
  (⟨⟨(mixBytes c m work.toList).1⟩, by simp [mixBytes_length]⟩, (mixBytes c m work.toList).2)

/-- `n` rounds of the mixing pass from `m` (outer loop of R133): after the 1536 bytes of round `round`,
`m <- (m + round) mod 256`, once per round. -/
def mixRounds (c : Cfg) (n : Nat) (work : Vector Byte 1536) (m : Byte) : Vector Byte 1536 × Byte :=
  n.fold (fun round _ wm =>
    let r := mixRound c wm.1 wm.2
    (r.1, r.2 + BitVec.ofNat 8 round)) (work, m)

/-- `KDF.mix()` (R133): 514 rounds (`KDF_MIX_ROUNDS`, R7) from `MIX_SEED`; `running_mix` does not survive the pass. -/
@[irreducible] def kdfMix (c : Cfg) (work : Vector Byte 1536) : Vector Byte 1536 := (mixRounds c 514 work mixSeed).1

/-- The six writes of `KDF.absorb_byte(x)` before the test of `POS` (R132): the third write uses the old `ACC[p]`, and
`ACC[p]` is assigned, not accumulated. `POS` is left at `p`. -/
def absorbWrites (c : Cfg) (st : KdfState) (x : Byte) : KdfState :=
  let p := st.pos
  let old := st.acc[p]
  let new := c.tsub (x ^^^ st.rs)
  { st with
    work := ((st.work.set p.val x (by omega)).set (p.val + 512) x (by omega)).set (p.val + 1024) (x ^^^ old) (by omega)
    acc := st.acc.set p.val new p.isLt
    rs := new }

/-- `KDF.absorb_byte(x)` (R132): the writes, then `POS <- p + 1`, and at 512 a mixing pass and `POS <- 0`. -/
def absorbByte (c : Cfg) (st : KdfState) (x : Byte) : KdfState :=
  let st' := absorbWrites c st x
  if h : st.pos.val + 1 < 512 then { st' with pos := ⟨st.pos.val + 1, h⟩ }
  else { st' with work := kdfMix c st'.work, pos := 0 }

/-- `absorb(bytes)` (R134): every byte in order. -/
def absorb (c : Cfg) (st : KdfState) (bs : List Byte) : KdfState := bs.foldl (absorbByte c) st

/-- The self-describing padding of R135: `rem = 512 - POS` bytes each `KDF_PAD_BYTE(rem)`. -/
def absorbPadding (c : Cfg) (st : KdfState) : KdfState :=
  absorb c st (List.replicate (512 - st.pos.val) (kdfPadByte (512 - st.pos.val)))

/-- The second loop of R135: `absorb_byte(ACC[i])` for `i = 0..511`, `ACC[i]` read live at step `i`. -/
def absorbAcc (c : Cfg) (st : KdfState) : KdfState :=
  Nat.fold 512 (fun i hi s => absorbByte c s (s.acc[i]'hi)) st

/-- `finalize()` (R135). -/
@[irreducible] def kdfFinalize (c : Cfg) (st : KdfState) : KdfState := absorbAcc c (absorbPadding c st)

/-- KeyMaterial (R33): `MemRead(WORK, 0, 512)`. -/
def keyMaterial (st : KdfState) : Vector Byte 512 := bytesAt 512 0 st.work.toList

/-- KDF_INIT (R131). -/
def execKdfInit (payload : List Byte) (s : State) : Host.Outcome State Fault Refusal :=
  withChecks (.kdfInit payload) s fun s => .next (setPhase .kdfAbs (wipeKdf s))

/-- KDF_ABSORB (R134). -/
def execKdfAbsorb (payload : List Byte) (s : State) : Host.Outcome State Fault Refusal :=
  withChecks (.kdfAbsorb payload) s fun s => .next (setKdf (absorb Config.cfg s.kdf payload) s)

/-- KDF_FINAL (R135). -/
def execKdfFinal (payload : List Byte) (s : State) : Host.Outcome State Fault Refusal :=
  withChecks (.kdfFinal payload) s fun s => .next (setPhase .kdfRdy (setKdf (kdfFinalize Config.cfg s.kdf) s))

/-- KM_READ (R136). -/
def execKmRead (payload : List Byte) (s : State) : Host.Outcome State Fault Refusal :=
  withChecks (.kmRead payload) s fun s => .next (emit (keyMaterial s.kdf).toList s)

end Sys2Proof.Machine
end

