-- ==== Sys2Proof/Machine/KeySchedule.lean ====
section
/-! DEFINITION. Unit KS: the key schedule (`42_key_schedule.md` R150 to R153) and its commands KS_DERIVE, KS_LOAD. -/

namespace Sys2Proof.Machine

/-- The schedule of `KS.derive(KM)` (R150): `K[i] <- BE64(KM[8i .. 8i+7])` for `i = 0..63`. -/
@[irreducible] def schedule (km : Vector Byte 512) : Vector Word64 64 :=
  Vector.ofFn fun i : Fin 64 => be64 (bytesAt 8 (8 * i.val) km.toList)

/-- KS_DERIVE (R151). -/
def execKsDerive (payload : List Byte) (s : State) : Host.Outcome State Fault Refusal :=
  withChecks (.ksDerive payload) s fun s =>
    .next (setPhase .idle (wipeKdf (loadKey (schedule (keyMaterial s.kdf)) s)))

/-- KS_LOAD (R152). -/
def execKsLoad (payload : List Byte) (s : State) : Host.Outcome State Fault Refusal :=
  withChecks (.ksLoad payload) s fun s => .next (loadKey (schedule (operandKm payload)) s)

end Sys2Proof.Machine
end

