-- ==== Sys2Proof/Machine/System.lean ====
section
/-! DEFINITION. The system commands NOP, ZEROIZE, ABORT, RD_STATUS (`46_system.md` R240 to R244). -/

namespace Sys2Proof.Machine

/-- NOP (R240): no state change, no output. -/
def execNop (payload : List Byte) (s : State) : Host.Outcome State Fault Refusal :=
  withChecks (.nop payload) s fun s => .next s

/-- ZEROIZE (R241): the reset state exactly; also the way out of phase `FAULT` (R259). -/
def execZeroize (payload : List Byte) (s : State) : Host.Outcome State Fault Refusal :=
  withChecks (.zeroize payload) s fun s => .next (toReset s)

/-- ABORT (R242): every operation's registers to zero, `K`, `KV` and `ERR` kept. -/
def execAbort (payload : List Byte) (s : State) : Host.Outcome State Fault Refusal :=
  withChecks (.abort payload) s fun s =>
    .next (setPhase .idle (clearAuth (wipeKdf (wipeHash (setCrem 0 (wipeChain s))))))

/-- RD_STATUS (R243): emit `BE32inv(STATUS)`; reading clears nothing. -/
def execRdStatus (payload : List Byte) (s : State) : Host.Outcome State Fault Refusal :=
  withChecks (.rdStatus payload) s fun s => .next (emit (be32inv (status s)).toList s)

end Sys2Proof.Machine
end

