-- ==== Sys2Proof/Machine/Dispatch.lean ====
section
/-! DEFINITION. One arm per command of the opcode map (`30_encoding.md` R93): each calls its meaning. -/

namespace Sys2Proof.Machine

def exec (i : Instr) (s : State) : Host.Outcome State Fault Refusal :=
  match i with
  | .nop payload => Sys2Proof.Machine.execNop payload s
  | .zeroize payload => Sys2Proof.Machine.execZeroize payload s
  | .abort payload => Sys2Proof.Machine.execAbort payload s
  | .rdStatus payload => Sys2Proof.Machine.execRdStatus payload s
  | .kdfInit payload => Sys2Proof.Machine.execKdfInit payload s
  | .kdfAbsorb payload => Sys2Proof.Machine.execKdfAbsorb payload s
  | .kdfFinal payload => Sys2Proof.Machine.execKdfFinal payload s
  | .kmRead payload => Sys2Proof.Machine.execKmRead payload s
  | .ksDerive payload => Sys2Proof.Machine.execKsDerive payload s
  | .ksLoad payload => Sys2Proof.Machine.execKsLoad payload s
  | .blkEnc payload => Sys2Proof.Machine.execBlkEnc payload s
  | .blkDec payload => Sys2Proof.Machine.execBlkDec payload s
  | .encStart payload => Sys2Proof.Machine.execEncStart payload s
  | .encData payload => Sys2Proof.Machine.execEncData payload s
  | .encFinal payload => Sys2Proof.Machine.execEncFinal payload s
  | .decStart payload => Sys2Proof.Machine.execDecStart payload s
  | .decData payload => Sys2Proof.Machine.execDecData payload s
  | .decFinal payload => Sys2Proof.Machine.execDecFinal payload s
  | .hashInit payload => Sys2Proof.Machine.execHashInit payload s
  | .hashUpdate payload => Sys2Proof.Machine.execHashUpdate payload s
  | .hashFinal payload => Sys2Proof.Machine.execHashFinal payload s

end Sys2Proof.Machine
end

