-- ==== Sys2Proof/Machine/Fetch.lean ====
section
/-! DEFINITION. How the engine takes its next command from its ports (`30_encoding.md` R90, R91; `20_memory.md` R61, R70). The
engine has no program counter and fetches nothing from memory (`10_state.md` R42): the host writes command
words to `CMD` and payload bytes to `DIN`, and the engine takes one word and its `len` bytes at a time. -/

namespace Sys2Proof.Machine

/-- What the ports offer. -/
inductive Fetched where
  /-- No command word is pending: the engine waits (R280). -/
  | idle
  /-- A word is pending and fewer than `len` payload bytes are there (U14). -/
  | incomplete
  /-- A complete command, and the state with it taken off the ports. -/
  | command (w : Word32) (payload : List Byte) (rest : State)
deriving DecidableEq, Repr

/-- Take the next command word and exactly `len` payload bytes, whatever the opcode, the phase or the outcome (R61, R91). -/
def fetch (s : State) : Fetched :=
  match s.cmd with
  | [] => .idle
  | w :: ws =>
    if s.din.length < lenField w then .incomplete
    else .command w (s.din.take (lenField w)) { s with cmd := ws, din := s.din.drop (lenField w) }

end Sys2Proof.Machine
end

