-- ==== Sys2Proof/Machine/Step.lean ====
section
/-! DEFINITION. One step of the machine: take the next command off the ports and perform it whole (`30_encoding.md` R96, R102;
`00_scope.md` R14; `20_memory.md` R70). With no command pending the engine holds its state (R253, R275, R280). -/

namespace Sys2Proof.Machine

/-- One command, or waiting for one. -/
def step (s : State) : Host.Outcome State Fault Refusal :=
  match fetch s with
  | .idle => .next s
  | .incomplete => .refused .incompletePayload
  | .command w payload s1 =>
    match decode w payload with
    | .ok i => exec i s1
    | .error _ => .next (illegalCommand s1)

/-- The state with the command of the low `nbits` bits of `w` (every later bit 0) next on its ports: its word first on
`CMD`, its `len` zero payload bytes first on `DIN`. It stands for the host issuing that command (log 2). -/
def State.withFetchWord (s : State) (nbits w : Nat) : State :=
  { s with
    cmd := BitVec.ofNat 32 (w % 2 ^ nbits) :: s.cmd
    din := List.replicate (lenField (BitVec.ofNat 32 (w % 2 ^ nbits))) 0 ++ s.din }

end Sys2Proof.Machine
end

