-- ==== Sys2Proof/Machine/Pseudo.lean ====
section
/-! DEFINITION. What the spec gives the HOST of the engine, as functions: the container layout (`10_state.md` R39), the operand
forms of the assembler (`30_encoding.md` R100), the pseudo-instructions SETKEY, ENCRYPT, DECRYPT (R101) and what
the host reports for each outcome (`60_exceptions.md` R260). No step calls them: a pseudo-instruction is the
list of real commands it expands to. -/

namespace Sys2Proof.Machine

/-- The IV of a container, offsets 0..15 (R39). -/
def containerIv (cont : List Byte) : List Byte := cont.take 16

/-- The ciphertext of a container of at least 48 bytes, offsets `16 .. len-33` (R39, R101). -/
def containerCiphertext (cont : List Byte) : List Byte := (cont.drop 16).take (cont.length - 48)

/-- The tag of a container of at least 48 bytes, its last 32 bytes (R39, R101). -/
def containerTag (cont : List Byte) : List Byte := cont.drop (cont.length - 32)

/-- `DEC_START L=<len> IV=<iv>` (R100): the payload is `BE64inv(L) || IV`. -/
def asmDecStart (len : Nat) (iv : List Byte) : Instr :=
  .decStart ((be64inv (BitVec.ofNat 64 len)).toList ++ iv)

/-- `SETKEY pw` (R101), for the pieces `chunks(pw)`. -/
def setKey (pw : List (List Byte)) : List Instr :=
  .kdfInit [] :: (pw.map .kdfAbsorb ++ [.kdfFinal [], .ksDerive []])

/-- The stream commands of `ENCRYPT` (R101): one container, for the pieces `chunks(pt)`. -/
def encryptStream (iv : List Byte) (pt : List (List Byte)) : List Instr :=
  .encStart iv :: (pt.map .encData ++ [.encFinal []])

/-- The stream commands of `DECRYPT` (R101) before its RD_STATUS, for the container's length, IV and tag and the pieces
`chunks` of its ciphertext. -/
def decryptStream (len : Nat) (iv : List Byte) (ct : List (List Byte)) (tag : List Byte) : List Instr :=
  asmDecStart len iv :: (ct.map .decData ++ [.decFinal tag])

/-- `ENCRYPT pw, iv, pt` (R101). -/
def encryptCommands (pw : List (List Byte)) (iv : List Byte) (pt : List (List Byte)) : List Instr :=
  setKey pw ++ encryptStream iv pt ++ [.zeroize []]

/-- `DECRYPT pw, cont` (R101), for the pieces `ct` of `containerCiphertext cont`. A container under 48 bytes is only
announced, with any IV (here zeros), to obtain `E_MALFORMED`. -/
def decryptCommands (pw : List (List Byte)) (cont : List Byte) (ct : List (List Byte)) : List Instr :=
  if cont.length < 48 then setKey pw ++ [asmDecStart cont.length (List.replicate 16 0)]
  else
    setKey pw ++ decryptStream cont.length (containerIv cont) ct (containerTag cont)
      ++ [.rdStatus [], .zeroize []]

/-- The source's error classes as the host reports them (R260). -/
inductive HostError where
  /-- `Err(Malformed Container)`: `ERR` is `0x01`, `0x14` or `0x15`. -/
  | malformedContainer
  /-- `Err(Padding Validation Failure)`: `ERR` is `0x02`. -/
  | paddingValidationFailure
  /-- A host programming error, without a source counterpart: `ERR` is `0x10` to `0x13`. -/
  | hostProgramming
deriving DecidableEq, Repr

/-- What the host reports for an `ERR` value (R260); none for 0 and for the codes that are never written. -/
def hostError (err : Byte) : Option HostError :=
  match err.toNat with
  | 0x01 => some .malformedContainer
  | 0x14 => some .malformedContainer
  | 0x15 => some .malformedContainer
  | 0x02 => some .paddingValidationFailure
  | 0x10 => some .hostProgramming
  | 0x11 => some .hostProgramming
  | 0x12 => some .hostProgramming
  | 0x13 => some .hostProgramming
  | _ => none

/-- The host's report after an operation (R243, R260): in phase `FAULT` the error; otherwise `AuthResult.ok` if `AV = 1`,
and plain success if not. -/
def hostReport (s : State) : Except (Option HostError) (Option Bool) :=
  if s.phase = .fault then .error (hostError s.err)
  else if s.av then .ok (some s.aok)
  else .ok none

end Sys2Proof.Machine
end

