-- ==== Sys2Proof/Safety.lean ====
section
/-! DEFINITION. What counts as a good state and a good run, in the terms the statements use: the invariants between
commands (`10_state.md` R43, with R34, R35, R26, R27, R42, R250), the state fault entry leaves, and runs of several
commands. -/

namespace Sys2Proof.Machine

/-- A stream operation is in progress. -/
def Phase.streaming (p : Phase) : Prop := p = .enc ∨ p = .dec

/-- A key derivation is in progress or ready. -/
def Phase.keyDeriving (p : Phase) : Prop := p = .kdfAbs ∨ p = .kdfRdy

/-- The state after fault entry with code `err` from `s`, with `out` emitted (R256): every register but `PHASE` and `ERR`
at its reset value. -/
def faulted (err : Byte) (out : List Byte) (s : State) : State :=
  { State.reset with phase := .fault, err := err, cmd := s.cmd, din := s.din, dout := s.dout ++ out }

/-- The invariants between commands (R43). (c) `POS <= 511` and the first half of (d), `RLEN <= 15`, hold by the types of
the fields. -/
structure State.Inv (s : State) : Prop where
  /-- (a), R34: `ERR != 0` iff `PHASE = FAULT`. -/
  err_iff : s.err ≠ 0 ↔ s.phase = .fault
  /-- R250: no other code is ever in `ERR`. -/
  err_code : s.phase = .fault → ∃ e : ErrCode, s.err = errCode e
  /-- (b), R35. -/
  aok_av : s.aok = true → s.av = true
  /-- (d), R26: `RES[RLEN..15] = 0`. -/
  res_tail : ∀ i : Fin 16, s.rlen.val ≤ i.val → s.res[i] = 0
  /-- (e), R138. -/
  kdf_zero : ¬ s.phase.keyDeriving → s.kdf = KdfState.zero
  /-- R135: KDF_FINAL leaves `POS = 0`. -/
  rdy_pos : s.phase = .kdfRdy → s.kdf.pos = 0
  /-- (f). -/
  stream_zero : ¬ s.phase.streaming →
    s.chain = Vector.replicate 16 0 ∧ s.res = Vector.replicate 16 0 ∧ s.rlen = 0
  /-- (f), R27: `CREM` is zero in every phase but `DEC`. -/
  crem_zero : s.phase ≠ .dec → s.crem = 0
  /-- (g). -/
  hash_zero : ¬ s.phase.streaming → s.phase ≠ .hash → s.hash = HashState.zero
  /-- (h). -/
  hash_blocks : s.phase.streaming → s.hash.nbytes.toNat % 16 = 0
  /-- R42, R186: `NBYTES` stays below `2^61`. -/
  hash_bound : s.hash.nbytes.toNat < 2 ^ 61
  /-- (i), R27, R214. -/
  dec_blocks : s.phase = .dec → (s.crem.toNat + s.rlen.val) % 16 = 0
  /-- (i), R206, R214: what is hashed, held and announced is a ciphertext length `L - 48` that DEC_START accepts. -/
  dec_total : s.phase = .dec →
    0 < s.hash.nbytes.toNat + s.rlen.val + s.crem.toNat ∧
      s.hash.nbytes.toNat + s.rlen.val + s.crem.toNat + 48 < 2 ^ 64
  /-- (j). -/
  stream_key : s.phase.streaming → s.kv = true
  /-- (k), R256. -/
  fault_reset : s.phase = .fault → s = { toReset s with phase := .fault, err := s.err }
  /-- (l). -/
  no_key : s.kv = false → s.k = Vector.replicate 64 0

/-- Run commands one after the other (R70), stopping at a refusal. -/
def runCommands : List Instr → State → Host.Outcome State Fault Refusal
  | [], s => .next s
  | i :: is, s =>
    match exec i s with
    | .next t => runCommands is t
    | .fault r => .fault r
    | .refused r => .refused r

/-- Run a pseudo-instruction as the host does (R101): stop at the first command after which `PHASE = FAULT`. -/
def runHost : List Instr → State → Host.Outcome State Fault Refusal
  | [], s => .next s
  | i :: is, s =>
    match exec i s with
    | .next t => if t.phase = .fault then .next t else runHost is t
    | .fault r => .fault r
    | .refused r => .refused r

/-- The engine's verdict on a container is a rejection (R216): the padding of the last block failed, which faults with
`E_PADDING`, or DEC_FINAL found a tag that is not the ciphertext's and reported it, `AV = 1` with `AOK = 0` (R213). -/
def State.Rejects (s : State) : Prop :=
  (s.phase = .fault ∧ s.err = errCode .padding) ∨ (s.phase = .idle ∧ s.av = true ∧ s.aok = false)

/-- The engine's verdict on a container is that its tag is the ciphertext's (R212, R213): `AV = AOK = 1`. -/
def State.Accepts (s : State) : Prop := s.phase = .idle ∧ s.av = true ∧ s.aok = true

/-- SHA-256 does not collide on these two inputs: the hypothesis that R216 asks the tamper property to make explicit. It is
about the two byte strings alone; of all strings it would be false. -/
def CollisionFree (x y : List Byte) : Prop := shaDigest x = shaDigest y → x = y

/-- The tamper property of R216 for a ciphertext `c` stored with `tag`: whoever sends an idle engine with a key (any key, any IV)
as many ciphertext bytes, cut in any way, but not these, is told so, unless SHA-256 collides on the two ciphertexts. -/
def DetectsTampering (c tag : List Byte) : Prop :=
  ∀ (d : State) (iv : List Byte) (ct : List (List Byte)), d.phase = .idle → d.kv = true → iv.length = 16 →
    ct.flatten.length = c.length → ct.flatten ≠ c → CollisionFree ct.flatten c →
    ∃ u, runCommands (decryptStream (48 + c.length) iv ct tag) d = .next u ∧ u.Rejects

/-- The state after the host has issued `i`: its word on `CMD` and its payload on `DIN` (R90, R61). -/
def issue (i : Instr) (s : State) : State :=
  { s with cmd := s.cmd ++ [(encode i).1], din := s.din ++ (encode i).2 }

/-- The next command on the ports: its word, its payload and the state without them. -/
def pending (w : Word32) (payload : List Byte) (s : State) : State :=
  { s with cmd := w :: s.cmd, din := payload ++ s.din }

/-- The unsigned number whose big-endian digits are the bytes (R12), the sum written out. -/
def beValue (s : List Byte) : Nat := s.foldl (fun acc b => 256 * acc + b.toNat) 0

end Sys2Proof.Machine
end

