-- ==== Sys2Proof/Certificates/Slice0/Obligations.lean ====
section
/-! DEFINITION. The statements for the provers, from the numbered rules of the spec. Each is about every state, also the
states no run reaches, unless it names the invariant `State.Inv`. A state `{ s with … }` in a conclusion is a whole
frame: every register, flag, port and buffer it does not name is unchanged. Statements that rest on a rule the
spec marks as derived, or on the model's own form, say so. -/

open Sys2Proof Sys2Proof.Machine

/-! ### Encoding and decoding -/

/-- Decoding the words of any command that can be framed gives the command back (`30_encoding.md`, sections 1 and 2). -/
def Obligations.DecodeInvertsEncode : Prop :=
  ∀ i : Instr, i.framable = true → decode (encode i).1 (encode i).2 = .ok i

/-- Every word and payload has one meaning: what decodes to a command is its encoding (`30_encoding.md` section 6: no
alternative forms). -/
def Obligations.EncodeInvertsDecode : Prop :=
  ∀ (w : Word32) (payload : List Byte) (i : Instr), decode w payload = .ok i → encode i = (w, payload)

/-- R93 (with R90's bit positions): the 21 opcodes with `rsvd = 0` select their commands, whatever the payload, and no other
value of the upper 16 bits selects one. -/
def Obligations.OpcodeMap : Prop :=
  ∀ (w : Word32) (payload : List Byte), payload.length = w.toNat % 2 ^ 16 →
    ∀ map : List (Nat × (List Byte → Instr)), map =
      [(0x00, .nop), (0x01, .zeroize), (0x02, .abort), (0x03, .rdStatus), (0x10, .kdfInit), (0x11, .kdfAbsorb),
       (0x12, .kdfFinal), (0x13, .kmRead), (0x14, .ksDerive), (0x15, .ksLoad), (0x20, .blkEnc), (0x21, .blkDec),
       (0x30, .encStart), (0x31, .encData), (0x32, .encFinal), (0x38, .decStart), (0x39, .decData),
       (0x3A, .decFinal), (0x40, .hashInit), (0x41, .hashUpdate), (0x42, .hashFinal)] →
      (∀ e ∈ map, w.toNat / 2 ^ 16 = 2 ^ 8 * e.1 → decode w payload = .ok (e.2 payload)) ∧
      ((∀ e ∈ map, w.toNat / 2 ^ 16 ≠ 2 ^ 8 * e.1) → ∀ i, decode w payload ≠ .ok i)

/-- Words written out from R90 and R93 decode to the commands they stand for, one of each family. -/
def Obligations.WordsOfTheOpcodeMapDecode : Prop :=
  decode 0x03000000 [] = .ok (.rdStatus []) ∧
  decode 0x11000004 [0x74, 0x65, 0x73, 0x74] = .ok (.kdfAbsorb [0x74, 0x65, 0x73, 0x74]) ∧
  decode 0x14000000 [] = .ok (.ksDerive []) ∧
  decode 0x20000010 (List.replicate 16 7) = .ok (.blkEnc (List.replicate 16 7)) ∧
  decode 0x31000003 [0x61, 0x62, 0x63] = .ok (.encData [0x61, 0x62, 0x63]) ∧
  decode 0x3a000020 (List.replicate 32 1) = .ok (.decFinal (List.replicate 32 1)) ∧
  decode 0x41000003 [0x61, 0x62, 0x63] = .ok (.hashUpdate [0x61, 0x62, 0x63]) ∧
  decode 0x99000000 [] = .error (.undefinedOpcode 0x99) ∧
  decode 0x00010000 [] = .error (.reservedNonzero 1)

/-! ### One step -/

/-- A step takes the next word and its `len` bytes off the ports and performs the command they decode to. -/
def Obligations.StepRunsTheDecodedCommand : Prop :=
  ∀ (s : State) (w : Word32) (ws : List Word32) (payload rest : List Byte) (i : Instr),
    s.cmd = w :: ws → s.din = payload ++ rest → payload.length = w.toNat % 2 ^ 16 → decode w payload = .ok i →
      step s = exec i { s with cmd := ws, din := rest }

/-- Without a command word the engine holds its state; with too few payload bytes the step is refused (the model's choice
where the spec says "refuse": assumption log 4 and 5). -/
def Obligations.StepWaitsForACompleteCommand : Prop :=
  ∀ s : State, (s.cmd = [] → step s = .next s) ∧
    ∀ w ws, s.cmd = w :: ws → s.din.length < w.toNat % 2 ^ 16 → step s = .refused .incompletePayload

/-- R61, R91: a step consumes the word and exactly `len` payload bytes, whatever the opcode, the phase or the outcome. -/
def Obligations.StepConsumesTheFramedPayload : Prop :=
  ∀ (s t : State) (w : Word32) (ws : List Word32), s.cmd = w :: ws → step s = .next t →
    t.cmd = ws ∧ t.din = s.din.drop (w.toNat % 2 ^ 16) ∧ w.toNat % 2 ^ 16 ≤ s.din.length

/-- R62: `DOUT` is append-only; no step retracts or rewrites an emitted byte. -/
def Obligations.StepOutputIsAppendOnly : Prop :=
  ∀ s t : State, step s = .next t → ∃ out, t.dout = s.dout ++ out

/-- R98: an undefined opcode or a nonzero `rsvd` field faults with `E_ILLEGAL` outside phase `FAULT` and is ignored in it. -/
def Obligations.IllegalWordsFaultOrAreIgnored : Prop :=
  ∀ (s : State) (w : Word32) (ws : List Word32) (payload rest : List Byte),
    s.cmd = w :: ws → s.din = payload ++ rest → payload.length = w.toNat % 2 ^ 16 →
    (w.toNat / 2 ^ 16 % 2 ^ 8 ≠ 0 ∨
      w.toNat / 2 ^ 24 ∉ [0x00, 0x01, 0x02, 0x03, 0x10, 0x11, 0x12, 0x13, 0x14, 0x15, 0x20, 0x21, 0x30, 0x31, 0x32,
        0x38, 0x39, 0x3A, 0x40, 0x41, 0x42]) →
    (s.phase ≠ .fault → step s = .next (faulted 0x10 [] { s with cmd := ws, din := rest })) ∧
    (s.phase = .fault → step s = .next { s with cmd := ws, din := rest })

/-- Every word with its payload is performed, faulted into phase `FAULT` or ignored, always a next state, but for the one
refusal of `44_integrity_hash.md` section 2: a hash that would reach `2^61` bytes (`30_encoding.md` section 4, "Decode
is total"; assumption log 6). -/
def Obligations.StepIsTotalOnCompleteCommands : Prop :=
  ∀ (s : State) (w : Word32) (ws : List Word32), s.cmd = w :: ws → w.toNat % 2 ^ 16 ≤ s.din.length →
    (∃ t, step s = .next t) ∨
    (step s = .refused .hashTooLong ∧ (s.phase = .enc ∨ s.phase = .dec ∨ s.phase = .hash) ∧
      2 ^ 61 ≤ s.hash.nbytes.toNat + s.rlen.val + w.toNat % 2 ^ 16 + 16)

/-! ### Admission, faults, phases -/

/-- R94, R96: outside phase `FAULT` a payload of a length the command does not take faults with `E_BAD_LEN`, whatever the
phase and the key. -/
def Obligations.WrongLengthFaults : Prop :=
  ∀ (s : State) (p : List Byte), s.phase ≠ .fault →
    (p.length ≠ 0 → ∀ i ∈ [Instr.nop p, .zeroize p, .abort p, .rdStatus p, .kdfInit p, .kdfFinal p, .kmRead p, .ksDerive p,
      .encFinal p, .hashInit p, .hashFinal p], exec i s = .next (faulted 0x11 [] s)) ∧
    (p.length ≠ 512 → exec (.ksLoad p) s = .next (faulted 0x11 [] s)) ∧
    (p.length ≠ 16 → ∀ i ∈ [Instr.blkEnc p, .blkDec p, .encStart p], exec i s = .next (faulted 0x11 [] s)) ∧
    (p.length ≠ 24 → exec (.decStart p) s = .next (faulted 0x11 [] s)) ∧
    (p.length ≠ 32 → exec (.decFinal p) s = .next (faulted 0x11 [] s))

/-- R96, R97: outside phase `FAULT` a command of a good length in a phase where it is not legal faults with `E_BAD_PHASE`,
whatever the key. -/
def Obligations.WrongPhaseFaults : Prop :=
  ∀ (s : State) (p : List Byte), s.phase ≠ .fault →
    (s.phase ∉ [Phase.idle, .kdfAbs, .kdfRdy] → exec (.kdfInit []) s = .next (faulted 0x12 [] s)) ∧
    (s.phase ≠ .kdfAbs → ∀ i ∈ [Instr.kdfAbsorb p, .kdfFinal []], exec i s = .next (faulted 0x12 [] s)) ∧
    (s.phase ≠ .kdfRdy → ∀ i ∈ [Instr.kmRead [], .ksDerive []], exec i s = .next (faulted 0x12 [] s)) ∧
    (s.phase ≠ .idle → p.length = 512 → exec (.ksLoad p) s = .next (faulted 0x12 [] s)) ∧
    (s.phase ≠ .idle → p.length = 16 →
      ∀ i ∈ [Instr.blkEnc p, .blkDec p, .encStart p], exec i s = .next (faulted 0x12 [] s)) ∧
    (s.phase ≠ .idle → p.length = 24 → exec (.decStart p) s = .next (faulted 0x12 [] s)) ∧
    (s.phase ≠ .idle → exec (.hashInit []) s = .next (faulted 0x12 [] s)) ∧
    (s.phase ≠ .enc → ∀ i ∈ [Instr.encData p, .encFinal []], exec i s = .next (faulted 0x12 [] s)) ∧
    (s.phase ≠ .dec → exec (.decData p) s = .next (faulted 0x12 [] s)) ∧
    (s.phase ≠ .dec → p.length = 32 → exec (.decFinal p) s = .next (faulted 0x12 [] s)) ∧
    (s.phase ≠ .hash → ∀ i ∈ [Instr.hashUpdate p, .hashFinal []], exec i s = .next (faulted 0x12 [] s))

/-- R96 check 4, R250: without a key the four keyed commands fault with `E_NO_KEY`, DEC_START before it looks at `L`. -/
def Obligations.MissingKeyFaults : Prop :=
  ∀ (s : State) (p : List Byte), s.phase = .idle → s.kv = false →
    (p.length = 16 → ∀ i ∈ [Instr.blkEnc p, .blkDec p, .encStart p], exec i s = .next (faulted 0x13 [] s)) ∧
    (p.length = 24 → exec (.decStart p) s = .next (faulted 0x13 [] s))

/-- R258: in phase `FAULT` RD_STATUS emits the status, ZEROIZE gives the reset state, and every other word, NOP and the
malformed forms of all three included, only has its payload consumed. -/
def Obligations.FaultPhaseIgnoresOtherWords : Prop :=
  ∀ (s : State) (w : Word32) (ws : List Word32) (payload rest : List Byte), s.phase = .fault →
    s.cmd = w :: ws → s.din = payload ++ rest → payload.length = w.toNat % 2 ^ 16 →
    (w ≠ 0x01000000 → w ≠ 0x03000000 → step s = .next { s with cmd := ws, din := rest }) ∧
    (w = 0x03000000 → ∃ out : List Byte, out.length = 4 ∧ beValue out = (status s).toNat ∧
      step s = .next { s with cmd := ws, din := rest, dout := s.dout ++ out }) ∧
    (w = 0x01000000 → step s = .next { State.reset with cmd := ws, din := rest, dout := s.dout })

/-- R256, R250: a command that enters phase `FAULT` leaves every register but `PHASE` and `ERR` at its reset value, one of
the eight codes in `ERR`, and, but for `E_PADDING`, `DOUT` as it was. -/
def Obligations.FaultEntryZeroesEverything : Prop :=
  ∀ (i : Instr) (s t : State), s.phase ≠ .fault → exec i s = .next t → t.phase = .fault →
    ∃ out, t = faulted t.err out s ∧
      t.err.toNat ∈ [0x01, 0x02, 0x11, 0x12, 0x13, 0x14, 0x15] ∧
      (t.err.toNat ≠ 0x02 → out = []) ∧
      (t.err.toNat = 0x02 → ∃ p, i = .decData p)

/-- R259: the only command word that leads out of phase `FAULT` is `0x01000000`, ZEROIZE, and it gives the reset state. -/
def Obligations.OnlyZeroizeLeavesFault : Prop :=
  ∀ s t : State, s.phase = .fault → step s = .next t → t.phase ≠ .fault →
    s.cmd.head? = some 0x01000000 ∧ t = { State.reset with cmd := s.cmd.tail, din := s.din, dout := s.dout }

/-- R97: `PHASE` changes only along the edges of the graph, each by its command. -/
def Obligations.PhaseMovesAlongTheGraph : Prop :=
  ∀ (i : Instr) (s t : State), exec i s = .next t → t.phase ≠ s.phase →
    t.phase = .fault ∨
    (t.phase = .idle ∧ i = .zeroize []) ∨
    (s.phase ≠ .fault ∧ t.phase = .idle ∧ i = .abort []) ∨
    (s.phase ∈ [Phase.idle, .kdfRdy] ∧ t.phase = .kdfAbs ∧ i = .kdfInit []) ∨
    (s.phase = .kdfAbs ∧ t.phase = .kdfRdy ∧ i = .kdfFinal []) ∨
    (s.phase = .kdfRdy ∧ t.phase = .idle ∧ i = .ksDerive []) ∨
    (s.phase = .idle ∧ t.phase = .enc ∧ ∃ p, i = .encStart p) ∨
    (s.phase = .enc ∧ t.phase = .idle ∧ i = .encFinal []) ∨
    (s.phase = .idle ∧ t.phase = .dec ∧ ∃ p, i = .decStart p) ∨
    (s.phase = .dec ∧ t.phase = .idle ∧ ∃ p, i = .decFinal p) ∨
    (s.phase = .idle ∧ t.phase = .hash ∧ i = .hashInit []) ∨
    (s.phase = .hash ∧ t.phase = .idle ∧ i = .hashFinal [])

/-- R153, R35, R34: who may write `K` and `KV`, `AV` and `AOK`, and `ERR`, over all commands. -/
def Obligations.FlagsAndKeyHaveFewWriters : Prop :=
  ∀ (i : Instr) (s t : State), exec i s = .next t →
    ((t.k ≠ s.k ∨ t.kv ≠ s.kv) → t.phase = .fault ∨ i = .zeroize [] ∨ i = .ksDerive [] ∨ ∃ p, i = .ksLoad p) ∧
    ((t.av ≠ s.av ∨ t.aok ≠ s.aok) → t.phase = .fault ∨ i = .zeroize [] ∨ i = .abort [] ∨
      ∃ p, i = .encStart p ∨ i = .decStart p ∨ i = .decFinal p) ∧
    (t.err ≠ s.err → t.phase = .fault ∨ i = .zeroize [])

/-! ### System commands -/

/-- R50: after reset every register is 0, `PHASE` is `IDLE` and `STATUS` is `0x00000000`. -/
def Obligations.ResetStateIsZero : Prop :=
  State.reset.phase = .idle ∧ State.reset.k = Vector.replicate 64 0 ∧ State.reset.kv = false ∧
  State.reset.chain = Vector.replicate 16 0 ∧ State.reset.res = Vector.replicate 16 0 ∧ State.reset.rlen = 0 ∧
  State.reset.crem = 0 ∧ State.reset.hash.h = Vector.replicate 8 0 ∧ State.reset.hash.nbytes = 0 ∧
  State.reset.hash.buf = Vector.replicate 64 0 ∧ State.reset.kdf.acc = Vector.replicate 512 0 ∧
  State.reset.kdf.work = Vector.replicate 1536 0 ∧ State.reset.kdf.rs = 0 ∧ State.reset.kdf.pos = 0 ∧
  State.reset.err = 0 ∧ State.reset.av = false ∧ State.reset.aok = false ∧ status State.reset = 0x00000000

/-- R240: NOP changes nothing and emits nothing, in every phase. -/
def Obligations.NopChangesNothing : Prop := ∀ s : State, exec (.nop []) s = .next s

/-- R241: ZEROIZE gives the reset state in every phase; what is on the ports stays. -/
def Obligations.ZeroizeGivesTheResetState : Prop :=
  ∀ s : State, exec (.zeroize []) s =
    .next { phase := .idle, k := Vector.replicate 64 0, kv := false, chain := Vector.replicate 16 0,
            res := Vector.replicate 16 0, rlen := 0, crem := 0,
            hash := { h := Vector.replicate 8 0, nbytes := 0, buf := Vector.replicate 64 0 },
            kdf := { acc := Vector.replicate 512 0, work := Vector.replicate 1536 0, rs := 0, pos := 0 },
            err := 0, av := false, aok := false, cmd := s.cmd, din := s.din, dout := s.dout }

/-- R242: ABORT zeroes every operation's registers, keeps `K`, `KV` and `ERR`, and emits nothing. -/
def Obligations.AbortKeepsOnlyTheKey : Prop :=
  ∀ s : State, s.phase ≠ .fault → exec (.abort []) s =
    .next { s with
      phase := .idle, chain := Vector.replicate 16 0, res := Vector.replicate 16 0, rlen := 0, crem := 0,
      hash := { h := Vector.replicate 8 0, nbytes := 0, buf := Vector.replicate 64 0 },
      kdf := { acc := Vector.replicate 512 0, work := Vector.replicate 1536 0, rs := 0, pos := 0 },
      av := false, aok := false }

/-- R243, R36, R21: RD_STATUS emits four bytes, the big-endian status word, and changes no register. -/
def Obligations.RdStatusEmitsTheStatusWord : Prop :=
  ∀ s : State, ∃ out : List Byte, out.length = 4 ∧
    beValue out =
      (match s.phase with
        | .idle => 0 | .kdfAbs => 1 | .kdfRdy => 2 | .enc => 3 | .dec => 4 | .hash => 5 | .fault => 7)
      + 8 * s.kv.toNat + 16 * s.av.toNat + 32 * s.aok.toNat + 256 * s.err.toNat ∧
    exec (.rdStatus []) s = .next { s with dout := s.dout ++ out }

/-! ### Key derivation and key schedule -/

/-- R131: KDF_INIT zeroes the whole KDF state and keeps everything else, the key included. -/
def Obligations.KdfInitZeroesTheKdf : Prop :=
  ∀ s : State, s.phase ∈ [Phase.idle, .kdfAbs, .kdfRdy] → exec (.kdfInit []) s =
    .next { s with
      phase := .kdfAbs
      kdf := { acc := Vector.replicate 512 0, work := Vector.replicate 1536 0, rs := 0, pos := 0 } }

/-- R132: what one absorbed byte writes. `w` is `WORK` before the test of `POS`: `x` at `POS` and `POS+512`, `x` XOR the OLD
`ACC[POS]` at `POS+1024`; `ACC[POS]` is assigned `TSUB[x xor RS]`, which is the new `RS`; at `POS = 511` a mixing pass
runs and `POS` returns to 0. -/
def Obligations.AbsorbedByteWrites : Prop :=
  ∀ (s : State) (x : Byte), s.phase = .kdfAbs →
    ∃ (t : State) (w : Vector Byte 1536), exec (.kdfAbsorb [x]) s = .next t ∧ t = { s with kdf := t.kdf } ∧
      (∀ i (h : i < 1536), w[i] =
        if i = s.kdf.pos.val ∨ i = s.kdf.pos.val + 512 then x
        else if i = s.kdf.pos.val + 1024 then x ^^^ s.kdf.acc[s.kdf.pos] else s.kdf.work[i]) ∧
      t.kdf.rs = Config.cfg.tsub (x ^^^ s.kdf.rs) ∧
      (∀ i (h : i < 512), t.kdf.acc[i] = if i = s.kdf.pos.val then t.kdf.rs else s.kdf.acc[i]) ∧
      (s.kdf.pos.val < 511 → t.kdf.work = w ∧ t.kdf.pos.val = s.kdf.pos.val + 1) ∧
      (s.kdf.pos.val = 511 → t.kdf.work = kdfMix Config.cfg w ∧ t.kdf.pos = 0)

/-- KDF_ABSORB completes on every payload, writes the KDF state alone, does nothing on the empty payload, and gives the same
state however the passphrase is cut (`20_memory.md` section 3, which marks chunking invariance as derived). -/
def Obligations.KdfAbsorbIgnoresChunkBoundaries : Prop :=
  ∀ s : State, s.phase = .kdfAbs →
    exec (.kdfAbsorb []) s = .next s ∧
    ∀ p q : List Byte, ∃ t, exec (.kdfAbsorb p) s = .next t ∧ t = { s with kdf := t.kdf } ∧
      exec (.kdfAbsorb q) t = exec (.kdfAbsorb (p ++ q)) s

/-- R133: the mixing pass is 514 rounds over the 1536 bytes in ascending order, each byte XORed with `TSUB` of the new value
of the byte before it; `running_mix` starts at 0 and takes `+ round` once per round. -/
def Obligations.MixingPassRecurrence : Prop :=
  ∀ (c : Cfg) (work : Vector Byte 1536), ∃ (w : Nat → Vector Byte 1536) (m : Nat → Byte),
    w 0 = work ∧ m 0 = 0 ∧
    (∀ round < 514,
      (w (round + 1))[0] = (w round)[0] ^^^ c.tsub (m round) ∧
      (∀ b (h : b + 1 < 1536), (w (round + 1))[b + 1] = (w round)[b + 1] ^^^ c.tsub ((w (round + 1))[b])) ∧
      m (round + 1) = (w (round + 1))[1535] + BitVec.ofNat 8 round) ∧
    kdfMix c work = w 514

/-- KDF_FINAL, whole (`41_kdf.md` section 3, KDF_FINAL, and section 4 (d), (e), which the spec derives): the padding
completes `ACC` to an array `a` chained through `TSUB`, and the second pass absorbs `a`, so that `WORK` is the mixing
of `a || a || 0` and `ACC` is chained once more over `a`. -/
def Obligations.KdfFinalResult : Prop :=
  ∀ s : State, s.phase = .kdfAbs →
    ∃ (a acc : Vector Byte 512) (w : Vector Byte 1536),
      (∀ i (h : i < 512), i < s.kdf.pos.val → a[i] = s.kdf.acc[i]) ∧
      a[s.kdf.pos] = Config.cfg.tsub (BitVec.ofNat 8 (512 - s.kdf.pos.val) ^^^ s.kdf.rs) ∧
      (∀ i (h : i + 1 < 512), s.kdf.pos.val ≤ i →
        a[i + 1] = Config.cfg.tsub (BitVec.ofNat 8 (512 - s.kdf.pos.val) ^^^ a[i])) ∧
      acc[0] = Config.cfg.tsub (a[0] ^^^ a[511]) ∧
      (∀ i (h : i + 1 < 512), acc[i + 1] = Config.cfg.tsub (a[i + 1] ^^^ acc[i])) ∧
      (∀ i (h : i < 512), w[i] = a[i] ∧ w[i + 512] = a[i] ∧ w[i + 1024] = 0) ∧
      exec (.kdfFinal []) s = .next { s with
        phase := .kdfRdy
        kdf := { acc := acc, work := kdfMix Config.cfg w, rs := acc[511], pos := 0 } }

/-- R136: KM_READ emits `WORK[0..511]` and changes nothing. -/
def Obligations.KmReadEmitsKeyMaterial : Prop :=
  ∀ s : State, s.phase = .kdfRdy →
    ∃ out : List Byte, out.length = 512 ∧ (∀ i (h : i < 512), out.getD i 0 = s.kdf.work[i]) ∧
      exec (.kmRead []) s = .next { s with dout := s.dout ++ out }

/-- Between 512-byte blocks only `RS` carries what was absorbed before: two engines at a block boundary with equal `RS` derive
the same key from the same further bytes (`41_kdf.md` section 4 (c), which the spec derives). -/
def Obligations.OnlyTheRunningScalarSurvivesABlock : Prop :=
  ∀ (s1 s2 : State) (p : List Byte), s1.phase = .kdfAbs → s2.phase = .kdfAbs →
    s1.kdf.pos = 0 → s2.kdf.pos = 0 → s1.kdf.rs = s2.kdf.rs →
    ∃ t1 t2, runCommands [.kdfAbsorb p, .kdfFinal [], .ksDerive []] s1 = .next t1 ∧
      runCommands [.kdfAbsorb p, .kdfFinal [], .ksDerive []] s2 = .next t2 ∧ t1.k = t2.k

/-- R150, R152: KS_LOAD cuts its payload into 64 big-endian words, sets `KV`, and keeps everything else. -/
def Obligations.KsLoadWritesTheSchedule : Prop :=
  ∀ (s : State) (p : List Byte), s.phase = .idle → p.length = 512 →
    ∃ k : Vector Word64 64, (∀ i (h : i < 64), k[i].toNat = beValue ((p.drop (8 * i)).take 8)) ∧
      exec (.ksLoad p) s = .next { s with k := k, kv := true }

/-- R150, R151: KS_DERIVE cuts `WORK[0..511]` into 64 big-endian words, sets `KV`, wipes the KDF and goes to `IDLE`. -/
def Obligations.KsDeriveConsumesKeyMaterial : Prop :=
  ∀ s : State, s.phase = .kdfRdy →
    ∃ k : Vector Word64 64, (∀ i (h : i < 64), k[i].toNat = beValue ((s.kdf.work.toList.drop (8 * i)).take 8)) ∧
      exec (.ksDerive []) s = .next { s with
        phase := .idle, k := k, kv := true
        kdf := { acc := Vector.replicate 512 0, work := Vector.replicate 1536 0, rs := 0, pos := 0 } }

/-! ### Block cipher -/

/-- R120 with the derived bijectivity of `40_substitution_tables.md` section 1: `T[i]` works on the nibbles through
`PERM4[2i+1]` and `PERM4[2i]`, and is a bijection because they are. -/
def Obligations.SubstitutionTablesAreBijective : Prop :=
  ∀ (c : Cfg) (i : Fin 8), Function.Bijective (sbox c i) ∧
    ∀ v : Byte, (sbox c i v).toNat =
      16 * (c.perm4 ⟨2 * i.val + 1, by omega⟩ (v.extractLsb' 4 4)).toNat
        + (c.perm4 ⟨2 * i.val, by omega⟩ (v.extractLsb' 0 4)).toNat

/-- R160 (with R120): lane `n` of the argument goes through table `[4,5,6,7,0,1,2,3][n]`, stays in its lane, and the word is
rotated left by 11. -/
def Obligations.RoundFunctionSubstitutesAndRotates : Prop :=
  ∀ (c : Cfg) (x : Word64), ∃ w : Word64, roundF c x = w.rotateLeft 11 ∧
    ∀ n : Fin 8, ∀ tbl : Fin 8, tbl.val = (if n.val < 4 then n.val + 4 else n.val - 4) →
      w.extractLsb' (8 * n.val + 4) 4 = c.perm4 ⟨2 * tbl.val + 1, by omega⟩ (x.extractLsb' (8 * n.val + 4) 4) ∧
      w.extractLsb' (8 * n.val) 4 = c.perm4 ⟨2 * tbl.val, by omega⟩ (x.extractLsb' (8 * n.val) 4)

/-- Since every `T[i]` is a bijection, so is the round function (`43_block_cipher.md` section 1 (d), which the spec
derives). -/
def Obligations.RoundFunctionIsBijective : Prop := ∀ c : Cfg, Function.Bijective (roundF c)

/-- R164, R167: BLK_ENC emits the 32 iterations with `K[0..63]` in order, halves swapped, and changes no register. -/
def Obligations.BlkEncResult : Prop :=
  ∀ (s : State) (p : List Byte), s.phase = .idle → s.kv = true → p.length = 16 →
    ∃ (a b : Nat → Word64) (out : List Byte),
      (a 0).toNat = beValue (p.take 8) ∧ (b 0).toNat = beValue (p.drop 8) ∧
      (∀ r (h : r < 32),
        b (r + 1) = b r ^^^ roundF Config.cfg (a r + s.k[2 * r]) ∧
        a (r + 1) = a r ^^^ roundF Config.cfg (b (r + 1) + s.k[2 * r + 1])) ∧
      out.length = 16 ∧ beValue (out.take 8) = (b 32).toNat ∧ beValue (out.drop 8) = (a 32).toNat ∧
      exec (.blkEnc p) s = .next { s with dout := s.dout ++ out }

/-- R165, R168: BLK_DEC is the same loop with the subkeys from `K[63]` down. -/
def Obligations.BlkDecResult : Prop :=
  ∀ (s : State) (p : List Byte), s.phase = .idle → s.kv = true → p.length = 16 →
    ∃ (a b : Nat → Word64) (out : List Byte),
      (a 0).toNat = beValue (p.take 8) ∧ (b 0).toNat = beValue (p.drop 8) ∧
      (∀ r (h : r < 32),
        b (r + 1) = b r ^^^ roundF Config.cfg (a r + s.k[63 - 2 * r]) ∧
        a (r + 1) = a r ^^^ roundF Config.cfg (b (r + 1) + s.k[62 - 2 * r])) ∧
      out.length = 16 ∧ beValue (out.take 8) = (b 32).toNat ∧ beValue (out.drop 8) = (a 32).toNat ∧
      exec (.blkDec p) s = .next { s with dout := s.dout ++ out }

/-- The source's correctness invariant in both directions, for every configuration and schedule (`43_block_cipher.md`
section 3, the inverse property, which the spec derives from its algorithms). -/
def Obligations.BlockCipherInverts : Prop :=
  ∀ (c : Cfg) (k : Vector Word64 64) (blk : Block),
    blockDecrypt c k (blockEncrypt c k blk) = blk ∧ blockEncrypt c k (blockDecrypt c k blk) = blk

/-! ### Integrity hash -/

/-- R187, R181, R185: HASH_INIT loads the SHA-256 initial value. -/
def Obligations.HashInitLoadsTheInitialValue : Prop :=
  ∀ s : State, s.phase = .idle → exec (.hashInit []) s = .next { s with
    phase := .hash
    hash :=
      { h := #v[0x6a09e667, 0xbb67ae85, 0x3c6ef372, 0xa54ff53a, 0x510e527f, 0x9b05688c, 0x1f83d9ab, 0x5be0cd19]
        nbytes := 0
        buf := Vector.replicate 64 0 } }

/-- R183: one byte fed to the hash goes to `BUF[NBYTES mod 64]`, and the block is compressed when it is complete. -/
def Obligations.HashedByteWrites : Prop :=
  ∀ (s : State) (x : Byte), s.phase = .hash → s.hash.nbytes.toNat + 1 < 2 ^ 61 →
    ∃ t, exec (.hashUpdate [x]) s = .next t ∧ t = { s with hash := t.hash } ∧
      t.hash.nbytes.toNat = s.hash.nbytes.toNat + 1 ∧
      (∀ i (h : i < 64), t.hash.buf[i] = if i = s.hash.nbytes.toNat % 64 then x else s.hash.buf[i]) ∧
      (s.hash.nbytes.toNat % 64 = 63 → t.hash.h = shaCompress s.hash.h t.hash.buf) ∧
      (s.hash.nbytes.toNat % 64 ≠ 63 → t.hash.h = s.hash.h)

/-- HASH_UPDATE completes below the length bound, writes the hash state alone, does nothing on the empty payload, and gives
the same state however the message is cut (`20_memory.md` section 3: derived); at the bound it is refused
(`44_integrity_hash.md` section 2; assumption log 6). -/
def Obligations.HashUpdateIgnoresChunkBoundaries : Prop :=
  ∀ (s : State) (p q : List Byte), s.phase = .hash →
    (s.hash.nbytes.toNat + p.length < 2 ^ 61 →
      ∃ t, exec (.hashUpdate p) s = .next t ∧ t = { s with hash := t.hash } ∧
        t.hash.nbytes.toNat = s.hash.nbytes.toNat + p.length ∧ (p = [] → t = s) ∧
        exec (.hashUpdate q) t = exec (.hashUpdate (p ++ q)) s) ∧
    (2 ^ 61 ≤ s.hash.nbytes.toNat + p.length → exec (.hashUpdate p) s = .refused .hashTooLong)

/-- R182: the compression function by its recurrences, with the rotations of the library. -/
def Obligations.CompressionRecurrence : Prop :=
  ∀ (h : Vector Word32 8) (buf : Vector Byte 64), ∃ (w : Nat → Word32) (v : Nat → Working),
    (∀ t < 16, (w t).toNat = beValue ((buf.toList.drop (4 * t)).take 4)) ∧
    (∀ t, 16 ≤ t → t < 64 →
      w t = ((w (t - 2)).rotateRight 17 ^^^ (w (t - 2)).rotateRight 19 ^^^ (w (t - 2)) >>> 10) + w (t - 7)
        + ((w (t - 15)).rotateRight 7 ^^^ (w (t - 15)).rotateRight 18 ^^^ (w (t - 15)) >>> 3) + w (t - 16)) ∧
    v 0 = { a := h[0], b := h[1], c := h[2], d := h[3], e := h[4], f := h[5], g := h[6], h := h[7] } ∧
    (∀ t (ht : t < 64),
      ∃ t1 t2 : Word32,
        t1 = (v t).h + ((v t).e.rotateRight 6 ^^^ (v t).e.rotateRight 11 ^^^ (v t).e.rotateRight 25)
          + (((v t).e &&& (v t).f) ^^^ (~~~(v t).e &&& (v t).g)) + shaK[t] + w t ∧
        t2 = ((v t).a.rotateRight 2 ^^^ (v t).a.rotateRight 13 ^^^ (v t).a.rotateRight 22)
          + (((v t).a &&& (v t).b) ^^^ ((v t).a &&& (v t).c) ^^^ ((v t).b &&& (v t).c)) ∧
        v (t + 1) = { a := t1 + t2, b := (v t).a, c := (v t).b, d := (v t).c,
                      e := (v t).d + t1, f := (v t).e, g := (v t).f, h := (v t).g }) ∧
    shaCompress h buf = #v[h[0] + (v 64).a, h[1] + (v 64).b, h[2] + (v 64).c, h[3] + (v 64).d,
      h[4] + (v 64).e, h[5] + (v 64).f, h[6] + (v 64).g, h[7] + (v 64).h]

/-- R184, R189: HASH_FINAL feeds `0x80`, `z < 64` zero bytes up to 56 modulo 64 and the 64-bit bit length, emits the eight
words big-endian, wipes the hash and goes to `IDLE`. -/
def Obligations.HashFinalResult : Prop :=
  ∀ s : State, s.phase = .hash →
    ∃ (z : Nat) (len out : List Byte), z < 64 ∧ (s.hash.nbytes.toNat + 1 + z) % 64 = 56 ∧
      len.length = 8 ∧ beValue len = 8 * s.hash.nbytes.toNat % 2 ^ 64 ∧
      out.length = 32 ∧
      (∀ i (h : i < 8), beValue ((out.drop (4 * i)).take 4) =
        (hashBytes s.hash ([0x80] ++ List.replicate z 0 ++ len)).h[i].toNat) ∧
      exec (.hashFinal []) s = .next { s with
        phase := .idle
        hash := { h := Vector.replicate 8 0, nbytes := 0, buf := Vector.replicate 64 0 }
        dout := s.dout ++ out }

/-- The incremental hash is the Merkle-Damgard hash: for a message below `2^61` bytes in any pieces, what HASH_FINAL emits is
the compression folded over the 64-byte blocks of the padded message (`44_integrity_hash.md` sections 1 and 2). -/
def Obligations.IncrementalHashIsMerkleDamgard : Prop :=
  ∀ (s : State) (ms : List (List Byte)), s.phase = .idle → ms.flatten.length < 2 ^ 61 →
    ∃ (t : State) (z : Nat) (padded : List Byte), z < 64 ∧ (ms.flatten.length + 1 + z) % 64 = 56 ∧
      padded = ms.flatten ++ [0x80] ++ List.replicate z 0
        ++ (be64inv (BitVec.ofNat 64 (8 * ms.flatten.length))).toList ∧
      runCommands (.hashInit [] :: (ms.map .hashUpdate ++ [.hashFinal []])) s = .next t ∧
      t = { s with hash := t.hash, dout := t.dout } ∧
      t.dout = s.dout ++
        ((((List.range (padded.length / 64)).map fun i => bytesAt 64 (64 * i) padded).foldl shaCompress
          shaH0).toList.flatMap fun w => (be32inv w).toList)

/-! ### Chained mode: encryption -/

/-- R200: ENC_START emits the IV, loads it into `CHAIN`, empties the residual, starts the hash without it and clears `AV`,
`AOK`. -/
def Obligations.EncStartResult : Prop :=
  ∀ (s : State) (p : List Byte), s.phase = .idle → s.kv = true → p.length = 16 →
    exec (.encStart p) s = .next { s with
      phase := .enc, chain := bytesAt 16 0 p, res := Vector.replicate 16 0, rlen := 0
      hash :=
        { h := #v[0x6a09e667, 0xbb67ae85, 0x3c6ef372, 0xa54ff53a, 0x510e527f, 0x9b05688c, 0x1f83d9ab, 0x5be0cd19]
          nbytes := 0
          buf := Vector.replicate 64 0 }
      av := false, aok := false, dout := s.dout ++ p }

/-- R202, R201: ENC_DATA encrypts every complete block of residual and payload, each XORed with the ciphertext before it,
emits and hashes the ciphertext, and keeps the rest. `c` lists the chain values, `c 0` the old `CHAIN`. -/
def Obligations.EncDataResult : Prop :=
  ∀ (s : State) (p : List Byte), s.phase = .enc →
    s.hash.nbytes.toNat + 16 * ((s.rlen.val + p.length) / 16) < 2 ^ 61 →
    ∃ (c : Nat → Block) (buf out : List Byte) (nb : Nat),
      buf = s.res.toList.take s.rlen.val ++ p ∧ nb = (s.rlen.val + p.length) / 16 ∧ c 0 = s.chain ∧
      (∀ i < nb, c (i + 1) = blockEncrypt Config.cfg s.k (xorBytes (bytesAt 16 (16 * i) buf) (c i))) ∧
      out = (List.range nb).flatMap (fun i => (c (i + 1)).toList) ∧
      exec (.encData p) s = .next { s with
        chain := c nb, hash := hashBytes s.hash out, dout := s.dout ++ out
        res := bytesAt 16 (16 * nb) buf, rlen := Fin.ofNat 16 (s.rlen.val + p.length) }

/-- ENC_DATA gives the same state and output however the plaintext is cut, and does nothing on the empty payload when the
residual is in its normal form (`20_memory.md` section 3: derived). -/
def Obligations.EncDataIgnoresChunkBoundaries : Prop :=
  ∀ (s : State) (p q : List Byte), s.phase = .enc →
    s.hash.nbytes.toNat + 16 * ((s.rlen.val + p.length) / 16) < 2 ^ 61 →
    ∃ t, exec (.encData p) s = .next t ∧ exec (.encData q) t = exec (.encData (p ++ q)) s ∧
      (p = [] → (∀ i : Fin 16, s.rlen.val ≤ i.val → s.res[i] = 0) → t = s)

/-- R203, R204: ENC_FINAL encrypts exactly one block, the residual filled up with `16 - RLEN` bytes of that value, emits it and
then the digest of all ciphertext, and wipes the stream. -/
def Obligations.EncFinalResult : Prop :=
  ∀ s : State, s.phase = .enc → s.hash.nbytes.toNat + 16 < 2 ^ 61 →
    ∃ pad c : Block,
      (∀ i (h : i < 16), pad[i] = if i < s.rlen.val then s.res[i] else BitVec.ofNat 8 (16 - s.rlen.val)) ∧
      c = blockEncrypt Config.cfg s.k (xorBytes pad s.chain) ∧
      exec (.encFinal []) s = .next { s with
        phase := .idle, chain := Vector.replicate 16 0, res := Vector.replicate 16 0, rlen := 0
        hash := { h := Vector.replicate 8 0, nbytes := 0, buf := Vector.replicate 64 0 }
        dout := s.dout ++ c.toList ++ (hashDigest (hashBytes s.hash c.toList)).toList }

/-! ### Chained mode: decryption -/

/-- R206: DEC_START with `L = BE64(payload[0..7])`: malformed unless `L - 48` is a positive multiple of 16 (`L = 48`
included), otherwise the decryption starts with `CREM = L - 48`. -/
def Obligations.DecStartResult : Prop :=
  ∀ (s : State) (p : List Byte), s.phase = .idle → s.kv = true → p.length = 24 →
    (beValue (p.take 8) < 64 ∨ beValue (p.take 8) % 16 ≠ 0 →
      exec (.decStart p) s = .next (faulted 0x01 [] s)) ∧
    (64 ≤ beValue (p.take 8) → beValue (p.take 8) % 16 = 0 →
      exec (.decStart p) s = .next { s with
        phase := .dec, chain := bytesAt 16 8 p, res := Vector.replicate 16 0, rlen := 0
        crem := BitVec.ofNat 64 (beValue (p.take 8) - 48)
        hash :=
          { h := #v[0x6a09e667, 0xbb67ae85, 0x3c6ef372, 0xa54ff53a, 0x510e527f, 0x9b05688c, 0x1f83d9ab, 0x5be0cd19]
            nbytes := 0
            buf := Vector.replicate 64 0 }
        av := false, aok := false })

/-- R208, R207, R209: DEC_DATA. `blk i` are the complete ciphertext blocks and `q i` their plaintext. Too long a payload
overruns; a block that is not the container's last is emitted whole; the last one loses its padding, or, when its
padding is invalid, the command faults with the earlier blocks emitted. -/
def Obligations.DecDataResult : Prop :=
  ∀ (s : State) (p : List Byte), s.phase = .dec →
    s.hash.nbytes.toNat + 16 * ((s.rlen.val + p.length) / 16) < 2 ^ 61 →
    (s.crem.toNat < p.length → exec (.decData p) s = .next (faulted 0x14 [] s)) ∧
    (p.length ≤ s.crem.toNat →
      ∃ (blk q : Nat → Block) (buf : List Byte) (nb : Nat) (t : State),
        buf = s.res.toList.take s.rlen.val ++ p ∧ nb = (s.rlen.val + p.length) / 16 ∧
        (∀ i, blk i = bytesAt 16 (16 * i) buf) ∧
        (∀ i, q i = xorBytes (blockDecrypt Config.cfg s.k (blk i)) (if i = 0 then s.chain else blk (i - 1))) ∧
        t = { s with
          crem := s.crem - BitVec.ofNat 64 p.length
          chain := if nb = 0 then s.chain else blk (nb - 1)
          hash := hashBytes s.hash (buf.take (16 * nb))
          res := bytesAt 16 (16 * nb) buf, rlen := Fin.ofNat 16 (s.rlen.val + p.length) } ∧
        (p.length < s.crem.toNat ∨ nb = 0 →
          exec (.decData p) s =
            .next { t with dout := s.dout ++ (List.range nb).flatMap fun i => (q i).toList }) ∧
        (p.length = s.crem.toNat → nb ≠ 0 → ∀ pad : Byte, pad = (q (nb - 1))[15] →
          ((1 ≤ pad.toNat ∧ pad.toNat ≤ 16 ∧ ∀ j (h : j < 16), 16 - pad.toNat ≤ j → (q (nb - 1))[j] = pad) →
            exec (.decData p) s =
              .next { t with
                dout := s.dout ++ ((List.range (nb - 1)).flatMap fun i => (q i).toList)
                  ++ (q (nb - 1)).toList.take (16 - pad.toNat) }) ∧
          (¬ (1 ≤ pad.toNat ∧ pad.toNat ≤ 16 ∧ ∀ j (h : j < 16), 16 - pad.toNat ≤ j → (q (nb - 1))[j] = pad) →
            exec (.decData p) s =
              .next (faulted 0x02 ((List.range (nb - 1)).flatMap fun i => (q i).toList) s))))

/-- DEC_DATA gives the same state and output however the announced ciphertext is cut, the padding fault included
(`20_memory.md` section 3: derived). The premise on `CREM` and `RLEN` is the invariant of `10_state.md` section 9 (i). -/
def Obligations.DecDataIgnoresChunkBoundaries : Prop :=
  ∀ (s : State) (p q : List Byte), s.phase = .dec → (s.crem.toNat + s.rlen.val) % 16 = 0 →
    p.length + q.length ≤ s.crem.toNat → q ≠ [] →
    s.hash.nbytes.toNat + 16 * ((s.rlen.val + p.length) / 16) < 2 ^ 61 →
    ∃ t, exec (.decData p) s = .next t ∧ t.phase = .dec ∧ exec (.decData q) t = exec (.decData (p ++ q)) s

/-- R212, R213, R252: DEC_FINAL faults while ciphertext is missing; otherwise it reports the comparison of all 32 tag bytes in
`AV`, `AOK`, never as a fault, and wipes the stream but not the key. -/
def Obligations.DecFinalResult : Prop :=
  ∀ (s : State) (p : List Byte), s.phase = .dec → p.length = 32 →
    (s.crem ≠ 0 → exec (.decFinal p) s = .next (faulted 0x15 [] s)) ∧
    (s.crem = 0 → exec (.decFinal p) s = .next { s with
      phase := .idle, chain := Vector.replicate 16 0, res := Vector.replicate 16 0, rlen := 0, crem := 0
      hash := { h := Vector.replicate 8 0, nbytes := 0, buf := Vector.replicate 64 0 }
      av := true, aok := decide ((hashDigest s.hash).toList = p) })

/-- `CBC.unpad` gives back what `CBC.pad` filled up, the identity `unpad(pad(r, n)) = valid(r)` that R215 uses and the spec
derives; and it accepts exactly the blocks that end in `p` bytes of value `p` in `1..16` and drops those (R209). -/
def Obligations.UnpadUndoesPad : Prop :=
  (∀ r : List Byte, r.length ≤ 15 → unpad (padBlock r) = some r) ∧
  ∀ (q : Block) (t : List Byte), unpad q = some t ↔
    ∃ n, 1 ≤ n ∧ n ≤ 16 ∧ q.toList = t ++ List.replicate n (BitVec.ofNat 8 n)

/-- The round trip (`45_cbc_pipeline.md` section 3, which the spec derives): for every key, IV and plaintext, cut in any way,
decrypting the container that was emitted, its ciphertext cut in any way, emits the plaintext and ends with `AV = AOK = 1`. -/
def Obligations.DecryptionUndoesEncryption : Prop :=
  ∀ (s : State) (iv : List Byte) (pt : List (List Byte)), s.phase = .idle → s.kv = true → iv.length = 16 →
    pt.flatten.length + 16 < 2 ^ 61 →
    ∃ (t : State) (cont : List Byte), runCommands (encryptStream iv pt) s = .next t ∧ t.dout = s.dout ++ cont ∧
      t.phase = .idle ∧ t.k = s.k ∧ t.kv = true ∧
      cont.length = 48 + 16 * (pt.flatten.length / 16 + 1) ∧ containerIv cont = iv ∧
      ∀ ct : List (List Byte), ct.flatten = containerCiphertext cont →
        ∃ u, runCommands (decryptStream cont.length (containerIv cont) ct (containerTag cont)) t = .next u ∧
          u.phase = .idle ∧ u.dout = t.dout ++ pt.flatten ∧ u.av = true ∧ u.aok = true

/-- The tag says nothing of the key or the IV: two decryptions of the same ciphertext and tag that both reach the end, under
any two keys and chain values, get the same `AOK` (`45_cbc_pipeline.md` section 3 on tamper detection, which the spec
derives). -/
def Obligations.TagVerdictIgnoresTheKey : Prop :=
  ∀ (s1 s2 t1 t2 : State) (ct : List (List Byte)) (tag : List Byte), s1.phase = .dec → s2.phase = .dec →
    s1.hash = s2.hash → s1.res = s2.res → s1.rlen = s2.rlen → s1.crem = s2.crem →
    runCommands (ct.map .decData ++ [.decFinal tag]) s1 = .next t1 →
    runCommands (ct.map .decData ++ [.decFinal tag]) s2 = .next t2 →
    t1.phase = .idle → t2.phase = .idle → t1.av = true ∧ t2.av = true ∧ t1.aok = t2.aok

/-- While a decryption lasts, hashed, held and announced bytes together stay the ciphertext length `L - 48` (`45_cbc_pipeline.md`
section 3, which the spec derives). -/
def Obligations.DecDataKeepsTheAnnouncedLength : Prop :=
  ∀ (s t : State) (p : List Byte), s.phase = .dec → exec (.decData p) s = .next t → t.phase = .dec →
    t.hash.nbytes.toNat + t.rlen.val + t.crem.toNat = s.hash.nbytes.toNat + s.rlen.val + s.crem.toNat ∧
      t.hash.nbytes.toNat = s.hash.nbytes.toNat + 16 * ((s.rlen.val + p.length) / 16)

/-! ### The invariants between commands -/

/-- The reset state satisfies the invariants of `10_state.md` section 9. -/
def Obligations.ResetSatisfiesTheInvariants : Prop := State.reset.Inv

/-- Every step keeps the invariants of `10_state.md` section 9 (which the spec derives and calls proof obligations). -/
def Obligations.StepKeepsTheInvariants : Prop :=
  ∀ s t : State, s.Inv → step s = .next t → t.Inv

/-! ### Tamper detection -/

/-- Changed ciphertext is detected (R216, which the spec derives): of every container that an encryption emits, for every key,
IV and plaintext, any other ciphertext of its length sent with its tag ends in `E_PADDING` or in `AV = 1, AOK = 0`, unless
SHA-256 collides on the two. Only the last two blocks can fault: where they are intact, under the same key, DEC_FINAL
is reached and `AOK` says whether the digests agree. The ciphertext itself, under any key and any IV, ends in
`E_PADDING` or is accepted: the tag says nothing about the key. -/
def Obligations.ChangedCiphertextIsDetected : Prop :=
  ∀ (s : State) (iv : List Byte) (pt : List (List Byte)), s.phase = .idle → s.kv = true → iv.length = 16 →
    pt.flatten.length + 16 < 2 ^ 61 →
    ∃ (t : State) (cont : List Byte), runCommands (encryptStream iv pt) s = .next t ∧ t.dout = s.dout ++ cont ∧
      DetectsTampering (containerCiphertext cont) (containerTag cont) ∧
      ∀ (d : State) (iv' : List Byte) (ct : List (List Byte)), d.phase = .idle → d.kv = true → iv'.length = 16 →
        (d.k = s.k → ct.flatten.length = (containerCiphertext cont).length → 48 ≤ ct.flatten.length →
          ct.flatten.drop (ct.flatten.length - 32) =
            (containerCiphertext cont).drop (ct.flatten.length - 32) →
          ∃ u, runCommands (decryptStream cont.length iv' ct (containerTag cont)) d = .next u ∧ u.phase = .idle ∧
            u.av = true ∧ (u.aok = true ↔ shaDigest ct.flatten = shaDigest (containerCiphertext cont))) ∧
        (ct.flatten = containerCiphertext cont →
          ∃ u, runCommands (decryptStream cont.length iv' ct (containerTag cont)) d = .next u ∧
            ((u.phase = .fault ∧ u.err = 0x02) ∨ u.Accepts))

/-- Changed tag and changed IV (R216, which the spec derives). The tag is the digest of the ciphertext alone. Decrypting the
ciphertext under the same key: any other tag gives `AOK = 0` with the plaintext intact; any IV is accepted, the
plaintext changing in its first block only, by the XOR of the two IVs, when the container has more than one block;
and for a container of one block some IV turns the valid padding invalid. -/
def Obligations.ChangedTagIsReportedChangedIvIsNot : Prop :=
  ∀ (s : State) (iv : List Byte) (pt : List (List Byte)), s.phase = .idle → s.kv = true → iv.length = 16 →
    pt.flatten.length + 16 < 2 ^ 61 →
    ∃ (t : State) (cont : List Byte), runCommands (encryptStream iv pt) s = .next t ∧ t.dout = s.dout ++ cont ∧
      containerTag cont = (shaDigest (containerCiphertext cont)).toList ∧
      ∀ (d : State) (ct : List (List Byte)), d.phase = .idle → d.kv = true → d.k = s.k →
        ct.flatten = containerCiphertext cont →
        (∀ tag : List Byte, tag.length = 32 → tag ≠ containerTag cont →
          ∃ u, runCommands (decryptStream cont.length iv ct tag) d = .next u ∧ u.phase = .idle ∧
            u.dout = d.dout ++ pt.flatten ∧ u.av = true ∧ u.aok = false) ∧
        (16 ≤ pt.flatten.length → ∀ iv' : List Byte, iv'.length = 16 →
          ∃ (u : State) (out : List Byte),
            runCommands (decryptStream cont.length iv' ct (containerTag cont)) d = .next u ∧ u.Accepts ∧
            u.dout = d.dout ++ out ∧ out.length = pt.flatten.length ∧ out.drop 16 = pt.flatten.drop 16 ∧
            ∀ i < 16, out.getD i 0 = pt.flatten.getD i 0 ^^^ iv.getD i 0 ^^^ iv'.getD i 0) ∧
        (pt.flatten.length < 16 →
          ∃ (u : State) (iv' : List Byte), iv'.length = 16 ∧
            runCommands (decryptStream cont.length iv' ct (containerTag cont)) d = .next u ∧ u.phase = .fault ∧
            u.err = 0x02)
end

