-- ==== Sys2Proof/Laws/State.lean ====
section
/-! SUPPORT. One lemma per field for every named register write: what it writes, and that it leaves the others alone. Each
is true by `rfl` and a simp lemma, so that no proof unfolds a record update. -/

namespace Sys2Proof.Machine

/-! `emit`: `emit` appends to `DOUT` and touches nothing else (R62). -/

@[simp] theorem emit_phase (bs : List Byte) (s : State) : (emit bs s).phase = s.phase := rfl
@[simp] theorem emit_k (bs : List Byte) (s : State) : (emit bs s).k = s.k := rfl
@[simp] theorem emit_kv (bs : List Byte) (s : State) : (emit bs s).kv = s.kv := rfl
@[simp] theorem emit_chain (bs : List Byte) (s : State) : (emit bs s).chain = s.chain := rfl
@[simp] theorem emit_res (bs : List Byte) (s : State) : (emit bs s).res = s.res := rfl
@[simp] theorem emit_rlen (bs : List Byte) (s : State) : (emit bs s).rlen = s.rlen := rfl
@[simp] theorem emit_crem (bs : List Byte) (s : State) : (emit bs s).crem = s.crem := rfl
@[simp] theorem emit_hash (bs : List Byte) (s : State) : (emit bs s).hash = s.hash := rfl
@[simp] theorem emit_kdf (bs : List Byte) (s : State) : (emit bs s).kdf = s.kdf := rfl
@[simp] theorem emit_err (bs : List Byte) (s : State) : (emit bs s).err = s.err := rfl
@[simp] theorem emit_av (bs : List Byte) (s : State) : (emit bs s).av = s.av := rfl
@[simp] theorem emit_aok (bs : List Byte) (s : State) : (emit bs s).aok = s.aok := rfl
@[simp] theorem emit_cmd (bs : List Byte) (s : State) : (emit bs s).cmd = s.cmd := rfl
@[simp] theorem emit_din (bs : List Byte) (s : State) : (emit bs s).din = s.din := rfl
@[simp] theorem emit_dout (bs : List Byte) (s : State) : (emit bs s).dout = s.dout ++ bs := rfl

/-! `setPhase`: a control transfer writes `PHASE` alone (R16). -/

@[simp] theorem setPhase_phase (p : Phase) (s : State) : (setPhase p s).phase = p := rfl
@[simp] theorem setPhase_k (p : Phase) (s : State) : (setPhase p s).k = s.k := rfl
@[simp] theorem setPhase_kv (p : Phase) (s : State) : (setPhase p s).kv = s.kv := rfl
@[simp] theorem setPhase_chain (p : Phase) (s : State) : (setPhase p s).chain = s.chain := rfl
@[simp] theorem setPhase_res (p : Phase) (s : State) : (setPhase p s).res = s.res := rfl
@[simp] theorem setPhase_rlen (p : Phase) (s : State) : (setPhase p s).rlen = s.rlen := rfl
@[simp] theorem setPhase_crem (p : Phase) (s : State) : (setPhase p s).crem = s.crem := rfl
@[simp] theorem setPhase_hash (p : Phase) (s : State) : (setPhase p s).hash = s.hash := rfl
@[simp] theorem setPhase_kdf (p : Phase) (s : State) : (setPhase p s).kdf = s.kdf := rfl
@[simp] theorem setPhase_err (p : Phase) (s : State) : (setPhase p s).err = s.err := rfl
@[simp] theorem setPhase_av (p : Phase) (s : State) : (setPhase p s).av = s.av := rfl
@[simp] theorem setPhase_aok (p : Phase) (s : State) : (setPhase p s).aok = s.aok := rfl
@[simp] theorem setPhase_cmd (p : Phase) (s : State) : (setPhase p s).cmd = s.cmd := rfl
@[simp] theorem setPhase_din (p : Phase) (s : State) : (setPhase p s).din = s.din := rfl
@[simp] theorem setPhase_dout (p : Phase) (s : State) : (setPhase p s).dout = s.dout := rfl

/-! `loadKey`: a key load writes `K` and `KV` (R150). -/

@[simp] theorem loadKey_phase (k : Vector Word64 64) (s : State) : (loadKey k s).phase = s.phase := rfl
@[simp] theorem loadKey_k (k : Vector Word64 64) (s : State) : (loadKey k s).k = k := rfl
@[simp] theorem loadKey_kv (k : Vector Word64 64) (s : State) : (loadKey k s).kv = true := rfl
@[simp] theorem loadKey_chain (k : Vector Word64 64) (s : State) : (loadKey k s).chain = s.chain := rfl
@[simp] theorem loadKey_res (k : Vector Word64 64) (s : State) : (loadKey k s).res = s.res := rfl
@[simp] theorem loadKey_rlen (k : Vector Word64 64) (s : State) : (loadKey k s).rlen = s.rlen := rfl
@[simp] theorem loadKey_crem (k : Vector Word64 64) (s : State) : (loadKey k s).crem = s.crem := rfl
@[simp] theorem loadKey_hash (k : Vector Word64 64) (s : State) : (loadKey k s).hash = s.hash := rfl
@[simp] theorem loadKey_kdf (k : Vector Word64 64) (s : State) : (loadKey k s).kdf = s.kdf := rfl
@[simp] theorem loadKey_err (k : Vector Word64 64) (s : State) : (loadKey k s).err = s.err := rfl
@[simp] theorem loadKey_av (k : Vector Word64 64) (s : State) : (loadKey k s).av = s.av := rfl
@[simp] theorem loadKey_aok (k : Vector Word64 64) (s : State) : (loadKey k s).aok = s.aok := rfl
@[simp] theorem loadKey_cmd (k : Vector Word64 64) (s : State) : (loadKey k s).cmd = s.cmd := rfl
@[simp] theorem loadKey_din (k : Vector Word64 64) (s : State) : (loadKey k s).din = s.din := rfl
@[simp] theorem loadKey_dout (k : Vector Word64 64) (s : State) : (loadKey k s).dout = s.dout := rfl

/-! `setKdf`: the KDF registers alone. -/

@[simp] theorem setKdf_phase (kdf : KdfState) (s : State) : (setKdf kdf s).phase = s.phase := rfl
@[simp] theorem setKdf_k (kdf : KdfState) (s : State) : (setKdf kdf s).k = s.k := rfl
@[simp] theorem setKdf_kv (kdf : KdfState) (s : State) : (setKdf kdf s).kv = s.kv := rfl
@[simp] theorem setKdf_chain (kdf : KdfState) (s : State) : (setKdf kdf s).chain = s.chain := rfl
@[simp] theorem setKdf_res (kdf : KdfState) (s : State) : (setKdf kdf s).res = s.res := rfl
@[simp] theorem setKdf_rlen (kdf : KdfState) (s : State) : (setKdf kdf s).rlen = s.rlen := rfl
@[simp] theorem setKdf_crem (kdf : KdfState) (s : State) : (setKdf kdf s).crem = s.crem := rfl
@[simp] theorem setKdf_hash (kdf : KdfState) (s : State) : (setKdf kdf s).hash = s.hash := rfl
@[simp] theorem setKdf_kdf (kdf : KdfState) (s : State) : (setKdf kdf s).kdf = kdf := rfl
@[simp] theorem setKdf_err (kdf : KdfState) (s : State) : (setKdf kdf s).err = s.err := rfl
@[simp] theorem setKdf_av (kdf : KdfState) (s : State) : (setKdf kdf s).av = s.av := rfl
@[simp] theorem setKdf_aok (kdf : KdfState) (s : State) : (setKdf kdf s).aok = s.aok := rfl
@[simp] theorem setKdf_cmd (kdf : KdfState) (s : State) : (setKdf kdf s).cmd = s.cmd := rfl
@[simp] theorem setKdf_din (kdf : KdfState) (s : State) : (setKdf kdf s).din = s.din := rfl
@[simp] theorem setKdf_dout (kdf : KdfState) (s : State) : (setKdf kdf s).dout = s.dout := rfl

/-! `wipeKdf`: the KDF registers alone, to zero. -/

@[simp] theorem wipeKdf_phase (s : State) : (wipeKdf s).phase = s.phase := rfl
@[simp] theorem wipeKdf_k (s : State) : (wipeKdf s).k = s.k := rfl
@[simp] theorem wipeKdf_kv (s : State) : (wipeKdf s).kv = s.kv := rfl
@[simp] theorem wipeKdf_chain (s : State) : (wipeKdf s).chain = s.chain := rfl
@[simp] theorem wipeKdf_res (s : State) : (wipeKdf s).res = s.res := rfl
@[simp] theorem wipeKdf_rlen (s : State) : (wipeKdf s).rlen = s.rlen := rfl
@[simp] theorem wipeKdf_crem (s : State) : (wipeKdf s).crem = s.crem := rfl
@[simp] theorem wipeKdf_hash (s : State) : (wipeKdf s).hash = s.hash := rfl
@[simp] theorem wipeKdf_kdf (s : State) : (wipeKdf s).kdf = KdfState.zero := rfl
@[simp] theorem wipeKdf_err (s : State) : (wipeKdf s).err = s.err := rfl
@[simp] theorem wipeKdf_av (s : State) : (wipeKdf s).av = s.av := rfl
@[simp] theorem wipeKdf_aok (s : State) : (wipeKdf s).aok = s.aok := rfl
@[simp] theorem wipeKdf_cmd (s : State) : (wipeKdf s).cmd = s.cmd := rfl
@[simp] theorem wipeKdf_din (s : State) : (wipeKdf s).din = s.din := rfl
@[simp] theorem wipeKdf_dout (s : State) : (wipeKdf s).dout = s.dout := rfl

/-! `setHash`: the IH registers alone. -/

@[simp] theorem setHash_phase (h : HashState) (s : State) : (setHash h s).phase = s.phase := rfl
@[simp] theorem setHash_k (h : HashState) (s : State) : (setHash h s).k = s.k := rfl
@[simp] theorem setHash_kv (h : HashState) (s : State) : (setHash h s).kv = s.kv := rfl
@[simp] theorem setHash_chain (h : HashState) (s : State) : (setHash h s).chain = s.chain := rfl
@[simp] theorem setHash_res (h : HashState) (s : State) : (setHash h s).res = s.res := rfl
@[simp] theorem setHash_rlen (h : HashState) (s : State) : (setHash h s).rlen = s.rlen := rfl
@[simp] theorem setHash_crem (h : HashState) (s : State) : (setHash h s).crem = s.crem := rfl
@[simp] theorem setHash_hash (h : HashState) (s : State) : (setHash h s).hash = h := rfl
@[simp] theorem setHash_kdf (h : HashState) (s : State) : (setHash h s).kdf = s.kdf := rfl
@[simp] theorem setHash_err (h : HashState) (s : State) : (setHash h s).err = s.err := rfl
@[simp] theorem setHash_av (h : HashState) (s : State) : (setHash h s).av = s.av := rfl
@[simp] theorem setHash_aok (h : HashState) (s : State) : (setHash h s).aok = s.aok := rfl
@[simp] theorem setHash_cmd (h : HashState) (s : State) : (setHash h s).cmd = s.cmd := rfl
@[simp] theorem setHash_din (h : HashState) (s : State) : (setHash h s).din = s.din := rfl
@[simp] theorem setHash_dout (h : HashState) (s : State) : (setHash h s).dout = s.dout := rfl

/-! `wipeHash`: the IH registers alone, to zero. -/

@[simp] theorem wipeHash_phase (s : State) : (wipeHash s).phase = s.phase := rfl
@[simp] theorem wipeHash_k (s : State) : (wipeHash s).k = s.k := rfl
@[simp] theorem wipeHash_kv (s : State) : (wipeHash s).kv = s.kv := rfl
@[simp] theorem wipeHash_chain (s : State) : (wipeHash s).chain = s.chain := rfl
@[simp] theorem wipeHash_res (s : State) : (wipeHash s).res = s.res := rfl
@[simp] theorem wipeHash_rlen (s : State) : (wipeHash s).rlen = s.rlen := rfl
@[simp] theorem wipeHash_crem (s : State) : (wipeHash s).crem = s.crem := rfl
@[simp] theorem wipeHash_hash (s : State) : (wipeHash s).hash = HashState.zero := rfl
@[simp] theorem wipeHash_kdf (s : State) : (wipeHash s).kdf = s.kdf := rfl
@[simp] theorem wipeHash_err (s : State) : (wipeHash s).err = s.err := rfl
@[simp] theorem wipeHash_av (s : State) : (wipeHash s).av = s.av := rfl
@[simp] theorem wipeHash_aok (s : State) : (wipeHash s).aok = s.aok := rfl
@[simp] theorem wipeHash_cmd (s : State) : (wipeHash s).cmd = s.cmd := rfl
@[simp] theorem wipeHash_din (s : State) : (wipeHash s).din = s.din := rfl
@[simp] theorem wipeHash_dout (s : State) : (wipeHash s).dout = s.dout := rfl

/-! `setChain`: `CHAIN` alone. -/

@[simp] theorem setChain_phase (c : Block) (s : State) : (setChain c s).phase = s.phase := rfl
@[simp] theorem setChain_k (c : Block) (s : State) : (setChain c s).k = s.k := rfl
@[simp] theorem setChain_kv (c : Block) (s : State) : (setChain c s).kv = s.kv := rfl
@[simp] theorem setChain_chain (c : Block) (s : State) : (setChain c s).chain = c := rfl
@[simp] theorem setChain_res (c : Block) (s : State) : (setChain c s).res = s.res := rfl
@[simp] theorem setChain_rlen (c : Block) (s : State) : (setChain c s).rlen = s.rlen := rfl
@[simp] theorem setChain_crem (c : Block) (s : State) : (setChain c s).crem = s.crem := rfl
@[simp] theorem setChain_hash (c : Block) (s : State) : (setChain c s).hash = s.hash := rfl
@[simp] theorem setChain_kdf (c : Block) (s : State) : (setChain c s).kdf = s.kdf := rfl
@[simp] theorem setChain_err (c : Block) (s : State) : (setChain c s).err = s.err := rfl
@[simp] theorem setChain_av (c : Block) (s : State) : (setChain c s).av = s.av := rfl
@[simp] theorem setChain_aok (c : Block) (s : State) : (setChain c s).aok = s.aok := rfl
@[simp] theorem setChain_cmd (c : Block) (s : State) : (setChain c s).cmd = s.cmd := rfl
@[simp] theorem setChain_din (c : Block) (s : State) : (setChain c s).din = s.din := rfl
@[simp] theorem setChain_dout (c : Block) (s : State) : (setChain c s).dout = s.dout := rfl

/-! `setCrem`: `CREM` alone. -/

@[simp] theorem setCrem_phase (n : Word64) (s : State) : (setCrem n s).phase = s.phase := rfl
@[simp] theorem setCrem_k (n : Word64) (s : State) : (setCrem n s).k = s.k := rfl
@[simp] theorem setCrem_kv (n : Word64) (s : State) : (setCrem n s).kv = s.kv := rfl
@[simp] theorem setCrem_chain (n : Word64) (s : State) : (setCrem n s).chain = s.chain := rfl
@[simp] theorem setCrem_res (n : Word64) (s : State) : (setCrem n s).res = s.res := rfl
@[simp] theorem setCrem_rlen (n : Word64) (s : State) : (setCrem n s).rlen = s.rlen := rfl
@[simp] theorem setCrem_crem (n : Word64) (s : State) : (setCrem n s).crem = n := rfl
@[simp] theorem setCrem_hash (n : Word64) (s : State) : (setCrem n s).hash = s.hash := rfl
@[simp] theorem setCrem_kdf (n : Word64) (s : State) : (setCrem n s).kdf = s.kdf := rfl
@[simp] theorem setCrem_err (n : Word64) (s : State) : (setCrem n s).err = s.err := rfl
@[simp] theorem setCrem_av (n : Word64) (s : State) : (setCrem n s).av = s.av := rfl
@[simp] theorem setCrem_aok (n : Word64) (s : State) : (setCrem n s).aok = s.aok := rfl
@[simp] theorem setCrem_cmd (n : Word64) (s : State) : (setCrem n s).cmd = s.cmd := rfl
@[simp] theorem setCrem_din (n : Word64) (s : State) : (setCrem n s).din = s.din := rfl
@[simp] theorem setCrem_dout (n : Word64) (s : State) : (setCrem n s).dout = s.dout := rfl

/-! `setResidual`: `RES` and `RLEN` alone. -/

@[simp] theorem setResidual_phase (r : List Byte) (s : State) : (setResidual r s).phase = s.phase := rfl
@[simp] theorem setResidual_k (r : List Byte) (s : State) : (setResidual r s).k = s.k := rfl
@[simp] theorem setResidual_kv (r : List Byte) (s : State) : (setResidual r s).kv = s.kv := rfl
@[simp] theorem setResidual_chain (r : List Byte) (s : State) : (setResidual r s).chain = s.chain := rfl
@[simp] theorem setResidual_res (r : List Byte) (s : State) : (setResidual r s).res = bytesAt 16 0 r := rfl
@[simp] theorem setResidual_rlen (r : List Byte) (s : State) : (setResidual r s).rlen = Fin.ofNat 16 r.length := rfl
@[simp] theorem setResidual_crem (r : List Byte) (s : State) : (setResidual r s).crem = s.crem := rfl
@[simp] theorem setResidual_hash (r : List Byte) (s : State) : (setResidual r s).hash = s.hash := rfl
@[simp] theorem setResidual_kdf (r : List Byte) (s : State) : (setResidual r s).kdf = s.kdf := rfl
@[simp] theorem setResidual_err (r : List Byte) (s : State) : (setResidual r s).err = s.err := rfl
@[simp] theorem setResidual_av (r : List Byte) (s : State) : (setResidual r s).av = s.av := rfl
@[simp] theorem setResidual_aok (r : List Byte) (s : State) : (setResidual r s).aok = s.aok := rfl
@[simp] theorem setResidual_cmd (r : List Byte) (s : State) : (setResidual r s).cmd = s.cmd := rfl
@[simp] theorem setResidual_din (r : List Byte) (s : State) : (setResidual r s).din = s.din := rfl
@[simp] theorem setResidual_dout (r : List Byte) (s : State) : (setResidual r s).dout = s.dout := rfl

/-! `wipeChain`: `CHAIN`, `RES`, `RLEN` alone, to zero. -/

@[simp] theorem wipeChain_phase (s : State) : (wipeChain s).phase = s.phase := rfl
@[simp] theorem wipeChain_k (s : State) : (wipeChain s).k = s.k := rfl
@[simp] theorem wipeChain_kv (s : State) : (wipeChain s).kv = s.kv := rfl
@[simp] theorem wipeChain_chain (s : State) : (wipeChain s).chain = Vector.replicate 16 0 := rfl
@[simp] theorem wipeChain_res (s : State) : (wipeChain s).res = Vector.replicate 16 0 := rfl
@[simp] theorem wipeChain_rlen (s : State) : (wipeChain s).rlen = 0 := rfl
@[simp] theorem wipeChain_crem (s : State) : (wipeChain s).crem = s.crem := rfl
@[simp] theorem wipeChain_hash (s : State) : (wipeChain s).hash = s.hash := rfl
@[simp] theorem wipeChain_kdf (s : State) : (wipeChain s).kdf = s.kdf := rfl
@[simp] theorem wipeChain_err (s : State) : (wipeChain s).err = s.err := rfl
@[simp] theorem wipeChain_av (s : State) : (wipeChain s).av = s.av := rfl
@[simp] theorem wipeChain_aok (s : State) : (wipeChain s).aok = s.aok := rfl
@[simp] theorem wipeChain_cmd (s : State) : (wipeChain s).cmd = s.cmd := rfl
@[simp] theorem wipeChain_din (s : State) : (wipeChain s).din = s.din := rfl
@[simp] theorem wipeChain_dout (s : State) : (wipeChain s).dout = s.dout := rfl

/-! `clearAuth`: `AV` and `AOK` alone. -/

@[simp] theorem clearAuth_phase (s : State) : (clearAuth s).phase = s.phase := rfl
@[simp] theorem clearAuth_k (s : State) : (clearAuth s).k = s.k := rfl
@[simp] theorem clearAuth_kv (s : State) : (clearAuth s).kv = s.kv := rfl
@[simp] theorem clearAuth_chain (s : State) : (clearAuth s).chain = s.chain := rfl
@[simp] theorem clearAuth_res (s : State) : (clearAuth s).res = s.res := rfl
@[simp] theorem clearAuth_rlen (s : State) : (clearAuth s).rlen = s.rlen := rfl
@[simp] theorem clearAuth_crem (s : State) : (clearAuth s).crem = s.crem := rfl
@[simp] theorem clearAuth_hash (s : State) : (clearAuth s).hash = s.hash := rfl
@[simp] theorem clearAuth_kdf (s : State) : (clearAuth s).kdf = s.kdf := rfl
@[simp] theorem clearAuth_err (s : State) : (clearAuth s).err = s.err := rfl
@[simp] theorem clearAuth_av (s : State) : (clearAuth s).av = false := rfl
@[simp] theorem clearAuth_aok (s : State) : (clearAuth s).aok = false := rfl
@[simp] theorem clearAuth_cmd (s : State) : (clearAuth s).cmd = s.cmd := rfl
@[simp] theorem clearAuth_din (s : State) : (clearAuth s).din = s.din := rfl
@[simp] theorem clearAuth_dout (s : State) : (clearAuth s).dout = s.dout := rfl

/-! `setAuth`: `AV` and `AOK` alone. -/

@[simp] theorem setAuth_phase (ok : Bool) (s : State) : (setAuth ok s).phase = s.phase := rfl
@[simp] theorem setAuth_k (ok : Bool) (s : State) : (setAuth ok s).k = s.k := rfl
@[simp] theorem setAuth_kv (ok : Bool) (s : State) : (setAuth ok s).kv = s.kv := rfl
@[simp] theorem setAuth_chain (ok : Bool) (s : State) : (setAuth ok s).chain = s.chain := rfl
@[simp] theorem setAuth_res (ok : Bool) (s : State) : (setAuth ok s).res = s.res := rfl
@[simp] theorem setAuth_rlen (ok : Bool) (s : State) : (setAuth ok s).rlen = s.rlen := rfl
@[simp] theorem setAuth_crem (ok : Bool) (s : State) : (setAuth ok s).crem = s.crem := rfl
@[simp] theorem setAuth_hash (ok : Bool) (s : State) : (setAuth ok s).hash = s.hash := rfl
@[simp] theorem setAuth_kdf (ok : Bool) (s : State) : (setAuth ok s).kdf = s.kdf := rfl
@[simp] theorem setAuth_err (ok : Bool) (s : State) : (setAuth ok s).err = s.err := rfl
@[simp] theorem setAuth_av (ok : Bool) (s : State) : (setAuth ok s).av = true := rfl
@[simp] theorem setAuth_aok (ok : Bool) (s : State) : (setAuth ok s).aok = ok := rfl
@[simp] theorem setAuth_cmd (ok : Bool) (s : State) : (setAuth ok s).cmd = s.cmd := rfl
@[simp] theorem setAuth_din (ok : Bool) (s : State) : (setAuth ok s).din = s.din := rfl
@[simp] theorem setAuth_dout (ok : Bool) (s : State) : (setAuth ok s).dout = s.dout := rfl

/-! `toReset`: every register to its reset value, the ports kept (R51). -/

@[simp] theorem toReset_phase (s : State) : (toReset s).phase = .idle := rfl
@[simp] theorem toReset_k (s : State) : (toReset s).k = Vector.replicate 64 0 := rfl
@[simp] theorem toReset_kv (s : State) : (toReset s).kv = false := rfl
@[simp] theorem toReset_chain (s : State) : (toReset s).chain = Vector.replicate 16 0 := rfl
@[simp] theorem toReset_res (s : State) : (toReset s).res = Vector.replicate 16 0 := rfl
@[simp] theorem toReset_rlen (s : State) : (toReset s).rlen = 0 := rfl
@[simp] theorem toReset_crem (s : State) : (toReset s).crem = 0 := rfl
@[simp] theorem toReset_hash (s : State) : (toReset s).hash = HashState.zero := rfl
@[simp] theorem toReset_kdf (s : State) : (toReset s).kdf = KdfState.zero := rfl
@[simp] theorem toReset_err (s : State) : (toReset s).err = 0 := rfl
@[simp] theorem toReset_av (s : State) : (toReset s).av = false := rfl
@[simp] theorem toReset_aok (s : State) : (toReset s).aok = false := rfl
@[simp] theorem toReset_cmd (s : State) : (toReset s).cmd = s.cmd := rfl
@[simp] theorem toReset_din (s : State) : (toReset s).din = s.din := rfl
@[simp] theorem toReset_dout (s : State) : (toReset s).dout = s.dout := rfl

/-! `takeFault`: fault entry: every register but `PHASE` and `ERR` to its reset value, the ports kept (R256). -/

@[simp] theorem takeFault_phase (e : ErrCode) (s : State) : (takeFault e s).phase = .fault := rfl
@[simp] theorem takeFault_k (e : ErrCode) (s : State) : (takeFault e s).k = Vector.replicate 64 0 := rfl
@[simp] theorem takeFault_kv (e : ErrCode) (s : State) : (takeFault e s).kv = false := rfl
@[simp] theorem takeFault_chain (e : ErrCode) (s : State) : (takeFault e s).chain = Vector.replicate 16 0 := rfl
@[simp] theorem takeFault_res (e : ErrCode) (s : State) : (takeFault e s).res = Vector.replicate 16 0 := rfl
@[simp] theorem takeFault_rlen (e : ErrCode) (s : State) : (takeFault e s).rlen = 0 := rfl
@[simp] theorem takeFault_crem (e : ErrCode) (s : State) : (takeFault e s).crem = 0 := rfl
@[simp] theorem takeFault_hash (e : ErrCode) (s : State) : (takeFault e s).hash = HashState.zero := rfl
@[simp] theorem takeFault_kdf (e : ErrCode) (s : State) : (takeFault e s).kdf = KdfState.zero := rfl
@[simp] theorem takeFault_err (e : ErrCode) (s : State) : (takeFault e s).err = errCode e := rfl
@[simp] theorem takeFault_av (e : ErrCode) (s : State) : (takeFault e s).av = false := rfl
@[simp] theorem takeFault_aok (e : ErrCode) (s : State) : (takeFault e s).aok = false := rfl
@[simp] theorem takeFault_cmd (e : ErrCode) (s : State) : (takeFault e s).cmd = s.cmd := rfl
@[simp] theorem takeFault_din (e : ErrCode) (s : State) : (takeFault e s).din = s.din := rfl
@[simp] theorem takeFault_dout (e : ErrCode) (s : State) : (takeFault e s).dout = s.dout := rfl

end Sys2Proof.Machine
end

