-- ==== Sys2Proof/Laws/Ops.lean ====
section
/-! SUPPORT. What the shared operations can do, said once: the admission checks (`30_encoding.md` R96), the hash bound
(R186), the byte slices and the byte-order conversions. -/

namespace Sys2Proof.Machine

/-- In a phase other than `FAULT` a command that passes checks 2 to 4 of R96 performs its own rule. -/
theorem withChecks_performs {i : Instr} {s : State} {f : State → Host.Outcome State Fault Refusal}
    (hp : s.phase ≠ .fault) (hl : lenOk i = true) (hg : legalIn i s.phase = true)
    (hk : needsKey i = true → s.kv = true) : withChecks i s f = f s := by
  unfold withChecks
  cases hn : needsKey i <;> simp_all

/-- In phase `FAULT` a well-formed command that is legal there performs its own rule (R258). -/
theorem withChecks_in_fault {i : Instr} {s : State} {f : State → Host.Outcome State Fault Refusal}
    (hp : s.phase = .fault) (hl : lenOk i = true) (hg : legalIn i .fault = true) : withChecks i s f = f s := by
  simp [withChecks, hp, hl, hg]

/-- In phase `FAULT` every other command is ignored (R258). -/
theorem withChecks_ignored {i : Instr} {s : State} {f : State → Host.Outcome State Fault Refusal}
    (hp : s.phase = .fault) (h : lenOk i = false ∨ legalIn i .fault = false) : withChecks i s f = .next s := by
  unfold withChecks
  rcases h with h | h <;> simp [hp, h]

/-- Everything the admission checks can answer: ignored in phase `FAULT`, a fault of checks 2 to 4 outside it, or the
command's own rule with the checks passed. -/
theorem withChecks_cases (i : Instr) (s : State) (f : State → Host.Outcome State Fault Refusal) :
    (s.phase = .fault ∧ (lenOk i = false ∨ legalIn i .fault = false) ∧ withChecks i s f = .next s) ∨
    (s.phase ≠ .fault ∧ ∃ e, (e = .badLen ∨ e = .badPhase ∨ e = .noKey) ∧ withChecks i s f = .next (takeFault e s)) ∨
    (lenOk i = true ∧ legalIn i s.phase = true ∧ (s.phase ≠ .fault → needsKey i = true → s.kv = true) ∧
      withChecks i s f = f s) := by
  unfold withChecks
  by_cases hp : s.phase = .fault
  · cases hl : lenOk i <;> cases hg : legalIn i .fault <;> simp [hp, hg]
  · cases hl : lenOk i
    · exact .inr (.inl ⟨hp, .badLen, by simp [hp]⟩)
    · cases hg : legalIn i s.phase
      · exact .inr (.inl ⟨hp, .badPhase, by simp [hp]⟩)
      · cases hk : needsKey i <;> cases hv : s.kv
        · exact .inr (.inr (by simp [hp]))
        · exact .inr (.inr (by simp [hp]))
        · exact .inr (.inl ⟨hp, .noKey, by simp [hp]⟩)
        · exact .inr (.inr (by simp [hp]))

/-- The hash bound passes (R186). -/
theorem hashGuard_performs {n : Nat} {s : State} {o : Host.Outcome State Fault Refusal}
    (h : s.hash.nbytes.toNat + n < 2 ^ 61) : hashGuard n s o = o := if_pos h

/-- The hash bound refuses (R186). -/
theorem hashGuard_refuses {n : Nat} {s : State} {o : Host.Outcome State Fault Refusal}
    (h : ¬ s.hash.nbytes.toNat + n < 2 ^ 61) : hashGuard n s o = .refused .hashTooLong := if_neg h

/-- Everything the hash bound can answer. -/
theorem hashGuard_cases (n : Nat) (s : State) (o : Host.Outcome State Fault Refusal) :
    (s.hash.nbytes.toNat + n < 2 ^ 61 ∧ hashGuard n s o = o) ∨
    (2 ^ 61 ≤ s.hash.nbytes.toNat + n ∧ hashGuard n s o = .refused .hashTooLong) := by
  by_cases h : s.hash.nbytes.toNat + n < 2 ^ 61
  · exact .inl ⟨h, hashGuard_performs h⟩
  · exact .inr ⟨by omega, hashGuard_refuses h⟩

/-- The `i`-th byte of a slice. -/
@[simp] theorem bytesAt_getElem (n off : Nat) (s : List Byte) (i : Nat) (h : i < n) :
    (bytesAt n off s)[i] = s.getD (off + i) 0 := by
  simp only [bytesAt, Vector.getElem_mk, List.getElem_toArray, List.getElem_take, List.getD]
  by_cases ho : off + i < s.length
  · rw [List.getElem_append_left (by simp; omega)]
    simp [ho]
  · rw [List.getElem_append_right (by simp; omega)]
    simp [List.getElem?_eq_none (Nat.le_of_not_lt ho)]

/-- A slice that lies inside the string is `MemRead` (R16). -/
theorem bytesAt_toList (n off : Nat) (s : List Byte) (h : off + n ≤ s.length) :
    (bytesAt n off s).toList = (s.drop off).take n := by
  apply List.ext_getElem
  · simp; omega
  · intro i h1 h2
    have hi : i < n := by simpa using h1
    have hs : off + i < s.length := by omega
    rw [Vector.getElem_toList, bytesAt_getElem]
    simp [List.getD, hs]

/-- A slice of a whole string of the slice's length. -/
theorem bytesAt_self {n : Nat} (v : Vector Byte n) : bytesAt n 0 v.toList = v := by
  ext i h
  simp [List.getD, h]

theorem bytesAt_toList_self (n : Nat) (s : List Byte) (h : s.length = n) : (bytesAt n 0 s).toList = s := by
  rw [bytesAt_toList _ _ _ (by omega)]
  simp [← h]

/-- The number of complete blocks (R202). -/
@[simp] theorem blocksOf_length (buf : List Byte) : (blocksOf buf).length = buf.length / 16 := by
  simp [blocksOf]

/-- The number of bytes left over (R202). -/
@[simp] theorem restOf_length (buf : List Byte) : (restOf buf).length = buf.length % 16 := by
  simp [restOf]; omega

/-- `BE64(BE64inv(w)) = w` (R12). -/
@[simp] theorem be64_be64inv (w : Word64) : be64 (be64inv w) = w := by
  apply BitVec.eq_of_getLsbD_eq
  intro i hi
  simp only [be64, be64inv, Vector.getElem_ofFn, BitVec.getLsbD_append, BitVec.getLsbD_extractLsb']
  grind

/-- `BE64inv(BE64(s)) = s` (R12). -/
@[simp] theorem be64inv_be64 (s : Vector Byte 8) : be64inv (be64 s) = s := by
  ext i h j hj
  simp only [be64, be64inv, Vector.getElem_ofFn, BitVec.getElem_extractLsb', BitVec.getLsbD_append]
  have : i = 0 ∨ i = 1 ∨ i = 2 ∨ i = 3 ∨ i = 4 ∨ i = 5 ∨ i = 6 ∨ i = 7 := by omega
  rcases this with rfl|rfl|rfl|rfl|rfl|rfl|rfl|rfl <;> grind

/-- `BE32(BE32inv(w)) = w` (R12). -/
@[simp] theorem be32_be32inv (w : Word32) : be32 (be32inv w) = w := by
  apply BitVec.eq_of_getLsbD_eq
  intro i hi
  simp only [be32, be32inv, Vector.getElem_ofFn, BitVec.getLsbD_append, BitVec.getLsbD_extractLsb']
  grind

/-- The `i`-th complete block (R202). -/
theorem blocksOf_getElem (buf : List Byte) (i : Nat) (h : i < (blocksOf buf).length) : (blocksOf buf)[i] = bytesAt 16 (16*i) buf := by
  simp [blocksOf]

/-- The bytes left over, as the residual buffer holds them, zero-filled (R26, R202). -/
theorem restOf_bytes (buf : List Byte) : bytesAt 16 0 (restOf buf) = bytesAt 16 (16 * (buf.length / 16)) buf := by
  ext1 i h
  simp [restOf, List.getD, List.getElem?_drop]

/-- The first `n` blocks of a string are its first `16 n` bytes. -/
theorem flatMap_blocks (buf : List Byte) : ∀ (n : Nat), 16 * n ≤ buf.length → (List.range n).flatMap (fun i => (bytesAt 16 (16*i) buf).toList) = buf.take (16 * n) := by
  intro n
  induction n with
  | zero => simp
  | succ n ih =>
    intro h
    rw [List.range_succ, List.flatMap_append, ih (by omega), List.flatMap_singleton, bytesAt_toList _ _ _ (by omega)]
    rw [show 16 * (n+1) = 16 * n + 16 by ring, List.take_add]

/-- The complete blocks of a string are its first bytes, up to a multiple of 16. -/
theorem blocksOf_flat (buf : List Byte) : (blocksOf buf).flatMap (·.toList) = buf.take (16 * (buf.length / 16)) := by
  unfold blocksOf
  rw [List.flatMap_map]; exact flatMap_blocks _ _ (by omega)

/-- The last complete block of a string, or `d` where there is none. -/
theorem blk_last (buf : List Byte) (d : Block) : (blocksOf buf).getLast?.getD d = if buf.length / 16 = 0 then d else bytesAt 16 (16 * (buf.length/16 - 1)) buf := by
  by_cases h : buf.length / 16 = 0
  · rw [if_pos h]
    have : blocksOf buf = [] := List.eq_nil_of_length_eq_zero (by simp [h])
    simp [this]
  · rw [if_neg h, List.getLast?_eq_getElem?]
    rw [List.getElem?_eq_getElem (by simp; omega)]
    simp [blocksOf_getElem]

/-- A concatenation over `0 .. n`, its first part taken off. -/
theorem flatMap_range_succ {β} (n : Nat) (f : Nat → List β) : (List.range (n+1)).flatMap f = f 0 ++ (List.range n).flatMap (fun i => f (i+1)) := by
  rw [List.range_succ_eq_map]; simp [List.flatMap_map]

/-- `RLEN` is taken modulo 16 once. -/
theorem finOfNat_mod (n : Nat) : Fin.ofNat 16 (n % 16) = Fin.ofNat 16 n := by
  apply Fin.ext; simp [Fin.ofNat]

end Sys2Proof.Machine
end

