-- ==== Sys2Proof/Laws/Cipher.lean ====
section
/-! SUPPORT. Small lemmas of the block cipher (`43_block_cipher.md` R160 to R166). -/

namespace Sys2Proof.Machine

/-- The step `X <- X xor g(Y)` is undone by repeating it: one iteration with the two subkeys exchanged undoes one
iteration, with the halves exchanged before and after. -/
theorem iteration_undo (c : Cfg) (k1 k2 : Word64) (ab : Word64 × Word64) :
    iteration c k2 k1 (iteration c k1 k2 ab).swap = ab.swap := by
  simp [iteration, Prod.swap]

/-- `BC.to_words` reads back what `BC.to_bytes` wrote (R163). -/
@[simp] theorem toWords_toBytes (w0 w1 : Word64) : toWords (toBytes w0 w1) = (w0, w1) := by
  have hl : (toBytes w0 w1).toList = (be64inv w0).toList ++ (be64inv w1).toList :=
    bytesAt_toList_self _ _ (by simp)
  have h0 : bytesAt 8 0 (toBytes w0 w1).toList = be64inv w0 := by
    ext1 i h
    rw [bytesAt_getElem, hl, List.getD_append _ _ _ _ (by simpa using h)]
    simp [List.getD, h]
  have h1 : bytesAt 8 8 (toBytes w0 w1).toList = be64inv w1 := by
    ext1 i h
    rw [bytesAt_getElem, hl, List.getD_append_right _ _ _ _ (by simp)]
    simp [List.getD, h]
  simp [toWords, h0, h1]

/-- `BC.to_bytes` writes back what `BC.to_words` read (R163). -/
@[simp] theorem toBytes_toWords (blk : Block) : toBytes (toWords blk).1 (toWords blk).2 = blk := by
  have hl : (bytesAt 8 0 blk.toList).toList ++ (bytesAt 8 8 blk.toList).toList = blk.toList := by
    rw [bytesAt_toList _ _ _ (by simp), bytesAt_toList _ _ _ (by simp)]
    have : (blk.toList.drop 8).take 8 = blk.toList.drop 8 := List.take_of_length_le (by simp)
    simp only [List.drop_zero, this, List.take_append_drop]
  simp only [toBytes, toWords, be64inv_be64, hl, bytesAt_self]

end Sys2Proof.Machine
end

