-- ==== Sys2Proof/Laws/Hash.lean ====
section
/-! SUPPORT. Small lemmas of the integrity hash (`44_integrity_hash.md` R183, R184). -/

namespace Sys2Proof.Machine

/-- Where a constant stands in R185's listing: line `t / 8`, word `t mod 8` from the left. -/
theorem shaK_getElem (t : Fin 64) : shaK[t] = shaKLines[t.val / 8].extractLsb' (32 * (7 - t.val % 8)) 32 := by
  revert t; decide +kernel

@[simp] theorem hashBytes_nil (st : HashState) : hashBytes st [] = st := rfl

@[simp] theorem hashBytes_cons (st : HashState) (x : Byte) (xs : List Byte) :
    hashBytes st (x :: xs) = hashBytes (hashByte st x) xs := rfl

/-- Feeding a concatenation is feeding its parts (R183). -/
theorem hashBytes_append (st : HashState) (xs ys : List Byte) :
    hashBytes st (xs ++ ys) = hashBytes (hashBytes st xs) ys := List.foldl_append

/-- The digest of a message fed in two parts (R183, R184). -/
theorem shaDigest_append (xs ys : List Byte) :
    shaDigest (xs ++ ys) = hashDigest (hashBytes (hashBytes hashInitial xs) ys) := by
  rw [shaDigest, hashBytes_append]

@[simp] theorem hashByte_nbytes (st : HashState) (x : Byte) : (hashByte st x).nbytes = st.nbytes + 1 := by
  unfold hashByte; dsimp only; split <;> rfl

@[simp] theorem hashByte_buf (st : HashState) (x : Byte) :
    (hashByte st x).buf = st.buf.set (st.nbytes.toNat % 64) x (Nat.mod_lt _ (by decide)) := by
  unfold hashByte; dsimp only; split <;> rfl

/-- `NBYTES` counts the bytes (R183). -/
theorem hashBytes_nbytes (st : HashState) (xs : List Byte) :
    (hashBytes st xs).nbytes = st.nbytes + BitVec.ofNat 64 xs.length := by
  induction xs generalizing st with
  | nil => simp
  | cons x xs ih =>
    rw [hashBytes_cons, ih, hashByte_nbytes, List.length_cons]
    apply BitVec.eq_of_toNat_eq
    simp
    omega

/-- `NBYTES` as a number, while it stays below its width (R183, R186). -/
theorem hashBytes_nbytes_toNat (st : HashState) (xs : List Byte) (h : st.nbytes.toNat + xs.length < 2 ^ 64) :
    (hashBytes st xs).nbytes.toNat = st.nbytes.toNat + xs.length := by
  rw [hashBytes_nbytes, BitVec.toNat_add, BitVec.toNat_ofNat]
  omega

end Sys2Proof.Machine
end

