-- ==== Sys2Proof/Laws/Cbc.lean ====
section
/-! SUPPORT. Small lemmas of the CBC pipeline (`45_cbc_pipeline.md` R201 to R209): what one block and a run of blocks write,
and what they leave alone. -/

namespace Sys2Proof.Machine

/-- The ciphertext of one block (R201). -/
theorem encBlock_eq (cfg : Cfg) (s : State) (p : Block) :
    encBlock cfg s p =
      { s with
        chain := blockEncrypt cfg s.k (xorBytes p s.chain)
        hash := hashBytes s.hash (blockEncrypt cfg s.k (xorBytes p s.chain)).toList
        dout := s.dout ++ (blockEncrypt cfg s.k (xorBytes p s.chain)).toList } := by
  unfold encBlock; rfl

@[simp] theorem encBlocks_nil (cfg : Cfg) (s : State) : encBlocks cfg s [] = s := rfl

@[simp] theorem encBlocks_cons (cfg : Cfg) (s : State) (p : Block) (ps : List Block) :
    encBlocks cfg s (p :: ps) = encBlocks cfg (encBlock cfg s p) ps := rfl

theorem encBlocks_append (cfg : Cfg) (s : State) (ps qs : List Block) :
    encBlocks cfg s (ps ++ qs) = encBlocks cfg (encBlocks cfg s ps) qs := by
  unfold encBlocks; exact List.foldl_append

/-- A run of encrypted blocks writes `CHAIN`, the hash and `DOUT`, and nothing else (R201). -/
theorem encBlocks_frame (cfg : Cfg) (s : State) (ps : List Block) :
    encBlocks cfg s ps =
      { s with
        chain := (encBlocks cfg s ps).chain
        hash := (encBlocks cfg s ps).hash
        dout := (encBlocks cfg s ps).dout } := by
  induction ps generalizing s with
  | nil => rfl
  | cons p ps ih => rw [encBlocks_cons, ih, encBlock_eq]

/-- The state part of one decrypted block (R207). -/
theorem decBlock_state (cfg : Cfg) (s : State) (c : Block) :
    (decBlock cfg s c).1 = { s with chain := c, hash := hashBytes s.hash c.toList } := rfl

@[simp] theorem decBlock_plain (cfg : Cfg) (s : State) (c : Block) :
    (decBlock cfg s c).2 = xorBytes (blockDecrypt cfg s.k c) s.chain := rfl

@[simp] theorem decBlocks_nil (cfg : Cfg) (s : State) : decBlocks cfg s [] = .ok s := rfl

/-- A block of the container that is not its last (R208). -/
theorem decBlocks_cons_inner (cfg : Cfg) (s : State) (c : Block) (cs : List Block) (h : s.crem ≠ 0 ∨ cs ≠ []) :
    decBlocks cfg s (c :: cs) = decBlocks cfg (emit (decBlock cfg s c).2.toList (decBlock cfg s c).1) cs := by
  have : ¬ (s.crem = 0 ∧ cs = []) := by tauto
  simp only [decBlocks, if_neg this]

/-- The last block of the container (R208). -/
theorem decBlocks_last (cfg : Cfg) (s : State) (c : Block) (h : s.crem = 0) :
    decBlocks cfg s [c] =
      match unpad (decBlock cfg s c).2 with
      | none => .error (decBlock cfg s c).1
      | some t => .ok (emit t (decBlock cfg s c).1) := by
  unfold decBlocks; exact if_pos ⟨h, rfl⟩

/-- A run of decrypted blocks writes `CHAIN`, the hash and `DOUT`, and nothing else (R207, R208). -/
theorem decBlocks_frame (cfg : Cfg) (s : State) (cs : List Block) :
    match decBlocks cfg s cs with
    | .ok t => t = { s with chain := t.chain, hash := t.hash, dout := t.dout }
    | .error t => t = { s with chain := t.chain, hash := t.hash, dout := t.dout } := by
  induction cs generalizing s with
  | nil => rfl
  | cons c cs ih =>
    by_cases h : s.crem = 0 ∧ cs = []
    · obtain ⟨hc, rfl⟩ := h
      rw [decBlocks_last _ _ _ hc]
      cases unpad (decBlock cfg s c).2 <;> rfl
    · rw [decBlocks_cons_inner _ _ _ _ (by tauto)]
      have := ih (emit (decBlock cfg s c).2.toList (decBlock cfg s c).1)
      revert this
      cases decBlocks cfg (emit (decBlock cfg s c).2.toList (decBlock cfg s c).1) cs with
      | ok t => intro ht; rw [ht]; rfl
      | error t => intro ht; rw [ht]; rfl

/-- There are `RLEN` residual bytes (R26). -/
theorem resBytes_length (s : State) : (resBytes s).length = s.rlen.val := by
  have := s.rlen.isLt
  simp [resBytes]

/-- `CREM - len` as a number, where it does not go below 0 (R208). -/
theorem crem_sub (a : Word64) (n : Nat) (h : n ≤ a.toNat) : (a - BitVec.ofNat 64 n).toNat = a.toNat - n := by
  have : n < 2^64 := by omega
  rw [BitVec.toNat_sub, BitVec.toNat_ofNat]; omega

/-- A block with valid padding (R209). -/
theorem unpad_some (q : Block) (h : 1 ≤ q[15].toNat ∧ q[15].toNat ≤ 16 ∧ ∀ j (h : j < 16), 16 - q[15].toNat ≤ j → q[j] = q[15]) :
    unpad q = some (q.toList.take (16 - q[15].toNat)) := by
  obtain ⟨h1, h2, h3⟩ := h
  unfold unpad
  rw [if_neg (by omega), if_neg]
  simp only [List.any_eq_true, not_exists, not_and, bne_iff_ne, ne_eq, not_not]
  intro x hx
  obtain ⟨i, hi, rfl⟩ := List.getElem_of_mem hx
  simp at hi
  simpa using h3 (16 - q[15].toNat + i) (by omega) (by omega)

/-- A block without valid padding (R209). -/
theorem unpad_none (q : Block) (h : ¬ (1 ≤ q[15].toNat ∧ q[15].toNat ≤ 16 ∧ ∀ j (h : j < 16), 16 - q[15].toNat ≤ j → q[j] = q[15])) :
    unpad q = none := by
  unfold unpad
  by_cases hp : q[15].toNat < 1 ∨ q[15].toNat > 16
  · rw [if_pos hp]
  · rw [if_neg hp, if_pos]
    simp only [List.any_eq_true, bne_iff_ne, ne_eq]
    by_contra hc
    simp only [not_exists, not_and, not_not] at hc
    apply h
    refine ⟨by omega, by omega, ?_⟩
    intro j hj hle
    have : q[j] ∈ q.toList.drop (16 - q[15].toNat) := by
      rw [List.mem_iff_getElem]
      exact ⟨j - (16 - q[15].toNat), by simp; omega, by simp; congr 1; omega⟩
    exact hc _ this

/-- Everything a run of encrypted blocks does (R201): `c` lists the chain values, `c 0` the old `CHAIN`, and each later one
is both the ciphertext emitted and the bytes hashed. -/
theorem encBlocks_spec (cfg) (ps : List Block) : ∀ (s : State), ∃ c : Nat → Block, c 0 = s.chain ∧
    (∀ i (h : i < ps.length), c (i+1) = blockEncrypt cfg s.k (xorBytes ps[i] (c i))) ∧
    encBlocks cfg s ps = { s with chain := c ps.length, hash := hashBytes s.hash ((List.range ps.length).flatMap fun i => (c (i+1)).toList), dout := s.dout ++ ((List.range ps.length).flatMap fun i => (c (i+1)).toList) } := by
  induction ps with
  | nil => intro s; exact ⟨fun _ => s.chain, rfl, by simp, by simp⟩
  | cons p ps ih =>
    intro s
    obtain ⟨c, h0, h1, h2⟩ := ih (encBlock cfg s p)
    refine ⟨fun n => match n with | 0 => s.chain | n+1 => c n, rfl, ?_, ?_⟩
    · intro i hi
      cases i with
      | zero => simp [h0, encBlock_eq]
      | succ i => exact h1 i (by simpa using hi)
    · rw [encBlocks_cons, h2]
      simp only [List.length_cons, flatMap_range_succ, h0, encBlock_eq, hashBytes_append, List.append_assoc]

/-- Everything a run of decrypted blocks does (R207, R208), for `q` their plaintexts: all of them emitted while ciphertext is
still missing, and the last one unpadded when none is. -/
theorem decBlocks_spec (cfg) (cs : List Block) : ∀ (s : State) (q : Nat → Block) , 
    (∀ i (h : i < cs.length), q i = xorBytes (blockDecrypt cfg s.k cs[i]) (if i = 0 then s.chain else cs.getD (i-1) s.chain)) →
    (s.crem ≠ 0 ∨ cs.length = 0 → decBlocks cfg s cs = .ok { s with chain := cs.getLast?.getD s.chain, hash := hashBytes s.hash (cs.flatMap (·.toList)), dout := s.dout ++ ((List.range cs.length).flatMap fun i => (q i).toList) }) ∧
    (s.crem = 0 → cs.length ≠ 0 → 
      let t := { s with chain := cs.getLast?.getD s.chain, hash := hashBytes s.hash (cs.flatMap (·.toList)), dout := s.dout ++ ((List.range (cs.length-1)).flatMap fun i => (q i).toList) }
      decBlocks cfg s cs = match unpad (q (cs.length - 1)) with 
        | none => .error t
        | some r => .ok {t with dout := t.dout ++ r}) := by
  induction cs with
  | nil => intro s q h; simp
  | cons c cs ih =>
    intro s q h
    have hq0 : q 0 = xorBytes (blockDecrypt cfg s.k c) s.chain := h 0 (by simp)
    have hq : ∀ i (hi : i < cs.length), q (i+1) = xorBytes (blockDecrypt cfg s.k cs[i]) (if i = 0 then c else cs.getD (i-1) c) := by
      intro i hi
      have := h (i+1) (by simpa using hi)
      rw [this]
      cases i with
      | zero => simp
      | succ i => simp [List.getD]; have : i < cs.length := by omega
                  simp [this]
    have ih' := ih (emit (decBlock cfg s c).2.toList (decBlock cfg s c).1) (fun i => q (i+1)) hq
    have hlast : (c :: cs).getLast?.getD s.chain = cs.getLast?.getD c := by
      cases cs <;> simp [List.getLast?_cons]
    constructor
    · intro hc
      have hc : s.crem ≠ 0 := by simpa using hc
      rw [decBlocks_cons_inner _ _ _ _ (.inl hc), ih'.1 (.inl hc), hlast]
      simp only [List.length_cons, flatMap_range_succ, decBlock_plain, ← hq0, decBlock_state, emit, List.flatMap_cons, hashBytes_append, List.append_assoc]
    · intro hc hl
      by_cases hcs : cs = []
      · subst hcs
        rw [decBlocks_last _ _ _ hc]
        simp only [decBlock_plain, ← hq0]
        simp
        cases unpad (q 0) <;> simp [decBlock_state, emit]
      · rw [decBlocks_cons_inner _ _ _ _ (.inr hcs), ih'.2 hc (by simpa using hcs)]
        have h1 : (c :: cs).length - 1 = (cs.length - 1) + 1 := by
          have : cs.length ≠ 0 := by simpa using hcs
          simp; omega
        simp only [h1, hlast, flatMap_range_succ, decBlock_plain, ← hq0, decBlock_state, emit, List.flatMap_cons, hashBytes_append, List.append_assoc]

/-- A run of decrypted blocks only appends to `DOUT`, whether it ends or faults (R62, R208). -/
theorem decBlocks_dout (cfg : Cfg) (s : State) (cs : List Block) :
    match decBlocks cfg s cs with
    | .ok t => ∃ out, t.dout = s.dout ++ out
    | .error t => ∃ out, t.dout = s.dout ++ out := by
  induction cs generalizing s with
  | nil => exact ⟨[], by simp⟩
  | cons c cs ih =>
    by_cases h : s.crem = 0 ∧ cs = []
    · obtain ⟨hc, rfl⟩ := h
      rw [decBlocks_last _ _ _ hc]
      cases unpad (decBlock cfg s c).2 with
      | none => exact ⟨[], by simp [decBlock_state]⟩
      | some t => exact ⟨t, by simp [decBlock_state]⟩
    · rw [decBlocks_cons_inner _ _ _ _ (by tauto)]
      have := ih (emit (decBlock cfg s c).2.toList (decBlock cfg s c).1)
      revert this
      cases decBlocks cfg (emit (decBlock cfg s c).2.toList (decBlock cfg s c).1) cs with
      | ok t => intro ⟨out, ho⟩; exact ⟨_, by rw [ho]; simp [decBlock_state]; rfl⟩
      | error t => intro ⟨out, ho⟩; exact ⟨_, by rw [ho]; simp [decBlock_state]; rfl⟩

end Sys2Proof.Machine
end

