-- ==== Sys2Proof/Laws/Exec.lean ====
section
/-! SUPPORT. Each command's meaning behind its admission checks, one lemma per command (true by `rfl`): with `withChecks_cases`
this is all that `exec` can do. -/

namespace Sys2Proof.Machine

theorem exec_nop (payload : List Byte) (s : State) : exec (.nop payload) s =
    withChecks (.nop payload) s fun s => .next s := rfl

theorem exec_zeroize (payload : List Byte) (s : State) : exec (.zeroize payload) s =
    withChecks (.zeroize payload) s fun s => .next (toReset s) := rfl

theorem exec_abort (payload : List Byte) (s : State) : exec (.abort payload) s =
    withChecks (.abort payload) s fun s =>
      .next (setPhase .idle (clearAuth (wipeKdf (wipeHash (setCrem 0 (wipeChain s)))))) := rfl

theorem exec_rdStatus (payload : List Byte) (s : State) : exec (.rdStatus payload) s =
    withChecks (.rdStatus payload) s fun s => .next (emit (be32inv (status s)).toList s) := rfl

theorem exec_kdfInit (payload : List Byte) (s : State) : exec (.kdfInit payload) s =
    withChecks (.kdfInit payload) s fun s => .next (setPhase .kdfAbs (wipeKdf s)) := rfl

theorem exec_kdfAbsorb (payload : List Byte) (s : State) : exec (.kdfAbsorb payload) s =
    withChecks (.kdfAbsorb payload) s fun s => .next (setKdf (absorb Config.cfg s.kdf payload) s) := rfl

theorem exec_kdfFinal (payload : List Byte) (s : State) : exec (.kdfFinal payload) s =
    withChecks (.kdfFinal payload) s fun s => .next (setPhase .kdfRdy (setKdf (kdfFinalize Config.cfg s.kdf) s)) := rfl

theorem exec_kmRead (payload : List Byte) (s : State) : exec (.kmRead payload) s =
    withChecks (.kmRead payload) s fun s => .next (emit (keyMaterial s.kdf).toList s) := rfl

theorem exec_ksDerive (payload : List Byte) (s : State) : exec (.ksDerive payload) s =
    withChecks (.ksDerive payload) s fun s =>
      .next (setPhase .idle (wipeKdf (loadKey (schedule (keyMaterial s.kdf)) s))) := rfl

theorem exec_ksLoad (payload : List Byte) (s : State) : exec (.ksLoad payload) s =
    withChecks (.ksLoad payload) s fun s => .next (loadKey (schedule (operandKm payload)) s) := rfl

theorem exec_blkEnc (payload : List Byte) (s : State) : exec (.blkEnc payload) s =
    withChecks (.blkEnc payload) s fun s => .next (emit (blockEncrypt Config.cfg s.k (operandBlock payload)).toList s) := rfl

theorem exec_blkDec (payload : List Byte) (s : State) : exec (.blkDec payload) s =
    withChecks (.blkDec payload) s fun s => .next (emit (blockDecrypt Config.cfg s.k (operandBlock payload)).toList s) := rfl

theorem exec_encStart (payload : List Byte) (s : State) : exec (.encStart payload) s =
    withChecks (.encStart payload) s fun s =>
      let iv := operandBlock payload
      .next (setPhase .enc (clearAuth (setHash hashInitial (setResidual [] (setChain iv (emit iv.toList s)))))) := rfl

theorem exec_encData (payload : List Byte) (s : State) : exec (.encData payload) s =
    withChecks (.encData payload) s fun s =>
      let buf := resBytes s ++ payload
      hashGuard (16 * (buf.length / 16)) s
        (.next (setResidual (restOf buf) (encBlocks Config.cfg s (blocksOf buf)))) := rfl

theorem exec_encFinal (payload : List Byte) (s : State) : exec (.encFinal payload) s =
    withChecks (.encFinal payload) s fun s =>
      hashGuard 16 s
        (let s1 := encBlock Config.cfg s (padBlock (resBytes s))
         .next (setPhase .idle (wipeHash (wipeChain (emit (hashDigest s1.hash).toList s1))))) := rfl

theorem exec_decStart (payload : List Byte) (s : State) : exec (.decStart payload) s =
    withChecks (.decStart payload) s fun s =>
      let len := be64 (operandLenBytes payload)
      if malformed len then .next (takeFault .malformed s)
      else
        .next (setPhase .dec (clearAuth (setHash hashInitial
          (setCrem (len - 48) (setResidual [] (setChain (operandDecIv payload) s)))))) := rfl

theorem exec_decData (payload : List Byte) (s : State) : exec (.decData payload) s =
    withChecks (.decData payload) s fun s =>
      if payload.length > s.crem.toNat then .next (takeFault .overrun s)
      else
        let buf := resBytes s ++ payload
        hashGuard (16 * (buf.length / 16)) s
          (match decBlocks Config.cfg (setCrem (s.crem - BitVec.ofNat 64 payload.length) s) (blocksOf buf) with
           | .error s1 => .next (takeFault .padding s1)
           | .ok s1 => .next (setResidual (restOf buf) s1)) := rfl

theorem exec_decFinal (payload : List Byte) (s : State) : exec (.decFinal payload) s =
    withChecks (.decFinal payload) s fun s =>
      if s.crem ≠ 0 then .next (takeFault .underrun s)
      else
        .next (setPhase .idle (wipeHash (setCrem 0 (wipeChain
          (setAuth (hashDigest s.hash == operandTag payload) s))))) := rfl

theorem exec_hashInit (payload : List Byte) (s : State) : exec (.hashInit payload) s =
    withChecks (.hashInit payload) s fun s => .next (setPhase .hash (setHash hashInitial s)) := rfl

theorem exec_hashUpdate (payload : List Byte) (s : State) : exec (.hashUpdate payload) s =
    withChecks (.hashUpdate payload) s fun s =>
      hashGuard payload.length s (.next (setHash (hashBytes s.hash payload) s)) := rfl

theorem exec_hashFinal (payload : List Byte) (s : State) : exec (.hashFinal payload) s =
    withChecks (.hashFinal payload) s fun s =>
      .next (setPhase .idle (wipeHash (emit (hashDigest s.hash).toList s))) := rfl

end Sys2Proof.Machine
end

