-- ==== Sys2Proof/Laws/Inversion.lean ====
section
/-! SUPPORT. Everything a command can do when it answers a next state, said once: ignored in phase `FAULT`, a fault, or its own
effect with the admission checks passed (`30_encoding.md` R96). Invariants follow from `exec_next_cases` by cases. -/

namespace Sys2Proof.Machine

/-- What a command that is performed and does not fault does (check 5 of R96). -/
def performed (i : Instr) (s t : State) : Prop :=
  match i with
  | .nop _ => t = s
  | .zeroize _ => t = toReset s
  | .abort _ => t = setPhase .idle (clearAuth (wipeKdf (wipeHash (setCrem 0 (wipeChain s)))))
  | .rdStatus _ => t = emit (be32inv (status s)).toList s
  | .kdfInit _ => t = setPhase .kdfAbs (wipeKdf s)
  | .kdfAbsorb p => t = setKdf (absorb Config.cfg s.kdf p) s
  | .kdfFinal _ => t = setPhase .kdfRdy (setKdf (kdfFinalize Config.cfg s.kdf) s)
  | .kmRead _ => t = emit (keyMaterial s.kdf).toList s
  | .ksDerive _ => t = setPhase .idle (wipeKdf (loadKey (schedule (keyMaterial s.kdf)) s))
  | .ksLoad p => t = loadKey (schedule (operandKm p)) s
  | .blkEnc p => t = emit (blockEncrypt Config.cfg s.k (operandBlock p)).toList s
  | .blkDec p => t = emit (blockDecrypt Config.cfg s.k (operandBlock p)).toList s
  | .encStart p =>
    t = setPhase .enc (clearAuth (setHash hashInitial (setResidual [] (setChain (operandBlock p)
      (emit (operandBlock p).toList s)))))
  | .encData p =>
    s.hash.nbytes.toNat + 16 * ((s.rlen.val + p.length) / 16) < 2 ^ 61 ∧
      t = setResidual (restOf (resBytes s ++ p)) (encBlocks Config.cfg s (blocksOf (resBytes s ++ p)))
  | .encFinal _ =>
    s.hash.nbytes.toNat + 16 < 2 ^ 61 ∧
      t = setPhase .idle (wipeHash (wipeChain (emit
        (hashDigest (encBlock Config.cfg s (padBlock (resBytes s))).hash).toList
        (encBlock Config.cfg s (padBlock (resBytes s))))))
  | .decStart p =>
    malformed (be64 (operandLenBytes p)) = false ∧
      t = setPhase .dec (clearAuth (setHash hashInitial (setCrem (be64 (operandLenBytes p) - 48)
        (setResidual [] (setChain (operandDecIv p) s)))))
  | .decData p =>
    p.length ≤ s.crem.toNat ∧ s.hash.nbytes.toNat + 16 * ((s.rlen.val + p.length) / 16) < 2 ^ 61 ∧
      ∃ u, decBlocks Config.cfg (setCrem (s.crem - BitVec.ofNat 64 p.length) s) (blocksOf (resBytes s ++ p)) = .ok u ∧
        t = setResidual (restOf (resBytes s ++ p)) u
  | .decFinal p =>
    s.crem = 0 ∧
      t = setPhase .idle (wipeHash (setCrem 0 (wipeChain (setAuth (hashDigest s.hash == operandTag p) s))))
  | .hashInit _ => t = setPhase .hash (setHash hashInitial s)
  | .hashUpdate p => s.hash.nbytes.toNat + p.length < 2 ^ 61 ∧ t = setHash (hashBytes s.hash p) s
  | .hashFinal _ => t = setPhase .idle (wipeHash (emit (hashDigest s.hash).toList s))

/-- Fault entry in the words of `faulted` (R256). -/
theorem takeFault_eq (e : ErrCode) (s : State) : takeFault e s = faulted (errCode e) [] s := by
  simp [takeFault, toReset, faulted]

/-- The checks of R96 around a command's own rule, when the answer is a next state. -/
theorem withChecks_next_cases {i : Instr} {s t : State} {f : State → Host.Outcome State Fault Refusal}
    (h : withChecks i s f = .next t) :
    (s.phase = .fault ∧ t = s) ∨
    (s.phase ≠ .fault ∧ ∃ e, (e = .badLen ∨ e = .badPhase ∨ e = .noKey) ∧ t = faulted (errCode e) [] s) ∨
    (lenOk i = true ∧ legalIn i s.phase = true ∧ (s.phase ≠ .fault → needsKey i = true → s.kv = true) ∧
      f s = .next t) := by
  rcases withChecks_cases i s f with ⟨h1, -, h2⟩ | ⟨h1, e, he, h2⟩ | ⟨h1, h2, h3, h4⟩
  · rw [h2] at h
    exact .inl ⟨h1, (Host.Outcome.next.inj h).symm⟩
  · rw [h2, takeFault_eq] at h
    exact .inr (.inl ⟨h1, e, he, (Host.Outcome.next.inj h).symm⟩)
  · exact .inr (.inr ⟨h1, h2, h3, h4 ▸ h⟩)

/-- The hash bound passed, when the answer is a next state (R186). -/
theorem hashGuard_next {n : Nat} {s t : State} {o : Host.Outcome State Fault Refusal} (h : hashGuard n s o = .next t) :
    s.hash.nbytes.toNat + n < 2 ^ 61 ∧ o = .next t := by
  rcases hashGuard_cases n s o with ⟨h1, h2⟩ | ⟨-, h2⟩
  · exact ⟨h1, h2 ▸ h⟩
  · rw [h2] at h; cases h

/-- The command whose own rule never faults, from its unfolding lemma. -/
theorem withChecks_performed {i : Instr} {s t : State} {f : State → Host.Outcome State Fault Refusal}
    (h : withChecks i s f = .next t) (hf : f s = .next t → performed i s t) :
    (s.phase = .fault ∧ t = s) ∨
    (s.phase ≠ .fault ∧ ∃ e out, t = faulted (errCode e) out s ∧ (e ≠ .padding → out = []) ∧
      (e = .padding → ∃ p, i = .decData p) ∧ e ≠ .illegal) ∨
    (lenOk i = true ∧ legalIn i s.phase = true ∧ (s.phase ≠ .fault → needsKey i = true → s.kv = true) ∧
      performed i s t) := by
  rcases withChecks_next_cases h with h1 | ⟨h1, e, he, h2⟩ | ⟨h1, h2, h3, h4⟩
  · exact .inl h1
  · refine .inr (.inl ⟨h1, e, [], h2, fun _ => rfl, ?_, ?_⟩) <;> rcases he with rfl | rfl | rfl <;> simp
  · exact .inr (.inr ⟨h1, h2, h3, hf h4⟩)

/-- The command whose own rule may raise `e`, from its unfolding lemma. -/
theorem withChecks_faulted {i : Instr} {s t : State} {f : State → Host.Outcome State Fault Refusal}
    (h : withChecks i s f = .next t) (hp : legalIn i .fault = false) (hf : f s = .next t → performed i s t ∨
      ∃ e out, t = faulted (errCode e) out s ∧ (e ≠ .padding → out = []) ∧ (e = .padding → ∃ p, i = .decData p) ∧
        e ≠ .illegal) :
    (s.phase = .fault ∧ t = s) ∨
    (s.phase ≠ .fault ∧ ∃ e out, t = faulted (errCode e) out s ∧ (e ≠ .padding → out = []) ∧
      (e = .padding → ∃ p, i = .decData p) ∧ e ≠ .illegal) ∨
    (lenOk i = true ∧ legalIn i s.phase = true ∧ (s.phase ≠ .fault → needsKey i = true → s.kv = true) ∧
      performed i s t) := by
  rcases withChecks_next_cases h with h1 | ⟨h1, e, he, h2⟩ | ⟨h1, h2, h3, h4⟩
  · exact .inl h1
  · refine .inr (.inl ⟨h1, e, [], h2, fun _ => rfl, ?_, ?_⟩) <;> rcases he with rfl | rfl | rfl <;> simp
  · have hs : s.phase ≠ .fault := by intro hc; rw [hc, hp] at h2; cases h2
    rcases hf h4 with h5 | h5
    · exact .inr (.inr ⟨h1, h2, h3, h5⟩)
    · exact .inr (.inl ⟨hs, h5⟩)

/-- Everything a command can do when it answers a next state (R96, R256, R258). -/
theorem exec_next_cases {i : Instr} {s t : State} (h : exec i s = .next t) :
    (s.phase = .fault ∧ t = s) ∨
    (s.phase ≠ .fault ∧ ∃ e out, t = faulted (errCode e) out s ∧ (e ≠ .padding → out = []) ∧
      (e = .padding → ∃ p, i = .decData p) ∧ e ≠ .illegal) ∨
    (lenOk i = true ∧ legalIn i s.phase = true ∧ (s.phase ≠ .fault → needsKey i = true → s.kv = true) ∧
      performed i s t) := by
  cases i with
  | nop p => exact withChecks_performed ((exec_nop p s).symm.trans h) fun h => (Host.Outcome.next.inj h).symm
  | zeroize p => exact withChecks_performed ((exec_zeroize p s).symm.trans h) fun h => (Host.Outcome.next.inj h).symm
  | abort p => exact withChecks_performed ((exec_abort p s).symm.trans h) fun h => (Host.Outcome.next.inj h).symm
  | rdStatus p => exact withChecks_performed ((exec_rdStatus p s).symm.trans h) fun h => (Host.Outcome.next.inj h).symm
  | kdfInit p => exact withChecks_performed ((exec_kdfInit p s).symm.trans h) fun h => (Host.Outcome.next.inj h).symm
  | kdfAbsorb p => exact withChecks_performed ((exec_kdfAbsorb p s).symm.trans h) fun h => (Host.Outcome.next.inj h).symm
  | kdfFinal p => exact withChecks_performed ((exec_kdfFinal p s).symm.trans h) fun h => (Host.Outcome.next.inj h).symm
  | kmRead p => exact withChecks_performed ((exec_kmRead p s).symm.trans h) fun h => (Host.Outcome.next.inj h).symm
  | ksDerive p => exact withChecks_performed ((exec_ksDerive p s).symm.trans h) fun h => (Host.Outcome.next.inj h).symm
  | ksLoad p => exact withChecks_performed ((exec_ksLoad p s).symm.trans h) fun h => (Host.Outcome.next.inj h).symm
  | blkEnc p => exact withChecks_performed ((exec_blkEnc p s).symm.trans h) fun h => (Host.Outcome.next.inj h).symm
  | blkDec p => exact withChecks_performed ((exec_blkDec p s).symm.trans h) fun h => (Host.Outcome.next.inj h).symm
  | encStart p => exact withChecks_performed ((exec_encStart p s).symm.trans h) fun h => (Host.Outcome.next.inj h).symm
  | encData p =>
    refine withChecks_performed ((exec_encData p s).symm.trans h) fun h => ?_
    obtain ⟨h1, h2⟩ := hashGuard_next h
    exact ⟨by simpa [resBytes_length] using h1, (Host.Outcome.next.inj h2).symm⟩
  | encFinal p =>
    refine withChecks_performed ((exec_encFinal p s).symm.trans h) fun h => ?_
    obtain ⟨h1, h2⟩ := hashGuard_next h
    exact ⟨h1, (Host.Outcome.next.inj h2).symm⟩
  | decStart p =>
    refine withChecks_faulted ((exec_decStart p s).symm.trans h) rfl fun h => ?_
    dsimp only at h
    split at h
    · exact .inr ⟨.malformed, [], (takeFault_eq _ s).symm.trans (Host.Outcome.next.inj h) |>.symm, fun _ => rfl, by simp, by simp⟩
    · next hm => exact .inl ⟨by simpa using hm, (Host.Outcome.next.inj h).symm⟩
  | decData p =>
    refine withChecks_faulted ((exec_decData p s).symm.trans h) rfl fun h => ?_
    dsimp only at h
    split at h
    · exact .inr ⟨.overrun, [], (takeFault_eq _ s).symm.trans (Host.Outcome.next.inj h) |>.symm, fun _ => rfl, by simp, by simp⟩
    · next hc =>
      obtain ⟨h1, h2⟩ := hashGuard_next h
      have hf := decBlocks_frame Config.cfg (setCrem (s.crem - BitVec.ofNat 64 p.length) s) (blocksOf (resBytes s ++ p))
      have ho := decBlocks_dout Config.cfg (setCrem (s.crem - BitVec.ofNat 64 p.length) s) (blocksOf (resBytes s ++ p))
      revert h2 hf ho
      cases hd : decBlocks Config.cfg (setCrem (s.crem - BitVec.ofNat 64 p.length) s) (blocksOf (resBytes s ++ p)) with
      | error u =>
        intro h2 hf ⟨out, ho⟩
        refine .inr ⟨.padding, out, ?_, by simp, fun _ => ⟨p, rfl⟩, by simp⟩
        rw [← Host.Outcome.next.inj h2, takeFault_eq]
        rw [hf]
        simp [faulted, ho]
      | ok u =>
        intro h2 hf ho
        exact .inl ⟨by omega, by simpa [resBytes_length] using h1, u, hd, (Host.Outcome.next.inj h2).symm⟩
  | decFinal p =>
    refine withChecks_faulted ((exec_decFinal p s).symm.trans h) rfl fun h => ?_
    split at h
    · exact .inr ⟨.underrun, [], (takeFault_eq _ s).symm.trans (Host.Outcome.next.inj h) |>.symm, fun _ => rfl, by simp, by simp⟩
    · next hm => exact .inl ⟨by simpa using hm, (Host.Outcome.next.inj h).symm⟩
  | hashInit p => exact withChecks_performed ((exec_hashInit p s).symm.trans h) fun h => (Host.Outcome.next.inj h).symm
  | hashUpdate p =>
    refine withChecks_performed ((exec_hashUpdate p s).symm.trans h) fun h => ?_
    obtain ⟨h1, h2⟩ := hashGuard_next h
    exact ⟨h1, (Host.Outcome.next.inj h2).symm⟩
  | hashFinal p => exact withChecks_performed ((exec_hashFinal p s).symm.trans h) fun h => (Host.Outcome.next.inj h).symm

end Sys2Proof.Machine
end

