-- ==== Sys2Proof/Laws/Kdf.lean ====
section
/-! SUPPORT. Small lemmas of the KDF and the key schedule (`41_kdf.md` R132 to R136, `42_key_schedule.md` R150). -/

namespace Sys2Proof.Machine

@[simp] theorem absorb_nil (c : Cfg) (st : KdfState) : absorb c st [] = st := rfl

@[simp] theorem absorb_cons (c : Cfg) (st : KdfState) (x : Byte) (xs : List Byte) :
    absorb c st (x :: xs) = absorb c (absorbByte c st x) xs := rfl

/-- Absorbing a concatenation is absorbing its parts (R134). -/
theorem absorb_append (c : Cfg) (st : KdfState) (xs ys : List Byte) :
    absorb c st (xs ++ ys) = absorb c (absorb c st xs) ys := List.foldl_append

/-- Below `POS = 511` a byte is only written (R132). -/
theorem absorbByte_lt (c : Cfg) (st : KdfState) (x : Byte) (h : st.pos.val + 1 < 512) :
    absorbByte c st x = { absorbWrites c st x with pos := ⟨st.pos.val + 1, h⟩ } := by
  simp [absorbByte, h]

/-- At `POS = 511` the mixing pass runs and `POS` returns to 0 (R132). -/
theorem absorbByte_last (c : Cfg) (st : KdfState) (x : Byte) (h : st.pos.val = 511) :
    absorbByte c st x =
      { absorbWrites c st x with work := kdfMix c (absorbWrites c st x).work, pos := 0 } := by
  simp [absorbByte, h]

/-- `ACC`, `RS` and `POS` after one byte do not depend on the mixing pass (R133). -/
@[simp] theorem absorbByte_acc (c : Cfg) (st : KdfState) (x : Byte) :
    (absorbByte c st x).acc = st.acc.set st.pos.val (c.tsub (x ^^^ st.rs)) st.pos.isLt := by
  unfold absorbByte; split <;> rfl

@[simp] theorem absorbByte_rs (c : Cfg) (st : KdfState) (x : Byte) :
    (absorbByte c st x).rs = c.tsub (x ^^^ st.rs) := by
  unfold absorbByte; split <;> rfl

@[simp] theorem absorbByte_pos (c : Cfg) (st : KdfState) (x : Byte) :
    (absorbByte c st x).pos.val = (st.pos.val + 1) % 512 := by
  unfold absorbByte
  split
  · next h => exact (Nat.mod_eq_of_lt h).symm
  · next h =>
    have : st.pos.val + 1 = 512 := by omega
    simp [this]

/-- `POS` counts the absorbed bytes modulo 512 (R132). -/
theorem absorb_pos (c : Cfg) (st : KdfState) (xs : List Byte) :
    (absorb c st xs).pos.val = (st.pos.val + xs.length) % 512 := by
  induction xs generalizing st with
  | nil => exact (Nat.mod_eq_of_lt st.pos.isLt).symm
  | cons x xs ih => rw [absorb_cons, ih]; simp; omega

/-- One more round of a mixing pass (R133). -/
theorem mixRounds_succ (c : Cfg) (n : Nat) (work : Vector Byte 1536) (m : Byte) :
    mixRounds c (n + 1) work m =
      ((mixRound c (mixRounds c n work m).1 (mixRounds c n work m).2).1,
       (mixRound c (mixRounds c n work m).1 (mixRounds c n work m).2).2 + BitVec.ofNat 8 n) := rfl

/-- The `i`-th subkey (R150). -/
@[simp] theorem schedule_getElem (km : Vector Byte 512) (i : Nat) (h : i < 64) :
    (schedule km)[i] = be64 (bytesAt 8 (8 * i) km.toList) := by
  simp [schedule]

end Sys2Proof.Machine
end

