-- ==== Sys2Proof/Laws/PerInstr.lean ====
section
/-! SUPPORT. Facts about every command as syntax, one lemma per constructor of `Instr`. -/

namespace Sys2Proof.Laws

/-- The fields of a command's word (`30_encoding.md` R90): its opcode, 0, and its payload length. -/
def WordFields.Statement (i : Instr) : Prop :=
  i.framable = true →
    opcodeField (encodeWord i) = opcodeOf i ∧ rsvdField (encodeWord i) = 0 ∧ lenField (encodeWord i) = i.payload.length

/-- The fields of a word put together from an opcode and a length. -/
theorem fields_of_word (op : BitVec 8) (n : Nat) (h : n ≤ 65535) :
    opcodeField (op ++ (0 : BitVec 8) ++ BitVec.ofNat 16 n) = op ∧
      rsvdField (op ++ (0 : BitVec 8) ++ BitVec.ofNat 16 n) = 0 ∧
      lenField (op ++ (0 : BitVec 8) ++ BitVec.ofNat 16 n) = n := by
  refine ⟨?_, ?_, ?_⟩
  · apply BitVec.eq_of_getLsbD_eq
    intro i hi
    simp only [opcodeField, BitVec.getLsbD_extractLsb', BitVec.getLsbD_append]
    grind
  · apply BitVec.eq_of_getLsbD_eq
    intro i hi
    simp only [rsvdField, BitVec.getLsbD_extractLsb', BitVec.getLsbD_append]
    grind
  · have : BitVec.extractLsb' 0 16 (op ++ (0 : BitVec 8) ++ BitVec.ofNat 16 n) = BitVec.ofNat 16 n := by
      apply BitVec.eq_of_getLsbD_eq
      intro i hi
      simp only [BitVec.getLsbD_extractLsb', BitVec.getLsbD_append]
      grind
    unfold lenField
    rw [this, BitVec.toNat_ofNat]
    omega

theorem WordFields.nop (payload : List Byte) : WordFields.Statement (.nop payload) :=
  fun h => fields_of_word _ _ (of_decide_eq_true h)

theorem WordFields.zeroize (payload : List Byte) : WordFields.Statement (.zeroize payload) :=
  fun h => fields_of_word _ _ (of_decide_eq_true h)

theorem WordFields.abort (payload : List Byte) : WordFields.Statement (.abort payload) :=
  fun h => fields_of_word _ _ (of_decide_eq_true h)

theorem WordFields.rdStatus (payload : List Byte) : WordFields.Statement (.rdStatus payload) :=
  fun h => fields_of_word _ _ (of_decide_eq_true h)

theorem WordFields.kdfInit (payload : List Byte) : WordFields.Statement (.kdfInit payload) :=
  fun h => fields_of_word _ _ (of_decide_eq_true h)

theorem WordFields.kdfAbsorb (payload : List Byte) : WordFields.Statement (.kdfAbsorb payload) :=
  fun h => fields_of_word _ _ (of_decide_eq_true h)

theorem WordFields.kdfFinal (payload : List Byte) : WordFields.Statement (.kdfFinal payload) :=
  fun h => fields_of_word _ _ (of_decide_eq_true h)

theorem WordFields.kmRead (payload : List Byte) : WordFields.Statement (.kmRead payload) :=
  fun h => fields_of_word _ _ (of_decide_eq_true h)

theorem WordFields.ksDerive (payload : List Byte) : WordFields.Statement (.ksDerive payload) :=
  fun h => fields_of_word _ _ (of_decide_eq_true h)

theorem WordFields.ksLoad (payload : List Byte) : WordFields.Statement (.ksLoad payload) :=
  fun h => fields_of_word _ _ (of_decide_eq_true h)

theorem WordFields.blkEnc (payload : List Byte) : WordFields.Statement (.blkEnc payload) :=
  fun h => fields_of_word _ _ (of_decide_eq_true h)

theorem WordFields.blkDec (payload : List Byte) : WordFields.Statement (.blkDec payload) :=
  fun h => fields_of_word _ _ (of_decide_eq_true h)

theorem WordFields.encStart (payload : List Byte) : WordFields.Statement (.encStart payload) :=
  fun h => fields_of_word _ _ (of_decide_eq_true h)

theorem WordFields.encData (payload : List Byte) : WordFields.Statement (.encData payload) :=
  fun h => fields_of_word _ _ (of_decide_eq_true h)

theorem WordFields.encFinal (payload : List Byte) : WordFields.Statement (.encFinal payload) :=
  fun h => fields_of_word _ _ (of_decide_eq_true h)

theorem WordFields.decStart (payload : List Byte) : WordFields.Statement (.decStart payload) :=
  fun h => fields_of_word _ _ (of_decide_eq_true h)

theorem WordFields.decData (payload : List Byte) : WordFields.Statement (.decData payload) :=
  fun h => fields_of_word _ _ (of_decide_eq_true h)

theorem WordFields.decFinal (payload : List Byte) : WordFields.Statement (.decFinal payload) :=
  fun h => fields_of_word _ _ (of_decide_eq_true h)

theorem WordFields.hashInit (payload : List Byte) : WordFields.Statement (.hashInit payload) :=
  fun h => fields_of_word _ _ (of_decide_eq_true h)

theorem WordFields.hashUpdate (payload : List Byte) : WordFields.Statement (.hashUpdate payload) :=
  fun h => fields_of_word _ _ (of_decide_eq_true h)

theorem WordFields.hashFinal (payload : List Byte) : WordFields.Statement (.hashFinal payload) :=
  fun h => fields_of_word _ _ (of_decide_eq_true h)

end Sys2Proof.Laws
end

