-- ==== Sys2Proof/Tests/Slice0.lean ====
section
/-! SUPPORT. Tests. The expected values are the spec's own: its test vectors (`95_test_vectors.md`, numbers V<n>), the worked
examples of its rules, or hand computation by a rule, as each comment says. Then one named witness per statement with
hypotheses: a state and operands that meet all of them. -/

open Sys2Proof Sys2Proof.Machine

namespace Sys2Proof.Tests

/-! One theorem after the other: in parallel, every kernel evaluation below would ask for a thread of its own. -/
set_option Elab.async false

/-! ### Small states and a test configuration -/

/-- A state with a key and a given phase. -/
def inPhase (p : Phase) : State := { State.reset with phase := p, kv := true }

/-- A decryption that waits for `n` more ciphertext bytes, hash started. -/
def decrypting (n : Nat) : State :=
  { State.reset with phase := .dec, kv := true, crem := BitVec.ofNat 64 n, hash := hashInitial }

/-- The 512-byte string `00 01 .. ff 00 01 .. ff` of the vectors. -/
def ramp : List Byte := (List.range 512).map fun i => BitVec.ofNat 8 i

/-- `TSUB` of TI-1, row `r` holding the entries `16r .. 16r+15` (`95_test_vectors.md` section 2). -/
def ti1Rows : List (List Nat) :=
    [[0x5b, 0x59, 0x47, 0x50, 0x8b, 0x00, 0x52, 0xc6, 0x1b, 0x96, 0x56, 0x81, 0x1e, 0x35, 0xc8, 0x1d],
     [0x85, 0x33, 0x0a, 0xa5, 0x3a, 0xa2, 0x2a, 0x9e, 0xd0, 0xb7, 0xf6, 0xff, 0x21, 0x86, 0xd1, 0xd3],
     [0xd8, 0x8f, 0xac, 0xd4, 0xe7, 0x7c, 0x19, 0xbc, 0x3c, 0x70, 0xc7, 0xb0, 0x5e, 0x62, 0x5f, 0x74],
     [0xe0, 0xb1, 0xcb, 0xc1, 0xdb, 0xf9, 0x48, 0xe3, 0x09, 0x39, 0x27, 0x93, 0xe9, 0x8c, 0x30, 0x0b]] ++
    [[0xfc, 0xbb, 0x06, 0xa1, 0xc9, 0xb6, 0xba, 0x54, 0x73, 0x76, 0x72, 0x20, 0xd9, 0x83, 0xce, 0x65],
     [0x23, 0x9f, 0xf0, 0x2d, 0x16, 0x22, 0x04, 0x58, 0x95, 0xbe, 0xe8, 0xb9, 0x0d, 0x53, 0x41, 0x64],
     [0xe1, 0x66, 0x1a, 0x89, 0xfe, 0x69, 0xd6, 0x7b, 0x1f, 0x6a, 0x77, 0x3b, 0x6c, 0x1c, 0xb2, 0x45],
     [0xe5, 0xf5, 0x8d, 0x43, 0x34, 0xdf, 0xad, 0x88, 0x26, 0x87, 0x3f, 0xc5, 0x84, 0x97, 0xbf, 0xeb]] ++
    [[0x75, 0xd5, 0xe4, 0xaf, 0x2b, 0xfa, 0xb8, 0xed, 0xf2, 0x90, 0x14, 0x4c, 0xae, 0xda, 0xcf, 0xa4],
     [0x7f, 0xc4, 0xb4, 0xd7, 0xdd, 0xd2, 0xfd, 0x9a, 0x67, 0x6d, 0xcc, 0x68, 0x7d, 0x8e, 0x2e, 0x6e],
     [0x98, 0x9b, 0x28, 0x4e, 0x55, 0x5c, 0xca, 0x71, 0x11, 0x51, 0xfb, 0x24, 0xb3, 0x5d, 0xe6, 0xe2],
     [0xaa, 0xec, 0x4a, 0xa7, 0x02, 0x94, 0x31, 0x8a, 0xf7, 0xf3, 0x40, 0x05, 0x7e, 0x46, 0x49, 0x80]] ++
    [[0xc3, 0x13, 0xb5, 0x63, 0x37, 0xf1, 0x4b, 0x3e, 0xa6, 0x36, 0xc0, 0xa9, 0x38, 0x42, 0x78, 0xea],
     [0x0e, 0x17, 0x07, 0x15, 0x9d, 0x44, 0x29, 0x3d, 0x2f, 0x9c, 0x12, 0xa8, 0x82, 0x01, 0x7a, 0x0c],
     [0x6b, 0x57, 0xc2, 0x18, 0x25, 0xab, 0x08, 0x91, 0xbd, 0xde, 0x5a, 0xf8, 0xef, 0x60, 0x4d, 0x4f],
     [0x92, 0xf4, 0xa0, 0x03, 0x2c, 0xee, 0x0f, 0x61, 0x10, 0x79, 0xa3, 0xcd, 0x6f, 0x32, 0x99, 0xdc]]

/-- An entry of `TSUB` of TI-1. -/
def ti1Tsub (b : Byte) : Byte := BitVec.ofNat 8 ((ti1Rows.getD (b.toNat / 16) []).getD (b.toNat % 16) 0)

/-- TI-0: identity tables (V section 2). -/
def ti0 : Cfg := { perm4 := fun _ => Equiv.refl _, tsub := id }

/-- `TSUB` of TI-1 with identity 4-bit tables: the KDF reads `TSUB` alone. -/
def kdfCfg : Cfg := { perm4 := fun _ => Equiv.refl _, tsub := ti1Tsub }

/-- A table of nibbles as a function. -/
def nibbles (l : List Nat) (v : Nibble) : Nibble := BitVec.ofNat 4 (l.getD v.toNat 0)

/-- `PERM4[0]` and `PERM4[1]` of TI-1 (V section 2), every other table the identity. -/
def sboxCfg : Cfg where
  perm4 j :=
    if j = 0 then
      { toFun := nibbles [0xf, 0xc, 0x1, 0x0, 0x6, 0xb, 0x7, 0x9, 0x3, 0xd, 0xa, 0x4, 0xe, 0x5, 0x8, 0x2]
        invFun := nibbles [3, 2, 15, 8, 11, 13, 4, 6, 14, 7, 10, 5, 1, 9, 12, 0]
        left_inv := by intro v; revert v; decide
        right_inv := by intro v; revert v; decide }
    else if j = 1 then
      { toFun := nibbles [0x6, 0x3, 0xe, 0x0, 0xd, 0x4, 0x9, 0x7, 0x2, 0x1, 0xc, 0xa, 0xf, 0x5, 0xb, 0x8]
        invFun := nibbles [3, 9, 8, 1, 5, 13, 0, 7, 15, 6, 11, 14, 10, 4, 2, 12]
        left_inv := by intro v; revert v; decide
        right_inv := by intro v; revert v; decide }
    else Equiv.refl _
  tsub := id

/-- The key schedule of the ramp (V20). -/
def rampKey : Vector Word64 64 := schedule (operandKm ramp)

/-- `STATUS` and the bytes emitted after one command, where it gives a next state. -/
def after (i : Instr) (s : State) : Option (Word32 × List Byte) :=
  match exec i s with
  | .next t => some (status t, t.dout)
  | _ => none

/-- `STATUS` and the bytes emitted after one step, where it gives a next state. -/
def afterStep (s : State) : Option (Word32 × List Byte) :=
  match step s with
  | .next t => some (status t, t.dout)
  | _ => none

/-- A test of the next state. -/
def nextIs (o : Host.Outcome State Fault Refusal) (f : State → Bool) : Bool :=
  match o with
  | .next t => f t
  | _ => false

/-! ### WellFormed: an ill-formed term for each check -/

/-- The `len` field cannot announce 65536 bytes (R90). -/
theorem test_wellFormed_refuses_long_payload : (Instr.encData (List.replicate 65536 0)).wellFormed = false := by
  have h : ∀ n, 65535 < n → (Instr.encData (List.replicate n 0)).wellFormed = false := by
    intro n hn
    simp [Instr.wellFormed, Instr.framable, Instr.payload, maxPayload, hn]
  exact h 65536 (by decide)

/-- ENC_START needs 16 bytes (R94; V60 row "ENC_START with `len = 15`"). -/
theorem test_wellFormed_refuses_wrong_length : (Instr.encStart (List.replicate 15 0)).wellFormed = false := by decide

theorem test_wellFormed_accepts : (Instr.encStart (List.replicate 16 0)).wellFormed = true := by decide

/-! ### Decode: one word for every opcode, written out from R90 and R93 (`opcode << 24 | len`) -/

theorem test_decode_nop : decode 0x00000000 [] = .ok (.nop []) := by decide

theorem test_decode_zeroize : decode 0x01000000 [] = .ok (.zeroize []) := by decide

theorem test_decode_abort : decode 0x02000000 [] = .ok (.abort []) := by decide

theorem test_decode_rdStatus : decode 0x03000000 [] = .ok (.rdStatus []) := by decide

theorem test_decode_kdfInit : decode 0x10000000 [] = .ok (.kdfInit []) := by decide

/-- P1, second row. -/
theorem test_decode_kdfAbsorb : decode 0x11000004 [0x74, 0x65, 0x73, 0x74] = .ok (.kdfAbsorb [0x74, 0x65, 0x73, 0x74]) := by
  decide

theorem test_decode_kdfFinal : decode 0x12000000 [] = .ok (.kdfFinal []) := by decide

theorem test_decode_kmRead : decode 0x13000000 [] = .ok (.kmRead []) := by decide

theorem test_decode_ksDerive : decode 0x14000000 [] = .ok (.ksDerive []) := by decide

theorem test_decode_ksLoad : decode 0x15000200 ramp = .ok (.ksLoad ramp) := by decide +kernel

theorem test_decode_blkEnc : decode 0x20000010 (List.replicate 16 7) = .ok (.blkEnc (List.replicate 16 7)) := by decide

theorem test_decode_blkDec : decode 0x21000010 (List.replicate 16 7) = .ok (.blkDec (List.replicate 16 7)) := by decide

theorem test_decode_encStart : decode 0x30000010 (List.replicate 16 7) = .ok (.encStart (List.replicate 16 7)) := by decide

/-- The example of R100. -/
theorem test_decode_encData :
    decode 0x31000010 [0x41, 0x42, 0x43, 0x44, 0x45, 0x46, 0x47, 0x48, 0x49, 0x4a, 0x4b, 0x4c, 0x4d, 0x4e, 0x4f, 0x50]
      = .ok (.encData [0x41, 0x42, 0x43, 0x44, 0x45, 0x46, 0x47, 0x48, 0x49, 0x4a, 0x4b, 0x4c, 0x4d, 0x4e, 0x4f, 0x50]) := by
  decide

theorem test_decode_encFinal : decode 0x32000000 [] = .ok (.encFinal []) := by decide

theorem test_decode_decStart : decode 0x38000018 (List.replicate 24 7) = .ok (.decStart (List.replicate 24 7)) := by decide

theorem test_decode_decData : decode 0x39000003 [1, 2, 3] = .ok (.decData [1, 2, 3]) := by decide

theorem test_decode_decFinal : decode 0x3a000020 (List.replicate 32 7) = .ok (.decFinal (List.replicate 32 7)) := by decide

theorem test_decode_hashInit : decode 0x40000000 [] = .ok (.hashInit []) := by decide

/-- The example of R188. -/
theorem test_decode_hashUpdate : decode 0x41000003 [0x61, 0x62, 0x63] = .ok (.hashUpdate [0x61, 0x62, 0x63]) := by decide

theorem test_decode_hashFinal : decode 0x42000000 [] = .ok (.hashFinal []) := by decide

/-- R254: opcode `0x99` with `rsvd = 1` is rejected; either name is `E_ILLEGAL`. -/
theorem test_decode_refuses :
    decode 0x99000000 [] = .error (.undefinedOpcode 0x99) ∧ decode 0x00010000 [] = .error (.reservedNonzero 1) ∧
      decode 0x99010000 [] = .error (.reservedNonzero 1) ∧ decode 0x33000000 [] = .error (.undefinedOpcode 0x33) := by
  decide

/-- The opcode table's number for KS_LOAD, its payload all zero. -/
theorem test_decodeTableWord : decodeTableWord 32 0x15000200 = some (.ksLoad (List.replicate 512 0)) := by decide +kernel

/-- R100: the assembler line of a command. -/
theorem test_asmLine : asmLine (.encData [0x00, 0x1f, 0xff]) = "ENC_DATA 00 1f ff" := by decide +kernel

/-! ### System commands and faults (V60 to V62, R240 to R243) -/

/-- The example of R240: NOP in phase `ENC` with `RLEN = 5`. -/
theorem test_nop : nextIs (exec (.nop []) { inPhase .enc with rlen := 5 }) (fun t => t.rlen == 5 && t.phase == .enc) = true := by
  decide +kernel

/-- The example of R241: after a padding fault (`STATUS = 0x00000207`), ZEROIZE gives `STATUS = 0`. -/
theorem test_zeroize : after (.zeroize []) { State.reset with phase := .fault, err := 0x02 } = some (0, []) := by
  decide +kernel

/-- V62: ABORT with `RLEN = 3` gives `STATUS = 0x00000008`, `RLEN = 0` and `K[0]` kept. -/
theorem test_abort :
    nextIs (exec (.abort []) { inPhase .enc with k := rampKey, rlen := 3, res := bytesAt 16 0 [0x61, 0x62, 0x63] })
      (fun t => status t == 0x00000008 && t.rlen == 0 && t.res == Vector.replicate 16 0 && t.k[0] == 0x0001020304050607)
      = true := by
  decide +kernel

/-- V61: ABORT is ignored in phase `FAULT`. -/
theorem test_abort_ignored :
    after (.abort []) { State.reset with phase := .fault, err := 0x10 } = some (0x00001007, []) := by decide +kernel

/-- R243: after a good decryption RD_STATUS emits `00 00 00 38`. -/
theorem test_rdStatus :
    after (.rdStatus []) { inPhase .idle with av := true, aok := true } = some (0x00000038, [0x00, 0x00, 0x00, 0x38]) := by
  decide +kernel

/-- R243: after a padding fault RD_STATUS emits `00 00 02 07`. -/
theorem test_rdStatus_fault :
    after (.rdStatus []) { State.reset with phase := .fault, err := 0x02 } = some (0x00000207, [0x00, 0x00, 0x02, 0x07]) := by
  decide +kernel

/-- V60: undefined opcode and `rsvd != 0` and odd `len`: `E_ILLEGAL`, its payload byte consumed. -/
theorem test_illegal :
    nextIs (step { State.reset with cmd := [0xff7f0001], din := [1, 2] })
      (fun t => status t == 0x00001007 && t.din == [2] && t.cmd == []) = true := by decide +kernel

/-- V61: in phase `FAULT` ZEROIZE with `len = 1` is ignored, its byte consumed. -/
theorem test_fault_ignores :
    nextIs (step { State.reset with phase := .fault, err := 0x10, cmd := [0x01000001], din := [9] })
      (fun t => status t == 0x00001007 && t.din == []) = true := by decide +kernel

/-- V60: ENC_START with `len = 3` in `KDF_ABS` without a key is `E_BAD_LEN`; with `len = 16` `E_BAD_PHASE`. -/
theorem test_admission_order :
    after (.encStart [0, 0, 0]) { State.reset with phase := .kdfAbs } = some (0x00001107, []) ∧
      after (.encStart (List.replicate 16 0)) { State.reset with phase := .kdfAbs } = some (0x00001207, []) := by
  decide +kernel

/-! ### KDF and key schedule -/

/-- R131: from reset KDF_INIT leaves `STATUS = 0x00000001`. -/
theorem test_kdfInit : after (.kdfInit []) State.reset = some (0x00000001, []) := by decide +kernel

/-- V60: KDF_ABSORB in `IDLE` is `E_BAD_PHASE`. -/
theorem test_kdfAbsorb_badPhase : after (.kdfAbsorb [7]) State.reset = some (0x00001207, []) := by decide +kernel

/-- V10: absorbing "test" under TI-1. -/
theorem test_kdfAbsorb :
    let st := absorb kdfCfg KdfState.zero [0x74, 0x65, 0x73, 0x74]
    st.pos = 4 ∧ st.rs = 0x68 ∧ st.acc.toList.take 5 = [0x34, 0x9f, 0xef, 0x68, 0] ∧
      st.work.toList.take 5 = [0x74, 0x65, 0x73, 0x74, 0] ∧
      (st.work.toList.drop 512).take 5 = [0x74, 0x65, 0x73, 0x74, 0] ∧
      (st.work.toList.drop 1024).take 5 = [0x74, 0x65, 0x73, 0x74, 0] := by
  decide +kernel

/-- V12: four absorbed bytes leave `rem = 508`, pad byte `fc`; V13: `rem = 512` and 256 pad with `00`, 257 with `01`. -/
theorem test_kdfFinal_padByte :
    kdfPadByte 508 = 0xfc ∧ kdfPadByte 512 = 0 ∧ kdfPadByte 256 = 0 ∧ kdfPadByte 257 = 1 := by decide

/-- V15 (a): the first four byte steps of a mixing pass on zeros under TI-1. -/
theorem test_kdfFinal_mixing :
    mixBytes kdfCfg mixSeed [0, 0, 0, 0] = ([0x5b, 0xb9, 0xf3, 0x03], 0x03) := by decide +kernel

/-- R136: KM_READ emits `WORK[0..511]` and leaves `STATUS = 0x00000002`. -/
theorem test_kmRead :
    after (.kmRead []) { State.reset with phase := .kdfRdy, kdf := { KdfState.zero with work := bytesAt 1536 0 ramp } }
      = some (0x00000002, ramp) := by
  decide +kernel

/-- The example of R151: `K[0]` and `K[1]` of the KeyMaterial of V12; the KDF is wiped and `STATUS = 0x00000008`. -/
theorem test_ksDerive :
    nextIs (exec (.ksDerive []) { State.reset with
        phase := .kdfRdy
        kdf := { acc := Vector.replicate 512 1, rs := 1, pos := 0
                 work := bytesAt 1536 0 [0x0a, 0xbe, 0x45, 0xc0, 0xbd, 0xb0, 0xc2, 0xbe,
                   0xac, 0xce, 0x09, 0xdd, 0x90, 0x09, 0x68, 0xf0] } })
      (fun t => t.k[0] == 0x0abe45c0bdb0c2be && t.k[1] == 0xacce09dd900968f0 && t.kdf.rs == 0 && t.kdf.acc[511] == 0 && t.kdf.work[0] == 0
        && status t == 0x00000008) = true := by
  decide +kernel

/-- V20: KS_LOAD of the ramp. -/
theorem test_ksLoad :
    nextIs (exec (.ksLoad ramp) State.reset)
      (fun t => t.k[0] == 0x0001020304050607 && t.k[1] == 0x08090a0b0c0d0e0f && t.k[31] == 0xf8f9fafbfcfdfeff
        && t.k[32] == 0x0001020304050607 && t.k[63] == 0xf8f9fafbfcfdfeff && t.kv) = true := by
  decide +kernel

/-- V60: KS_LOAD with `len = 511` is `E_BAD_LEN`. -/
theorem test_ksLoad_badLen : after (.ksLoad (ramp.take 511)) State.reset = some (0x00001107, []) := by decide +kernel

/-! ### Block cipher -/

/-- V4: `T[0][ab] = c4`, `T[0][00] = 6f` under TI-1; V2: `T[0][ff] = 82`. -/
theorem test_sbox : sbox sboxCfg 0 0xab = 0xc4 ∧ sbox sboxCfg 0 0x00 = 0x6f ∧ sbox sboxCfg 0 0xff = 0x82 := by
  decide +kernel

/-- V22: `BC.f` under TI-0. Hand computation by R160: with `PERM4[0]`, `PERM4[1]` of TI-1 only lane 4 is substituted, so
`f(0)` is `0000006f00000000` rotated left by 11. -/
theorem test_roundF :
    roundF ti0 0x0123456789abcdef = 0x1a2b3c4d5e6f7809 ∧ roundF ti0 0x8000000000000000 = 0x0000000000000400 ∧
      roundF sboxCfg 0 = 0x0003780000000000 := by
  decide +kernel

/-- V23: BLK_ENC under TI-0 with the ramp key, block `00 01 .. 0f`. -/
theorem test_blkEnc :
    blockEncrypt ti0 rampKey (bytesAt 16 0 ramp) = #v[0x51, 0x46, 0x73, 0x9b, 0xd0, 0x18, 0xee, 0xe0,
      0x7f, 0xae, 0xb9, 0x2a, 0x05, 0xc7, 0x62, 0x81] := by
  decide +kernel

/-- V60: BLK_ENC without a key is `E_NO_KEY`. -/
theorem test_blkEnc_noKey : after (.blkEnc (List.replicate 16 0)) State.reset = some (0x00001307, []) := by decide +kernel

/-- V23: BLK_DEC under TI-0 with the ramp key, block `00 01 .. 0f`. -/
theorem test_blkDec :
    blockDecrypt ti0 rampKey (bytesAt 16 0 ramp) = #v[0x7e, 0x9c, 0xc9, 0xef, 0x30, 0xa0, 0x5d, 0x83,
      0x5c, 0x7a, 0xc1, 0xc2, 0xbc, 0x09, 0x6e, 0x0a] := by
  decide +kernel

/-! ### Chained mode -/

/-- The example of R200: ENC_START emits the IV and leaves `STATUS = 0x0000000b`. -/
theorem test_encStart :
    after (.encStart (List.replicate 16 0)) { inPhase .idle with av := true, aok := true }
      = some (0x0000000b, List.replicate 16 0) := by
  decide +kernel

/-- V42: after ENC_START and ENC_DATA `68 65`, `RLEN = 2`, `RES = 68 65 00 ..`, nothing emitted. -/
theorem test_encData_residual :
    nextIs (exec (.encData [0x68, 0x65]) (inPhase .enc))
      (fun t => t.rlen == 2 && t.res == bytesAt 16 0 [0x68, 0x65] && t.dout == [] && status t == 0x0000000b) = true := by
  decide +kernel

/-- R201 with V23 (TI-0, ramp key, block `00 01 .. 0f`): a block XOR `CHAIN = ff x 16` is encrypted, emitted, chained, hashed. -/
theorem test_encData_block :
    let s := encBlock ti0 { inPhase .enc with k := rampKey, chain := Vector.replicate 16 0xff }
      (xorBytes (bytesAt 16 0 ramp) (Vector.replicate 16 0xff))
    s.dout = [0x51, 0x46, 0x73, 0x9b, 0xd0, 0x18, 0xee, 0xe0, 0x7f, 0xae, 0xb9, 0x2a, 0x05, 0xc7, 0x62, 0x81] ∧
      s.chain.toList = s.dout ∧ s.hash.nbytes = 16 ∧ s.hash.buf.toList.take 16 = s.dout := by
  decide +kernel

/-- V43: padding of 0, 15 and 4 residual bytes. -/
theorem test_encFinal_pad :
    padBlock [] = Vector.replicate 16 0x10 ∧ padBlock (ramp.take 15) = bytesAt 16 0 (ramp.take 15 ++ [1]) ∧
      padBlock (ramp.take 4) = bytesAt 16 0 (ramp.take 4 ++ List.replicate 12 0x0c) := by
  decide +kernel

/-- R203: ENC_FINAL in `IDLE` is `E_BAD_PHASE`. -/
theorem test_encFinal_badPhase : after (.encFinal []) (inPhase .idle) = some (0x00001207, []) := by decide +kernel

/-- The example of R206: `L = 80` sets `CREM = 32` and `STATUS = 0x0000000c`. -/
theorem test_decStart :
    nextIs (exec (.decStart ([0, 0, 0, 0, 0, 0, 0, 0x50] ++ ramp.take 16)) (inPhase .idle))
      (fun t => t.crem == 32 && t.chain == bytesAt 16 0 ramp && status t == 0x0000000c) = true := by
  decide +kernel

/-- V60: `L = 48` is malformed, and `L = 64` is legal. -/
theorem test_decStart_malformed :
    after (.decStart ([0, 0, 0, 0, 0, 0, 0, 48] ++ ramp.take 16)) (inPhase .idle) = some (0x00000107, []) ∧
      after (.decStart ([0, 0, 0, 0, 0, 0, 0, 64] ++ ramp.take 16)) (inPhase .idle) = some (0x0000000c, []) := by
  decide +kernel

/-- V60: DEC_DATA of 17 bytes when `CREM = 16` is `E_OVERRUN`. -/
theorem test_decData_overrun : after (.decData (ramp.take 17)) (decrypting 16) = some (0x00001407, []) := by decide +kernel

/-- R207, R208 with V23 (TI-0, ramp key, BLK_DEC of `00 01 .. 0f`): as the last block, its pad byte `0a` is followed by no ten
equal bytes, so the padding is invalid; as an earlier block it is emitted whole. -/
theorem test_decData_block :
    (match decBlocks ti0 { inPhase .dec with k := rampKey } [bytesAt 16 0 ramp] with
      | .error t => t.dout == [] && t.hash.nbytes == 16
      | .ok _ => false) = true ∧
    (match decBlocks ti0 { inPhase .dec with k := rampKey, crem := 16 } [bytesAt 16 0 ramp] with
      | .ok t => t.dout == [0x7e, 0x9c, 0xc9, 0xef, 0x30, 0xa0, 0x5d, 0x83,
          0x5c, 0x7a, 0xc1, 0xc2, 0xbc, 0x09, 0x6e, 0x0a] && t.chain == bytesAt 16 0 ramp
      | .error _ => false) = true := by
  decide +kernel

/-- V30 with R212: the digest of no ciphertext is the digest of the empty string, so this tag is good. -/
theorem test_decFinal :
    after (.decFinal [0xe3, 0xb0, 0xc4, 0x42, 0x98, 0xfc, 0x1c, 0x14, 0x9a, 0xfb, 0xf4, 0xc8, 0x99, 0x6f, 0xb9, 0x24,
        0x27, 0xae, 0x41, 0xe4, 0x64, 0x9b, 0x93, 0x4c, 0xa4, 0x95, 0x99, 0x1b, 0x78, 0x52, 0xb8, 0x55]) (decrypting 0)
      = some (0x00000038, []) ∧
    after (.decFinal (List.replicate 32 0)) (decrypting 0) = some (0x00000018, []) := by
  decide +kernel

/-- V60: DEC_FINAL when `CREM = 16` is `E_UNDERRUN`. -/
theorem test_decFinal_underrun :
    after (.decFinal (List.replicate 32 0)) (decrypting 16) = some (0x00001507, []) := by decide +kernel

/-! ### Integrity hash -/

/-- The example of R187. -/
theorem test_hashInit :
    nextIs (exec (.hashInit []) State.reset) (fun t => t.hash.h[0] == 0x6a09e667 && t.hash.nbytes == 0
      && status t == 0x00000005) = true := by decide +kernel

/-- The example of R188. -/
theorem test_hashUpdate :
    nextIs (exec (.hashUpdate [0x61, 0x62, 0x63]) { State.reset with phase := .hash, hash := hashInitial })
      (fun t => t.hash.nbytes == 3 && t.hash.buf == bytesAt 64 0 [0x61, 0x62, 0x63] && t.hash.h == shaH0) = true := by
  decide +kernel

/-- V35: the chaining words after `61 x 64`. -/
theorem test_hashUpdate_block :
    (hashBytes hashInitial (List.replicate 64 0x61)).h = #v[0xdf5bb81c, 0xe81e0626, 0xfb45a894, 0x4fd40f31,
      0xb25e6816, 0xd6d499c1, 0xab904929, 0x00635e66] := by
  decide +kernel

/-- V30: the digest of the empty message. -/
theorem test_hashFinal_empty :
    after (.hashFinal []) { State.reset with phase := .hash, hash := hashInitial } = some (0x00000000,
      [0xe3, 0xb0, 0xc4, 0x42, 0x98, 0xfc, 0x1c, 0x14, 0x9a, 0xfb, 0xf4, 0xc8, 0x99, 0x6f, 0xb9, 0x24,
       0x27, 0xae, 0x41, 0xe4, 0x64, 0x9b, 0x93, 0x4c, 0xa4, 0x95, 0x99, 0x1b, 0x78, 0x52, 0xb8, 0x55]) := by
  decide +kernel

/-- V34b: `61 x 56`, the shortest message whose padding needs a second block. -/
theorem test_hashFinal_two_blocks :
    (hashDigest (hashBytes hashInitial (List.replicate 56 0x61))).toList =
      [0xb3, 0x54, 0x39, 0xa4, 0xac, 0x6f, 0x09, 0x48, 0xb6, 0xd6, 0xf9, 0xe3, 0xc6, 0xaf, 0x0f, 0x5f,
       0x59, 0x0c, 0xe2, 0x0f, 0x1b, 0xde, 0x70, 0x90, 0xef, 0x79, 0x70, 0x68, 0x6e, 0xc6, 0x73, 0x8a] := by
  decide +kernel

/-- The first 64 primes, 2 to 311: below 18 * 18, no divisor under 18. -/
def primes64 : List Nat :=
  (List.range 312).filter fun n => 2 ≤ n && (List.range 18).all fun d => d < 2 || n ≤ d || n % d != 0

/-- R185's definition of `SHA_K`: with `m` the whole part of the cube root of the prime, `m * 2^32 + SHA_K[t]` is the whole
part of the cube root of the prime times `2^96`. -/
theorem test_shaK_cube_roots :
    primes64.length = 64 ∧ ∀ t : Fin 64,
      let p := primes64.getD t 0
      let n := ((List.range 6).countP fun k => (k + 1) ^ 3 ≤ p) * 2 ^ 32 + shaK[t].toNat
      n ^ 3 ≤ p * 2 ^ 96 ∧ p * 2 ^ 96 < (n + 1) ^ 3 := by
  decide +kernel

/-! ### Witnesses: a state and operands that meet all hypotheses of each statement together -/

/-- Every payload length the word can announce, 0 and 65535 included. -/
theorem witness_DecodeInvertsEncode (n : Nat) (h : n ≤ 65535) : (Instr.encData (List.replicate n 0)).framable = true := by
  simp [Instr.framable, Instr.payload, maxPayload, h]

theorem witness_EncodeInvertsDecode : decode 0x41000003 [0x61, 0x62, 0x63] = .ok (.hashUpdate [0x61, 0x62, 0x63]) := by
  decide

/-- `OpcodeMap`: a word of the map, and a word that matches no entry. -/
theorem witness_OpcodeMap :
    ([1, 2, 3] : List Byte).length = (0x31000003 : Word32).toNat % 2 ^ 16 ∧ (0x31000003 : Word32).toNat / 2 ^ 16 = 2 ^ 8 * 0x31 ∧
    ([] : List Byte).length = (0x33000000 : Word32).toNat % 2 ^ 16 ∧
      ∀ op ∈ [0x00, 0x01, 0x02, 0x03, 0x10, 0x11, 0x12, 0x13, 0x14, 0x15, 0x20, 0x21, 0x30, 0x31, 0x32, 0x38, 0x39, 0x3A,
        0x40, 0x41, 0x42], (0x33000000 : Word32).toNat / 2 ^ 16 ≠ 2 ^ 8 * op := by
  decide

theorem witness_StepRunsTheDecodedCommand :
    ∃ (s : State) (w : Word32) (ws : List Word32) (payload rest : List Byte) (i : Instr), s.cmd = w :: ws ∧
      s.din = payload ++ rest ∧ payload.length = w.toNat % 2 ^ 16 ∧ decode w payload = .ok i :=
  ⟨{ inPhase .hash with cmd := [0x41000002], din := [1, 2, 3] }, 0x41000002, [], [1, 2], [3], .hashUpdate [1, 2],
    rfl, rfl, by decide, by decide⟩

/-- Both clauses: no word, and a word whose last payload byte is missing. -/
theorem witness_StepWaitsForACompleteCommand :
    State.reset.cmd = [] ∧
    ∃ (s : State) (w : Word32) (ws : List Word32), s.cmd = w :: ws ∧ s.din.length < w.toNat % 2 ^ 16 :=
  ⟨rfl, { State.reset with cmd := [0x41000002], din := [1] }, 0x41000002, [], rfl, by decide⟩

theorem witness_StepConsumesTheFramedPayload :
    ∃ (s t : State) (w : Word32) (ws : List Word32), s.cmd = w :: ws ∧ step s = .next t :=
  ⟨{ State.reset with cmd := [0x99000001], din := [1] }, _, 0x99000001, [], rfl, rfl⟩

theorem witness_StepOutputIsAppendOnly : ∃ s t : State, s.cmd ≠ [] ∧ step s = .next t :=
  ⟨{ State.reset with cmd := [0x03000000] }, _, by decide, rfl⟩

/-- An undefined opcode, and a defined one with `rsvd = 1`, in phase `IDLE` and in phase `FAULT`. -/
theorem witness_IllegalWordsFaultOrAreIgnored :
    (([7] : List Byte).length = (0x98000001 : Word32).toNat % 2 ^ 16 ∧
      (0x98000001 : Word32).toNat / 2 ^ 24 ∉ [0x00, 0x01, 0x02, 0x03, 0x10, 0x11, 0x12, 0x13, 0x14, 0x15, 0x20, 0x21, 0x30,
        0x31, 0x32, 0x38, 0x39, 0x3A, 0x40, 0x41, 0x42]) ∧
    (([7] : List Byte).length = (0x31010001 : Word32).toNat % 2 ^ 16 ∧ (0x31010001 : Word32).toNat / 2 ^ 16 % 2 ^ 8 ≠ 0) ∧
    (∀ w, ∃ s : State, s.phase ≠ .fault ∧ s.cmd = w :: [] ∧ s.din = [7] ++ []) ∧
    (∀ w, ∃ s : State, s.phase = .fault ∧ s.cmd = w :: [] ∧ s.din = [7] ++ []) :=
  ⟨by decide, by decide, fun w => ⟨{ State.reset with cmd := [w], din := [7] }, nofun, rfl, rfl⟩,
    fun w => ⟨{ State.reset with phase := .fault, err := 0x10, cmd := [w], din := [7] }, rfl, rfl, rfl⟩⟩

theorem witness_StepIsTotalOnCompleteCommands :
    ∃ (s : State) (w : Word32) (ws : List Word32), s.cmd = w :: ws ∧ w.toNat % 2 ^ 16 ≤ s.din.length :=
  ⟨{ State.reset with cmd := [0x41000002], din := [1, 2] }, 0x41000002, [], rfl, by decide⟩

/-- The lengths next to each fixed one. -/
theorem witness_WrongLengthFaults :
    State.reset.phase ≠ .fault ∧ [(0 : Byte)].length ≠ 0 ∧ (List.replicate 511 (0 : Byte)).length ≠ 512 ∧
      (List.replicate 513 (0 : Byte)).length ≠ 512 ∧ (List.replicate 15 (0 : Byte)).length ≠ 16 ∧
      (List.replicate 17 (0 : Byte)).length ≠ 16 ∧ (List.replicate 23 (0 : Byte)).length ≠ 24 ∧
      (List.replicate 25 (0 : Byte)).length ≠ 24 ∧ (List.replicate 31 (0 : Byte)).length ≠ 32 ∧
      (List.replicate 33 (0 : Byte)).length ≠ 32 := by
  decide +kernel

/-- Phase `HASH` is wrong for every clause but the last, phase `IDLE` for the last. -/
theorem witness_WrongPhaseFaults :
    (inPhase .hash).phase ∉ [Phase.fault, .idle, .kdfAbs, .kdfRdy, .enc, .dec] ∧ (inPhase .idle).phase ∉ [Phase.fault, .hash] ∧
      (List.replicate 512 (0 : Byte)).length = 512 ∧ (List.replicate 16 (0 : Byte)).length = 16 ∧
      (List.replicate 24 (0 : Byte)).length = 24 ∧ (List.replicate 32 (0 : Byte)).length = 32 := by
  decide +kernel

theorem witness_MissingKeyFaults :
    State.reset.phase = .idle ∧ State.reset.kv = false ∧ (List.replicate 16 (0 : Byte)).length = 16 ∧
      (List.replicate 24 (0 : Byte)).length = 24 := by
  simp [State.reset]

/-- An ignored word (ZEROIZE with a payload byte), RD_STATUS and ZEROIZE in phase `FAULT`. -/
theorem witness_FaultPhaseIgnoresOtherWords :
    ∀ c ∈ [((0x01000001 : Word32), [(9 : Byte)]), (0x03000000, []), (0x01000000, [])],
      ∃ s : State, s.phase = .fault ∧ s.cmd = c.1 :: [] ∧ s.din = c.2 ++ [] ∧ c.2.length = c.1.toNat % 2 ^ 16 := by
  intro c hc
  refine ⟨{ State.reset with phase := .fault, err := 0x10, cmd := [c.1], din := c.2 ++ [] }, rfl, rfl, rfl, ?_⟩
  revert c
  decide

theorem witness_FaultEntryZeroesEverything :
    ∃ (i : Instr) (s t : State), s.phase ≠ .fault ∧ exec i s = .next t ∧ t.phase = .fault :=
  ⟨.encData [1], inPhase .idle, _, by decide, rfl, rfl⟩

theorem witness_OnlyZeroizeLeavesFault :
    ∃ s t : State, s.phase = .fault ∧ step s = .next t ∧ t.phase ≠ .fault :=
  ⟨{ State.reset with phase := .fault, err := 0x10, cmd := [0x01000000, 0] }, _, rfl, rfl, by decide⟩

theorem witness_PhaseMovesAlongTheGraph :
    ∃ (i : Instr) (s t : State), exec i s = .next t ∧ t.phase ≠ s.phase :=
  ⟨.kdfInit [], inPhase .kdfRdy, _, rfl, by decide⟩

/-- A key load, a cleared flag and a written error. -/
theorem witness_FlagsAndKeyHaveFewWriters :
    (∃ (i : Instr) (s t : State), exec i s = .next t ∧ (t.k ≠ s.k ∨ t.kv ≠ s.kv)) ∧
    (∃ (i : Instr) (s t : State), exec i s = .next t ∧ (t.av ≠ s.av ∨ t.aok ≠ s.aok)) ∧
    (∃ (i : Instr) (s t : State), exec i s = .next t ∧ t.err ≠ s.err) :=
  ⟨⟨.ksDerive [], { State.reset with phase := .kdfRdy }, _, rfl, .inr (by decide)⟩,
    ⟨.abort [], { inPhase .idle with av := true }, _, rfl, .inl (by decide)⟩,
    ⟨.kmRead [], State.reset, _, rfl, by decide⟩⟩

theorem witness_AbortKeepsOnlyTheKey : (inPhase .enc).phase ≠ .fault := by decide

theorem witness_KdfInitZeroesTheKdf :
    ∀ p ∈ [Phase.idle, .kdfAbs, .kdfRdy], (inPhase p).phase ∈ [Phase.idle, .kdfAbs, .kdfRdy] := by decide

/-- Both clauses on `POS`: 510, the last value that only counts, and 511. -/
theorem witness_AbsorbedByteWrites :
    ∀ pos ∈ [(0 : Fin 512), 510, 511], ∃ s : State, s.phase = .kdfAbs ∧ s.kdf.pos = pos :=
  fun pos _ => ⟨{ State.reset with phase := .kdfAbs, kdf := { KdfState.zero with pos := pos } }, rfl, rfl⟩

theorem witness_KdfAbsorbIgnoresChunkBoundaries : (inPhase .kdfAbs).phase = .kdfAbs := by decide

/-- `POS = 0` (no byte in the block) and `POS = 511` (one pad byte). -/
theorem witness_KdfFinalResult :
    ∀ pos ∈ [(0 : Fin 512), 511], ∃ s : State, s.phase = .kdfAbs ∧ s.kdf.pos = pos :=
  fun pos _ => ⟨{ State.reset with phase := .kdfAbs, kdf := { KdfState.zero with pos := pos } }, rfl, rfl⟩

theorem witness_KmReadEmitsKeyMaterial : (inPhase .kdfRdy).phase = .kdfRdy := by decide

/-- Two engines with equal `RS` and different `ACC`. -/
theorem witness_OnlyTheRunningScalarSurvivesABlock :
    ∃ s1 s2 : State, s1.phase = .kdfAbs ∧ s2.phase = .kdfAbs ∧ s1.kdf.pos = 0 ∧ s2.kdf.pos = 0 ∧ s1.kdf.rs = s2.kdf.rs ∧
      s1.kdf.acc[0] ≠ s2.kdf.acc[0] :=
  ⟨{ State.reset with phase := .kdfAbs, kdf := { KdfState.zero with rs := 5 } },
    { State.reset with phase := .kdfAbs, kdf := { KdfState.zero with rs := 5, acc := KdfState.zero.acc.set 0 1 } },
    rfl, rfl, rfl, rfl, rfl, by simp [KdfState.zero]⟩

theorem witness_KsLoadWritesTheSchedule :
    State.reset.phase = .idle ∧ (List.replicate 512 (7 : Byte)).length = 512 := by
  decide +kernel

theorem witness_KsDeriveConsumesKeyMaterial : (inPhase .kdfRdy).phase = .kdfRdy := by decide

/-- Lane 3 is served by table 7, lane 4 by table 0. -/
theorem witness_RoundFunctionSubstitutesAndRotates :
    (7 : Fin 8).val = (if (3 : Fin 8).val < 4 then (3 : Fin 8).val + 4 else (3 : Fin 8).val - 4) ∧
      (0 : Fin 8).val = (if (4 : Fin 8).val < 4 then (4 : Fin 8).val + 4 else (4 : Fin 8).val - 4) := by decide

theorem witness_BlkEncResult :
    (inPhase .idle).phase = .idle ∧ (inPhase .idle).kv = true ∧ (List.replicate 16 (7 : Byte)).length = 16 := by decide

theorem witness_BlkDecResult :
    (inPhase .idle).phase = .idle ∧ (inPhase .idle).kv = true ∧ (List.replicate 16 (7 : Byte)).length = 16 := by decide

theorem witness_HashInitLoadsTheInitialValue : (inPhase .idle).phase = .idle := by decide

/-- `NBYTES mod 64 = 63` (a block is completed), 0, and the last `NBYTES` below the bound. -/
theorem witness_HashedByteWrites :
    ((63 : Word64).toNat + 1 < 2 ^ 61 ∧ (2305843009213693950 : Word64).toNat + 1 < 2 ^ 61) ∧
    ∀ n : Word64, ∃ s : State, s.phase = .hash ∧ s.hash.nbytes = n :=
  ⟨by decide, fun n => ⟨{ inPhase .hash with hash := { hashInitial with nbytes := n } }, rfl, rfl⟩⟩

/-- Both clauses at the bound: the last message that fits and the first that does not. -/
theorem witness_HashUpdateIgnoresChunkBoundaries :
    ∃ s : State, s.phase = .hash ∧ s.hash.nbytes.toNat + ([1] : List Byte).length < 2 ^ 61 ∧
      2 ^ 61 ≤ s.hash.nbytes.toNat + ([1, 2] : List Byte).length :=
  ⟨{ inPhase .hash with hash := { hashInitial with nbytes := 2305843009213693950 } }, rfl, by decide, by decide⟩

theorem witness_HashFinalResult : (inPhase .hash).phase = .hash := by decide

theorem witness_IncrementalHashIsMerkleDamgard :
    State.reset.phase = .idle ∧ ([[0x61], [], [0x62, 0x63]] : List (List Byte)).flatten.length < 2 ^ 61 := by decide

theorem witness_EncStartResult :
    (inPhase .idle).phase = .idle ∧ (inPhase .idle).kv = true ∧ (List.replicate 16 (7 : Byte)).length = 16 := by decide

/-- Fifteen residual bytes and one more: a block is completed. -/
theorem witness_EncDataResult :
    ∃ (s : State) (p : List Byte), s.phase = .enc ∧
      s.hash.nbytes.toNat + 16 * ((s.rlen.val + p.length) / 16) < 2 ^ 61 ∧ (s.rlen.val + p.length) / 16 = 1 :=
  ⟨{ inPhase .enc with rlen := 15, hash := hashInitial }, [1], rfl, by decide, by decide⟩

/-- The clause on the empty payload, with a residual in its normal form, and a payload that ends inside a block. -/
theorem witness_EncDataIgnoresChunkBoundaries :
    ∃ s : State, s.phase = .enc ∧ (∀ i : Fin 16, s.rlen.val ≤ i.val → s.res[i] = 0) ∧ s.rlen = 1 ∧
      ∀ p ∈ [([] : List Byte), [1, 2]], s.hash.nbytes.toNat + 16 * ((s.rlen.val + p.length) / 16) < 2 ^ 61 :=
  ⟨{ inPhase .enc with rlen := 1, res := #v[9, 0, 0, 0, 0, 0, 0, 0, 0, 0, 0, 0, 0, 0, 0, 0], hash := hashInitial },
    rfl, by decide, rfl, by decide⟩

theorem witness_EncFinalResult :
    ∃ s : State, s.phase = .enc ∧ s.hash.nbytes.toNat + 16 < 2 ^ 61 ∧ s.rlen = 15 :=
  ⟨{ inPhase .enc with rlen := 15, hash := hashInitial }, rfl, by decide, rfl⟩

/-- `L` = 48, 63 and `2^64 - 1` are malformed; `L` = 64 and `2^64 - 16`, the smallest and the largest legal ones, are not. -/
theorem witness_DecStartResult :
    (inPhase .idle).phase = .idle ∧ (inPhase .idle).kv = true ∧
    (∀ l ∈ [[0, 0, 0, 0, 0, 0, 0, 48], [0, 0, 0, 0, 0, 0, 0, 63], [0, 0, 0, 0, 0, 0, 0, 65],
        [255, 255, 255, 255, 255, 255, 255, 255]],
      (l ++ List.replicate 16 (7 : Byte)).length = 24 ∧
      (beValue ((l ++ List.replicate 16 (7 : Byte)).take 8) < 64 ∨
        beValue ((l ++ List.replicate 16 (7 : Byte)).take 8) % 16 ≠ 0)) ∧
    (∀ l ∈ [[0, 0, 0, 0, 0, 0, 0, 64], [255, 255, 255, 255, 255, 255, 255, 240]],
      (l ++ List.replicate 16 (7 : Byte)).length = 24 ∧
      64 ≤ beValue ((l ++ List.replicate 16 (7 : Byte)).take 8) ∧
        beValue ((l ++ List.replicate 16 (7 : Byte)).take 8) % 16 = 0) := by
  decide +kernel

/-- The outer clauses: one byte too many, exactly the missing bytes, and one byte fewer. -/
theorem witness_DecDataResult :
    (decrypting 16).phase = .dec ∧
    (∀ n ∈ [15, 16, 17], (decrypting 16).hash.nbytes.toNat
      + 16 * (((decrypting 16).rlen.val + (List.replicate n (0 : Byte)).length) / 16) < 2 ^ 61) ∧
    (decrypting 16).crem.toNat < (List.replicate 17 (0 : Byte)).length ∧
    (List.replicate 16 (0 : Byte)).length = (decrypting 16).crem.toNat ∧
    (List.replicate 15 (0 : Byte)).length < (decrypting 16).crem.toNat := by
  decide +kernel

theorem xor_cancel (d q : Block) : xorBytes d (xorBytes d q) = q := by
  ext1 i h
  simp [xorBytes]

/-- The inner clauses: for any key, the chain value that makes the last block decrypt to sixteen bytes `10` (valid
padding), and the one that makes it decrypt to zeros (invalid padding). -/
theorem witness_DecDataResult_padding (k : Vector Word64 64) :
    ∀ v ∈ [(0x10 : Byte), 0], ∃ s : State, s.phase = .dec ∧ s.k = k ∧ s.crem = 16 ∧ s.rlen = 0 ∧ s.hash = hashInitial ∧
      xorBytes (blockDecrypt Config.cfg k (Vector.replicate 16 0)) s.chain = Vector.replicate 16 v :=
  fun v _ => ⟨{ decrypting 16 with
      k := k
      chain := xorBytes (blockDecrypt Config.cfg k (Vector.replicate 16 0)) (Vector.replicate 16 v) },
    rfl, rfl, rfl, rfl, rfl, xor_cancel _ _⟩

theorem witness_DecDataIgnoresChunkBoundaries :
    ∃ (s : State) (p q : List Byte), s.phase = .dec ∧ (s.crem.toNat + s.rlen.val) % 16 = 0 ∧
      p.length + q.length ≤ s.crem.toNat ∧ q ≠ [] ∧
      s.hash.nbytes.toNat + 16 * ((s.rlen.val + p.length) / 16) < 2 ^ 61 :=
  ⟨{ decrypting 31 with rlen := 1 }, List.replicate 20 1, List.replicate 11 2, rfl, by decide, by decide, by decide,
    by decide⟩

/-- Both clauses: ciphertext missing, and none missing. -/
theorem witness_DecFinalResult :
    (decrypting 16).phase = .dec ∧ (decrypting 0).phase = .dec ∧ (List.replicate 32 (7 : Byte)).length = 32 ∧
      (decrypting 16).crem ≠ 0 ∧ (decrypting 0).crem = 0 := by
  decide

/-- Residuals of 0 and 15 bytes. -/
theorem witness_UnpadUndoesPad :
    ([] : List Byte).length ≤ 15 ∧ (List.replicate 15 (7 : Byte)).length ≤ 15 := by decide

theorem witness_DecryptionUndoesEncryption :
    ∃ (s : State) (iv : List Byte) (pt : List (List Byte)), s.phase = .idle ∧ s.kv = true ∧ iv.length = 16 ∧
      pt.flatten.length + 16 < 2 ^ 61 :=
  ⟨inPhase .idle, List.replicate 16 7, [[0x68, 0x65], [], [0x6c, 0x6c, 0x6f]], rfl, rfl, by decide, by decide⟩

/-- Two different keys at the end of a decryption whose ciphertext has all been sent. -/
theorem witness_TagVerdictIgnoresTheKey :
    ∃ (s1 s2 t1 t2 : State) (ct : List (List Byte)) (tag : List Byte), s1.phase = .dec ∧ s2.phase = .dec ∧
      s1.hash = s2.hash ∧ s1.res = s2.res ∧ s1.rlen = s2.rlen ∧ s1.crem = s2.crem ∧ s1.k[0] ≠ s2.k[0] ∧
      runCommands (ct.map .decData ++ [.decFinal tag]) s1 = .next t1 ∧
      runCommands (ct.map .decData ++ [.decFinal tag]) s2 = .next t2 ∧ t1.phase = .idle ∧ t2.phase = .idle :=
  ⟨decrypting 0, { decrypting 0 with k := Vector.replicate 64 1 }, _, _, [], List.replicate 32 7,
    rfl, rfl, rfl, rfl, rfl, rfl, by decide, rfl, rfl, rfl, rfl⟩

theorem witness_DecDataKeepsTheAnnouncedLength :
    ∃ (s t : State) (p : List Byte), s.phase = .dec ∧ exec (.decData p) s = .next t ∧ t.phase = .dec ∧ p ≠ [] :=
  ⟨decrypting 32, _, [1, 2, 3], rfl, rfl, rfl, by decide⟩

/-- A state other than reset that meets the invariants, with HASH_INIT next on its ports. -/
theorem witness_StepKeepsTheInvariants :
    ∃ s t : State, s.Inv ∧ step s = .next t ∧ t.phase = .hash := by
  refine ⟨{ State.reset with kv := true, cmd := [0x40000000] }, _, ?_, rfl, rfl⟩
  constructor <;> simp [State.reset, Phase.streaming, Phase.keyDeriving, HashState.zero]

/-- Two ciphertexts of one block with different digests. -/
theorem digests_differ :
    shaDigest (List.replicate 16 (0 : Byte)) ≠ shaDigest (List.replicate 16 (1 : Byte)) := by decide +kernel

/-- `DetectsTampering`: whatever the one-block ciphertext that was emitted, another one that does not collide with it. -/
theorem witness_DetectsTampering (c : List Byte) (hc : c.length = 16) :
    ∃ (d : State) (iv : List Byte) (ct : List (List Byte)), d.phase = .idle ∧ d.kv = true ∧ iv.length = 16 ∧
      ct.flatten.length = c.length ∧ ct.flatten ≠ c ∧ CollisionFree ct.flatten c := by
  have key : ∀ x : List Byte, x.length = 16 → shaDigest x ≠ shaDigest c →
      ∃ (d : State) (iv : List Byte) (ct : List (List Byte)), d.phase = .idle ∧ d.kv = true ∧ iv.length = 16 ∧
        ct.flatten.length = c.length ∧ ct.flatten ≠ c ∧ CollisionFree ct.flatten c := fun x hx h =>
    ⟨inPhase .idle, List.replicate 16 7, [x], rfl, rfl, rfl, by simp [hx, hc],
      by simpa using fun he : x = c => h (congrArg shaDigest he), fun he => absurd (by simpa using he) h⟩
  by_cases h : shaDigest (List.replicate 16 0) = shaDigest c
  · exact key (List.replicate 16 1) rfl fun h1 => digests_differ (h.trans h1.symm)
  · exact key (List.replicate 16 0) rfl h

theorem witness_ChangedCiphertextIsDetected :
    ∃ (s : State) (iv : List Byte) (pt : List (List Byte)), s.phase = .idle ∧ s.kv = true ∧ iv.length = 16 ∧
      pt.flatten.length + 16 < 2 ^ 61 :=
  ⟨inPhase .idle, List.replicate 16 7, [], rfl, rfl, rfl, by decide⟩

/-- The two clauses on a ciphertext of three blocks: its first byte changed, the last two blocks intact, and the
ciphertext itself, each sent in two pieces. -/
theorem witness_ChangedCiphertextIsDetected_pieces (c : List Byte) (hc : c.length = 48) :
    (inPhase .idle).phase = .idle ∧ (inPhase .idle).kv = true ∧ (List.replicate 16 (7 : Byte)).length = 16 ∧
    (∃ ct : List (List Byte), ct.flatten.length = c.length ∧ 48 ≤ ct.flatten.length ∧ ct.flatten ≠ c ∧
      ct.flatten.drop (ct.flatten.length - 32) = c.drop (ct.flatten.length - 32)) ∧
    ∃ ct : List (List Byte), ct.flatten = c := by
  refine ⟨rfl, rfl, rfl, ⟨[[~~~ c.getD 0 0], c.drop 1], ?_⟩, ⟨[c.take 16, c.drop 16], by simp⟩⟩
  match c, hc with
  | x :: xs, hc =>
    have hx : ~~~ x ≠ x := fun h => by
      have := congrArg (fun b : Byte => b.getLsbD 0) h
      simp at this
    simp at hc
    simp [hc, hx]

/-- The tag clause, and plaintexts of 16 bytes (the shortest of two blocks) and of 15 (the longest of one). -/
theorem witness_ChangedTagIsReportedChangedIvIsNot (tag : List Byte) :
    (inPhase .idle).phase = .idle ∧ (inPhase .idle).kv = true ∧ (List.replicate 16 (7 : Byte)).length = 16 ∧
    (∀ n ∈ [15, 16], [List.replicate n (1 : Byte)].flatten.length + 16 < 2 ^ 61) ∧
    16 ≤ [List.replicate 16 (1 : Byte)].flatten.length ∧ [List.replicate 15 (1 : Byte)].flatten.length < 16 ∧
    ∃ tag' : List Byte, tag'.length = 32 ∧ tag' ≠ tag := by
  refine ⟨rfl, rfl, rfl, by simp, by simp, by simp, ?_⟩
  by_cases h0 : tag = List.replicate 32 0
  · exact ⟨List.replicate 32 1, rfl, by rw [h0]; decide⟩
  · exact ⟨List.replicate 32 0, rfl, Ne.symm h0⟩

end Sys2Proof.Tests
end

section
/-! The state at reset and what RD_STATUS shows of it (`10_state.md` R36, R50; `46_system.md` R243). The numeric
value of a big-endian word and of a concatenation of fields comes first; the statements follow from these. -/

namespace Sys2Proof.Proofs

open Sys2Proof Sys2Proof.Machine

/-! ### Big-endian values -/

/-- Concatenation of bit fields read as positional notation: the upper field counts multiples of `2 ^ m`. -/
theorem toNat_append_eq_mul_add {n m : Nat} (hi : BitVec n) (lo : BitVec m) :
    (hi ++ lo).toNat = 2 ^ m * hi.toNat + lo.toNat := by
  rw [BitVec.toNat_append, ← Nat.shiftLeft_add_eq_or_of_lt lo.isLt, Nat.shiftLeft_eq, Nat.mul_comm]

/-- The value of `BE32(s)` is the big-endian value of its four bytes (R12). -/
theorem beValue_toList_eq_be32 (s : Vector Byte 4) : beValue s.toList = (be32 s).toNat := by
  have hlist : s.toList = [s[0], s[1], s[2], s[3]] := by
    apply List.ext_getElem (by simp)
    intro i h1 h2
    have hi : i < 4 := by simpa using h2
    interval_cases i <;> simp
  simp only [hlist, beValue, be32, List.foldl_cons, List.foldl_nil, toNat_append_eq_mul_add]
  omega

/-- `BE32inv(w)` has the big-endian value `w` (R12). -/
@[simp] theorem beValue_be32inv (w : Word32) : beValue (be32inv w).toList = w.toNat := by
  rw [beValue_toList_eq_be32, be32_be32inv]

/-! ### The status word -/

@[simp] theorem flagBit_toNat (b : Bool) : (flagBit b).toNat = b.toNat := BitVec.toNat_ofBool b

/-- R36 as a sum: each field at its weight, the reserved fields contributing nothing. -/
theorem status_toNat (s : State) :
    (status s).toNat =
      (phaseBits s.phase).toNat + 8 * s.kv.toNat + 16 * s.av.toNat + 32 * s.aok.toNat + 256 * s.err.toNat := by
  simp only [status, toNat_append_eq_mul_add, flagBit_toNat, BitVec.ofNat_eq_ofNat, BitVec.toNat_zero]
  omega

@[simp] theorem status_reset : status State.reset = 0 :=
  BitVec.eq_of_toNat_eq (status_toNat State.reset)

/-! ### RD_STATUS -/

/-- A command that checks 2 to 4 of R96 can never stop performs its own rule in every phase, `FAULT` included. -/
theorem withChecks_of_always_legal {i : Instr} {s : State} {f : State → Host.Outcome State Fault Refusal}
    (hlen : lenOk i = true) (hlegal : ∀ p, legalIn i p = true) (hkey : needsKey i = false) :
    withChecks i s f = f s := by
  by_cases hp : s.phase = .fault
  · exact withChecks_in_fault hp hlen (hlegal .fault)
  · exact withChecks_performs hp hlen (hlegal s.phase) (by simp [hkey])

/-- RD_STATUS emits the status word in every phase (R243). -/
theorem exec_rdStatus_nil (s : State) :
    exec (.rdStatus []) s = .next (emit (be32inv (status s)).toList s) := by
  rw [exec_rdStatus]
  exact withChecks_of_always_legal rfl (fun _ => rfl) rfl

/-! ### The statements -/

/-- Settles O23: the emitted bytes are `BE32inv(STATUS)`, whose value is the sum of R36. -/
theorem rdStatusEmitsTheStatusWord : Obligations.RdStatusEmitsTheStatusWord := by
  intro s
  refine ⟨(be32inv (status s)).toList, Vector.length_toList, ?_, exec_rdStatus_nil s⟩
  rw [beValue_be32inv, status_toNat]
  cases s.phase <;> rfl

/-- Settles O19: the registers are zero by the definition of the reset state, the status word as their sum (R36). -/
theorem resetStateIsZero : Obligations.ResetStateIsZero :=
  ⟨rfl, rfl, rfl, rfl, rfl, rfl, rfl, rfl, rfl, rfl, rfl, rfl, rfl, rfl, rfl, rfl, rfl, status_reset⟩

end Sys2Proof.Proofs
end

section
/-! The command word on the ports and in the decoder (`30_encoding.md` R90, R91, R93). The fields of a word as
quotients and remainders come first; then the opcode map as one equivalence, and what a step does to `CMD` and `DIN`. -/

namespace Sys2Proof.Proofs

open Sys2Proof Sys2Proof.Machine

/-! ### The fields of a command word -/

theorem lenField_eq_mod (w : Word32) : lenField w = w.toNat % 2 ^ 16 := by simp [lenField]

theorem rsvdField_toNat (w : Word32) : (rsvdField w).toNat = w.toNat / 2 ^ 16 % 2 ^ 8 := by
  simp [rsvdField, Nat.shiftRight_eq_div_pow]

theorem opcodeField_toNat (w : Word32) : (opcodeField w).toNat = w.toNat / 2 ^ 24 := by
  have hw := w.isLt
  simp only [opcodeField, BitVec.extractLsb'_toNat, Nat.shiftRight_eq_div_pow]
  omega

/-- The upper half of a word is an opcode followed by `rsvd = 0` exactly when the two fields say so (R90). -/
theorem upperHalf_eq_iff (w : Word32) (op : BitVec 8) :
    w.toNat / 2 ^ 16 = 2 ^ 8 * op.toNat ↔ rsvdField w = 0 ∧ op = opcodeField w := by
  rw [← BitVec.toNat_inj, ← BitVec.toNat_inj, rsvdField_toNat, opcodeField_toNat]
  simp only [BitVec.ofNat_eq_ofNat, BitVec.toNat_zero]
  omega

/-! ### The opcode map -/

/-- The two readings of R93, from the left and from the right, are the same map. -/
theorem instrOfOpcode_eq_some_iff (op : BitVec 8) (payload : List Byte) (i : Instr) :
    instrOfOpcode op payload = some i ↔ opcodeOf i = op ∧ i.payload = payload := by
  constructor
  · intro h
    unfold instrOfOpcode at h
    split at h <;> cases h
    all_goals exact ⟨BitVec.eq_of_toNat_eq (Eq.symm ‹op.toNat = _›), rfl⟩
  · rintro ⟨rfl, rfl⟩
    cases i <;> rfl

/-- A word with its payload decodes to `i` when `rsvd = 0` and the opcode and the payload are those of `i` (R90, R93). -/
theorem decode_eq_ok_iff {w : Word32} {payload : List Byte} (hlen : payload.length = lenField w) (i : Instr) :
    decode w payload = .ok i ↔ rsvdField w = 0 ∧ opcodeOf i = opcodeField w ∧ i.payload = payload := by
  rw [← instrOfOpcode_eq_some_iff]
  unfold decode
  rw [if_neg (not_not_intro hlen)]
  by_cases hrsvd : rsvdField w = 0
  · rw [if_neg (not_not_intro hrsvd)]
    cases instrOfOpcode (opcodeField w) payload <;> simp [hrsvd]
  · rw [if_pos hrsvd]
    exact iff_of_false nofun fun ⟨h, _⟩ => hrsvd h

/-- The same with the upper half of the word as a number: the form of the table of R93. -/
theorem decode_eq_ok_iff_upperHalf {w : Word32} {payload : List Byte} (hlen : payload.length = w.toNat % 2 ^ 16)
    (i : Instr) :
    decode w payload = .ok i ↔ w.toNat / 2 ^ 16 = 2 ^ 8 * (opcodeOf i).toNat ∧ i.payload = payload := by
  rw [decode_eq_ok_iff (hlen.trans (lenField_eq_mod w).symm), upperHalf_eq_iff, and_assoc]

/-- The table of R93 as `Obligations.OpcodeMap` lists it; `opcodeTable_sound` and `opcodeTable_complete` tie it to `opcodeOf`. -/
def opcodeTable : List (Nat × (List Byte → Instr)) :=
  [(0x00, .nop), (0x01, .zeroize), (0x02, .abort), (0x03, .rdStatus), (0x10, .kdfInit), (0x11, .kdfAbsorb),
   (0x12, .kdfFinal), (0x13, .kmRead), (0x14, .ksDerive), (0x15, .ksLoad), (0x20, .blkEnc), (0x21, .blkDec),
   (0x30, .encStart), (0x31, .encData), (0x32, .encFinal), (0x38, .decStart), (0x39, .decData),
   (0x3A, .decFinal), (0x40, .hashInit), (0x41, .hashUpdate), (0x42, .hashFinal)]

/-- Every row of the table builds a command of its own opcode, with the payload it is given. -/
theorem opcodeTable_sound (payload : List Byte) :
    ∀ e ∈ opcodeTable, (opcodeOf (e.2 payload)).toNat = e.1 ∧ (e.2 payload).payload = payload := by
  simp [opcodeTable, opcodeOf, Instr.payload]

/-- Every command has a row. -/
theorem opcodeTable_complete (i : Instr) : ∃ e ∈ opcodeTable, e.1 = (opcodeOf i).toNat := by
  cases i <;> simp [opcodeTable, opcodeOf]

/-- Settles O3: a row of the table decodes by `opcodeTable_sound`; whatever decodes has a row by `opcodeTable_complete`. -/
theorem opcodeMap : Obligations.OpcodeMap := by
  rintro w payload hlen map rfl
  constructor
  · intro e he hupper
    obtain ⟨hop, hpayload⟩ := opcodeTable_sound payload e he
    exact (decode_eq_ok_iff_upperHalf hlen _).mpr ⟨by rw [hop, hupper], hpayload⟩
  · intro hnone i hdecode
    obtain ⟨hupper, -⟩ := (decode_eq_ok_iff_upperHalf hlen i).mp hdecode
    obtain ⟨e, he, hop⟩ := opcodeTable_complete i
    exact hnone e he (by rw [hop, hupper])

/-! ### The input ports -/

/-- The two ports the engine reads, `CMD` and `DIN`, hold the same in both states (R38, R61). -/
def SameInput (s t : State) : Prop := t.cmd = s.cmd ∧ t.din = s.din

/-- A run of decrypted blocks reads no port (R208). -/
theorem decBlocks_sameInput {cfg : Cfg} {s u : State} {cs : List Block} (h : decBlocks cfg s cs = .ok u) :
    SameInput s u := by
  have hframe := decBlocks_frame cfg s cs
  simp only [h] at hframe
  rw [hframe]
  exact ⟨rfl, rfl⟩

/-- A command's own effect reads no port: its payload was taken before it is performed (R91). -/
theorem performed_sameInput {i : Instr} {s t : State} (h : performed i s t) : SameInput s t := by
  cases i with
  | encData p =>
    obtain ⟨-, rfl⟩ := h
    rw [encBlocks_frame]
    exact ⟨rfl, rfl⟩
  | decData p =>
    obtain ⟨-, -, u, hu, rfl⟩ := h
    obtain ⟨hcmd, hdin⟩ := decBlocks_sameInput hu
    exact ⟨hcmd, hdin⟩
  | encFinal _ | decStart _ | decFinal _ | hashUpdate _ =>
    obtain ⟨-, rfl⟩ := h
    exact ⟨rfl, rfl⟩
  | _ =>
    obtain rfl := h
    exact ⟨rfl, rfl⟩

/-- Ignored, faulted or performed, a command leaves the input ports alone. -/
theorem exec_sameInput {i : Instr} {s t : State} (h : exec i s = .next t) : SameInput s t := by
  rcases exec_next_cases h with ⟨-, rfl⟩ | ⟨-, _, _, rfl, -⟩ | ⟨-, -, -, hperformed⟩
  · exact ⟨rfl, rfl⟩
  · exact ⟨rfl, rfl⟩
  · exact performed_sameInput hperformed

/-- A word that decodes to no command leaves the input ports alone in every phase (R98). -/
theorem illegalCommand_sameInput (s : State) : SameInput s (illegalCommand s) := by
  unfold illegalCommand
  split <;> exact ⟨rfl, rfl⟩

/-! ### One step with a word on `CMD` -/

/-- Everything a step with a word on `CMD` does when it answers a next state: the payload is complete, the word and its
`len` bytes are taken, and what they decode to acts on the rest (R91, R96). -/
theorem step_next_cases {s t : State} {w : Word32} {ws : List Word32} (hcmd : s.cmd = w :: ws)
    (h : step s = .next t) :
    lenField w ≤ s.din.length ∧
      ((∃ i, decode w (s.din.take (lenField w)) = .ok i ∧
          exec i { s with cmd := ws, din := s.din.drop (lenField w) } = .next t) ∨
        ((∃ e, decode w (s.din.take (lenField w)) = .error e) ∧
          t = illegalCommand { s with cmd := ws, din := s.din.drop (lenField w) })) := by
  by_cases hlen : s.din.length < lenField w
  · simp [step, fetch, hcmd, hlen] at h
  · refine ⟨Nat.le_of_not_lt hlen, ?_⟩
    simp only [step, fetch, hcmd, if_neg hlen] at h
    cases hdecode : decode w (s.din.take (lenField w)) with
    | ok i =>
      rw [hdecode] at h
      exact .inl ⟨i, rfl, h⟩
    | error e =>
      rw [hdecode] at h
      exact .inr ⟨⟨e, rfl⟩, (Host.Outcome.next.inj h).symm⟩

/-- Settles O7: the fetch takes the word and its `len` bytes (`step_next_cases`), and nothing after it touches the ports. -/
theorem stepConsumesTheFramedPayload : Obligations.StepConsumesTheFramedPayload := by
  intro s t w ws hcmd h
  rw [← lenField_eq_mod]
  obtain ⟨hlen, ⟨i, -, hexec⟩ | ⟨-, rfl⟩⟩ := step_next_cases hcmd h
  · obtain ⟨htcmd, htdin⟩ := exec_sameInput hexec
    exact ⟨htcmd, htdin, hlen⟩
  · obtain ⟨htcmd, htdin⟩ := illegalCommand_sameInput { s with cmd := ws, din := s.din.drop (lenField w) }
    exact ⟨htcmd, htdin, hlen⟩

end Sys2Proof.Proofs
end

section
/-! The derivation unit byte by byte (`41_kdf.md` R132, R133). What one round of the mixing pass does to each byte and
to `running_mix` comes first, then what the writes of one absorbed byte leave at each index; the statements follow. -/

namespace Sys2Proof.Proofs

open Sys2Proof Sys2Proof.Machine

/-! ### One round of the mixing pass -/

/-- The inner loop of R133 as a recurrence: in front of byte `i` stands the new byte `i - 1`, and in front of the first
byte the `m` the loop started from. -/
theorem mixBytes_getElem (c : Cfg) (m : Byte) (bs : List Byte) (i : Nat) (h : i < (mixBytes c m bs).1.length) :
    (mixBytes c m bs).1[i] =
      (bs[i]'(mixBytes_length c m bs ▸ h)) ^^^ c.tsub ((m :: (mixBytes c m bs).1)[i]'(Nat.lt_succ_of_lt h)) := by
  induction bs generalizing m i with
  | nil => simp [mixBytes] at h
  | cons b bs ih =>
    cases i with
    | zero => rfl
    | succ i => exact ih (b ^^^ c.tsub m) i (Nat.lt_of_succ_lt_succ h)

/-- The inner loop leaves in `m` the last byte it wrote, or its start value where there was none (R133). -/
theorem mixBytes_snd (c : Cfg) (m : Byte) (bs : List Byte) :
    (mixBytes c m bs).2 = (m :: (mixBytes c m bs).1).getLast (List.cons_ne_nil _ _) := by
  induction bs generalizing m with
  | nil => rfl
  | cons b bs ih => exact ih (b ^^^ c.tsub m)

/-- The first byte of `WORK` meets the `running_mix` the round started from (R133). -/
theorem mixRound_getElem_zero (c : Cfg) (work : Vector Byte 1536) (m : Byte) :
    (mixRound c work m).1[0] = work[0] ^^^ c.tsub m := by
  have hlen : 0 < (mixBytes c m work.toList).1.length := by simp [mixBytes_length]
  simpa [mixRound] using mixBytes_getElem c m work.toList 0 hlen

/-- Every later byte of `WORK` meets the new value of the byte before it (R133). -/
theorem mixRound_getElem_succ (c : Cfg) (work : Vector Byte 1536) (m : Byte) (b : Nat) (h : b + 1 < 1536) :
    (mixRound c work m).1[b + 1] = work[b + 1] ^^^ c.tsub ((mixRound c work m).1[b]) := by
  have hlen : b + 1 < (mixBytes c m work.toList).1.length := by simp [mixBytes_length, h]
  simpa [mixRound] using mixBytes_getElem c m work.toList (b + 1) hlen

/-- A round leaves in `running_mix` the last byte of the new `WORK` (R133). -/
theorem mixRound_snd (c : Cfg) (work : Vector Byte 1536) (m : Byte) :
    (mixRound c work m).2 = (mixRound c work m).1[1535] := by
  simp [mixRound, mixBytes_snd, List.getLast_eq_getElem, mixBytes_length]

/-- The mixing pass is 514 rounds from `MIX_SEED` (R133). -/
theorem kdfMix_eq_mixRounds (c : Cfg) (work : Vector Byte 1536) : kdfMix c work = (mixRounds c 514 work mixSeed).1 := by
  unfold kdfMix
  rfl

/-! ### The writes of one absorbed byte -/

/-- The three writes to `WORK`, 512 apart; the third takes the `ACC[POS]` of before (R132). -/
theorem absorbWrites_work_getElem (c : Cfg) (st : KdfState) (x : Byte) (i : Nat) (h : i < 1536) :
    (absorbWrites c st x).work[i] =
      if i = st.pos.val ∨ i = st.pos.val + 512 then x
      else if i = st.pos.val + 1024 then x ^^^ st.acc[st.pos] else st.work[i] := by
  have hpos := st.pos.isLt
  simp only [absorbWrites, Vector.getElem_set]
  grind

/-- `ACC[POS]` is assigned the new `RS`, and no other byte of `ACC` is written (R132). -/
theorem absorbByte_acc_getElem (c : Cfg) (st : KdfState) (x : Byte) (i : Nat) (h : i < 512) :
    (absorbByte c st x).acc[i] = if i = st.pos.val then (absorbByte c st x).rs else st.acc[i] := by
  simp only [absorbByte_acc, absorbByte_rs, Vector.getElem_set, eq_comm]

/-! ### KDF_ABSORB -/

/-- In `KDF_ABS` the payload is absorbed whatever it is: no admission check stops it (R96, R134). -/
theorem exec_kdfAbsorb_in_kdfAbs {s : State} (hp : s.phase = .kdfAbs) (payload : List Byte) :
    exec (.kdfAbsorb payload) s = .next (setKdf (absorb Config.cfg s.kdf payload) s) := by
  rw [exec_kdfAbsorb]
  exact withChecks_performs (by simp [hp]) rfl (by simp [hp, legalIn]) (by simp [needsKey])

/-! ### The statements -/

/-- Settles O27: the witnesses are what `mixRounds` answers after each number of rounds, and each round is a `mixRound`
(`mixRounds_succ`). -/
theorem mixingPassRecurrence : Obligations.MixingPassRecurrence := by
  intro c work
  refine ⟨fun n => (mixRounds c n work mixSeed).1, fun n => (mixRounds c n work mixSeed).2, rfl, rfl, ?_,
    kdfMix_eq_mixRounds c work⟩
  intro round _
  simp only [mixRounds_succ]
  refine ⟨mixRound_getElem_zero c _ _, mixRound_getElem_succ c _ _, ?_⟩
  rw [mixRound_snd]

/-- Settles O25: `w` is `WORK` after the writes alone; the two cases on `POS` are `absorbByte_lt` and `absorbByte_last`. -/
theorem absorbedByteWrites : Obligations.AbsorbedByteWrites := by
  intro s x hp
  refine ⟨setKdf (absorbByte Config.cfg s.kdf x) s, (absorbWrites Config.cfg s.kdf x).work,
    exec_kdfAbsorb_in_kdfAbs hp [x], rfl, absorbWrites_work_getElem _ _ _, absorbByte_rs _ _ _,
    absorbByte_acc_getElem _ _ _, ?_, ?_⟩
  · intro hpos
    rw [setKdf_kdf, absorbByte_lt _ _ _ (Nat.succ_lt_succ hpos)]
    exact ⟨rfl, rfl⟩
  · intro hpos
    rw [setKdf_kdf, absorbByte_last _ _ _ hpos]
    exact ⟨rfl, rfl⟩

end Sys2Proof.Proofs
end

section
/-! The key schedule (`42_key_schedule.md` R150, R152). The value of `BE64` and of one subkey come first; the statement
about KS_LOAD follows. -/

namespace Sys2Proof.Proofs

open Sys2Proof Sys2Proof.Machine

/-- The value of `BE64(s)` is the big-endian value of its eight bytes (R12). -/
theorem beValue_toList_eq_be64 (s : Vector Byte 8) : beValue s.toList = (be64 s).toNat := by
  have hlist : s.toList = [s[0], s[1], s[2], s[3], s[4], s[5], s[6], s[7]] := by
    apply List.ext_getElem (by simp)
    intro i h1 h2
    have hi : i < 8 := by simpa using h2
    interval_cases i <;> simp
  simp only [hlist, beValue, be64, List.foldl_cons, List.foldl_nil, toNat_append_eq_mul_add]
  omega

/-- Subkey `i` has the value of the eight bytes of key material from `8i` on (R150). -/
theorem schedule_getElem_toNat (km : Vector Byte 512) (i : Nat) (h : i < 64) :
    (schedule km)[i].toNat = beValue ((km.toList.drop (8 * i)).take 8) := by
  have hin : 8 * i + 8 ≤ km.toList.length := by rw [Vector.length_toList]; omega
  rw [schedule_getElem, ← beValue_toList_eq_be64, bytesAt_toList 8 _ _ hin]

/-- The key material of a well-formed KS_LOAD is its payload (R94, R152). -/
theorem operandKm_toList {payload : List Byte} (h : payload.length = 512) : (operandKm payload).toList = payload :=
  bytesAt_toList_self 512 payload h

/-- In `IDLE` a KS_LOAD of 512 bytes passes the checks of R96 and loads the schedule (R152). -/
theorem exec_ksLoad_in_idle {s : State} {payload : List Byte} (hp : s.phase = .idle) (hlen : payload.length = 512) :
    exec (.ksLoad payload) s = .next (loadKey (schedule (operandKm payload)) s) := by
  rw [exec_ksLoad]
  exact withChecks_performs (by simp [hp]) (by simp [lenOk, requiredLen, Instr.payload, hlen]) (by simp [hp, legalIn])
    (by simp [needsKey])

/-- Settles O31: the loaded words are the schedule of the payload, each with the value of its eight bytes. -/
theorem ksLoadWritesTheSchedule : Obligations.KsLoadWritesTheSchedule := by
  intro s p hp hlen
  refine ⟨schedule (operandKm p), fun i hi => ?_, exec_ksLoad_in_idle hp hlen⟩
  rw [schedule_getElem_toNat, operandKm_toList hlen]

end Sys2Proof.Proofs
end

section
/-! The block cipher (`43_block_cipher.md` R160 to R168). The round function nibble by nibble comes first; then the loop
that encryption and decryption share, as a sequence of halves, and the two commands that run it. -/

namespace Sys2Proof.Proofs

open Sys2Proof Sys2Proof.Machine

/-! ### The round function -/

/-- The high nibble of a table entry is `PERM4[2i+1]` of the high nibble of the byte (R120). -/
@[simp] theorem sbox_highNibble (c : Cfg) (i : Fin 8) (v : Byte) :
    (sbox c i v).extractLsb' 4 4 = c.perm4 (pairHigh i) (v.extractLsb' 4 4) := by
  apply BitVec.eq_of_getLsbD_eq
  intro j hj
  have hbyte : 4 + j < 8 := by omega
  simp [sbox, hj, hbyte]

/-- The low nibble of a table entry is `PERM4[2i]` of the low nibble of the byte (R120). -/
@[simp] theorem sbox_lowNibble (c : Cfg) (i : Fin 8) (v : Byte) :
    (sbox c i v).extractLsb' 0 4 = c.perm4 (pairLow i) (v.extractLsb' 0 4) := by
  apply BitVec.eq_of_getLsbD_eq
  intro j hj
  have hbyte : j < 8 := by omega
  simp [sbox, hj, hbyte]

/-- Four bits inside a byte lane, counted from bit 0 of the word (R160). -/
theorem lane_extractLsb' (x : Word64) (n off : Nat) (h : off + 4 ≤ 8) :
    (lane x n).extractLsb' off 4 = x.extractLsb' (8 * n + off) 4 := by
  apply BitVec.eq_of_getLsbD_eq
  intro j hj
  have hlane : off + j < 8 := by omega
  simp [lane, hj, hlane, Nat.add_assoc]

/-- The substitution leaves every lane in its place (R160). -/
@[simp] theorem lane_substWord (c : Cfg) (x : Word64) (n : Fin 8) : lane (substWord c x) n.val = substLane c x n := by
  apply BitVec.eq_of_getLsbD_eq
  intro j hj
  fin_cases n <;> simp [lane, substWord, hj] <;> grind

/-- `TABLE_POS` exchanges the two halves of the lanes (R6, R160). -/
theorem tablePos_val : ∀ n : Fin 8, tablePos[n].val = if n.val < 4 then n.val + 4 else n.val - 4 := by decide

/-- R19's `rotl64` is the rotation of the library. -/
theorem rotl64_eq_rotateLeft (x : Word64) (n : Nat) (h : n < 64) : rotl64 x n = x.rotateLeft n := by
  rw [rotl64, BitVec.rotateLeft_def, Nat.mod_eq_of_lt h]

/-- The high nibble of lane `n` of the substituted word (R160, R120). -/
theorem substWord_highNibble (c : Cfg) (x : Word64) (n : Fin 8) :
    (substWord c x).extractLsb' (8 * n.val + 4) 4 =
      c.perm4 (pairHigh tablePos[n]) (x.extractLsb' (8 * n.val + 4) 4) := by
  have hnibble := fun y : Word64 => lane_extractLsb' y n.val 4 (by decide)
  rw [← hnibble, lane_substWord, substLane, sbox_highNibble, hnibble]

/-- The low nibble of lane `n` of the substituted word (R160, R120). -/
theorem substWord_lowNibble (c : Cfg) (x : Word64) (n : Fin 8) :
    (substWord c x).extractLsb' (8 * n.val) 4 =
      c.perm4 (pairLow tablePos[n]) (x.extractLsb' (8 * n.val) 4) := by
  have hnibble : ∀ y : Word64, (lane y n.val).extractLsb' 0 4 = y.extractLsb' (8 * n.val) 4 :=
    fun y => lane_extractLsb' y n.val 0 (by decide)
  rw [← hnibble, lane_substWord, substLane, sbox_lowNibble, hnibble]

/-- Settles O34: the word is `substWord c x`, and the table of lane `n` is `TABLE_POS[n]`. -/
theorem roundFunctionSubstitutesAndRotates : Obligations.RoundFunctionSubstitutesAndRotates := by
  intro c x
  refine ⟨substWord c x, rotl64_eq_rotateLeft _ 11 (by decide), fun n tbl htbl => ?_⟩
  obtain rfl := Fin.ext (htbl.trans (tablePos_val n).symm)
  exact ⟨substWord_highNibble c x n, substWord_lowNibble c x n⟩

/-! ### Words and bytes -/

/-- The first word of a block is the big-endian value of its first eight bytes (R162). -/
theorem toWords_fst_toNat (blk : Block) : (toWords blk).1.toNat = beValue (blk.toList.take 8) := by
  rw [toWords, ← beValue_toList_eq_be64, bytesAt_toList 8 0 _ (by simp), List.drop_zero]

/-- The second word of a block is the big-endian value of its last eight bytes (R162). -/
theorem toWords_snd_toNat (blk : Block) : (toWords blk).2.toNat = beValue (blk.toList.drop 8) := by
  rw [toWords, ← beValue_toList_eq_be64, bytesAt_toList 8 8 _ (by simp), List.take_of_length_le (by simp)]

/-- The block of a well-formed BLK_ENC or BLK_DEC is its payload (R94, R167, R168). -/
theorem operandBlock_toList {payload : List Byte} (h : payload.length = 16) : (operandBlock payload).toList = payload :=
  bytesAt_toList_self 16 payload h

/-! ### The loop of R164 and R165 -/

/-- The halves `(A, B)` in front of iteration `r` of a loop with the subkeys `k1 r`, `k2 r`, started from `w`. Past the
last iteration nothing changes. -/
def halves (c : Cfg) (k1 k2 : ∀ r, r < 32 → Word64) (w : Word64 × Word64) : Nat → Word64 × Word64
  | 0 => w
  | r + 1 => if h : r < 32 then iteration c (k1 r h) (k2 r h) (halves c k1 k2 w r) else halves c k1 k2 w r

theorem halves_succ (c : Cfg) (k1 k2 : ∀ r, r < 32 → Word64) (w : Word64 × Word64) {r : Nat} (h : r < 32) :
    halves c k1 k2 w (r + 1) = iteration c (k1 r h) (k2 r h) (halves c k1 k2 w r) := dif_pos h

/-- The first `n` iterations of the model's loop lead to the halves in front of iteration `n`. -/
theorem fold_iteration_eq_halves (c : Cfg) (k1 k2 : ∀ r, r < 32 → Word64) (w : Word64 × Word64) (n : Nat)
    (hn : n ≤ 32) :
    n.fold (fun r hr ab => iteration c (k1 r (hr.trans_le hn)) (k2 r (hr.trans_le hn)) ab) w = halves c k1 k2 w n := by
  induction n with
  | zero => rfl
  | succ n ih => rw [Nat.fold_succ, halves_succ c k1 k2 w hn, ih (Nat.le_of_succ_le hn)]

/-- R164: encryption is the loop with `K[0..63]` in order, its output `(B, A)`. -/
theorem toWords_blockEncrypt (c : Cfg) (k : Vector Word64 64) (blk : Block) :
    toWords (blockEncrypt c k blk) =
      (halves c (fun r _ => k[2 * r]) (fun r _ => k[2 * r + 1]) (toWords blk) 32).swap := by
  rw [blockEncrypt, toWords_toBytes, ← fold_iteration_eq_halves _ _ _ _ 32 le_rfl]
  rfl

/-- R165: decryption is the loop with the subkeys from `K[63]` down, its output `(B, A)`. -/
theorem toWords_blockDecrypt (c : Cfg) (k : Vector Word64 64) (blk : Block) :
    toWords (blockDecrypt c k blk) =
      (halves c (fun r _ => k[63 - 2 * r]) (fun r _ => k[62 - 2 * r]) (toWords blk) 32).swap := by
  rw [blockDecrypt, toWords_toBytes, ← fold_iteration_eq_halves _ _ _ _ 32 le_rfl]
  rfl

/-- A block whose words come out of the loop run on `p`, as the recurrence of R164 and R165 between the big-endian
values of `p` and of the block. -/
theorem exists_halves_of_toWords_eq {c : Cfg} {k1 k2 : ∀ r, r < 32 → Word64} {p : List Byte} {o : Block}
    (hlen : p.length = 16) (ho : toWords o = (halves c k1 k2 (toWords (operandBlock p)) 32).swap) :
    ∃ a b : Nat → Word64,
      (a 0).toNat = beValue (p.take 8) ∧ (b 0).toNat = beValue (p.drop 8) ∧
      (∀ r (h : r < 32),
        b (r + 1) = b r ^^^ roundF c (a r + k1 r h) ∧ a (r + 1) = a r ^^^ roundF c (b (r + 1) + k2 r h)) ∧
      beValue (o.toList.take 8) = (b 32).toNat ∧ beValue (o.toList.drop 8) = (a 32).toNat := by
  have hfst := toWords_fst_toNat (operandBlock p)
  have hsnd := toWords_snd_toNat (operandBlock p)
  rw [operandBlock_toList hlen] at hfst hsnd
  refine ⟨fun r => (halves c k1 k2 (toWords (operandBlock p)) r).1,
    fun r => (halves c k1 k2 (toWords (operandBlock p)) r).2, hfst, hsnd, fun r h => ?_, ?_, ?_⟩
  · simp only [halves_succ c k1 k2 _ h]
    exact ⟨rfl, rfl⟩
  · rw [← toWords_fst_toNat, ho, Prod.fst_swap]
  · rw [← toWords_snd_toNat, ho, Prod.snd_swap]

/-! ### BLK_ENC and BLK_DEC -/

/-- In `IDLE` with a key, a command of a good length that is legal there performs its own rule (R96). -/
theorem withChecks_in_idle_with_key {i : Instr} {s : State} {f : State → Host.Outcome State Fault Refusal}
    (hp : s.phase = .idle) (hkv : s.kv = true) (hlen : lenOk i = true) (hlegal : legalIn i .idle = true) :
    withChecks i s f = f s :=
  withChecks_performs (by simp [hp]) hlen (hp ▸ hlegal) fun _ => hkv

/-- In `IDLE` with a key, a BLK_ENC of 16 bytes passes the checks of R96 and emits the encrypted block (R167). -/
theorem exec_blkEnc_in_idle {s : State} {p : List Byte} (hp : s.phase = .idle) (hkv : s.kv = true)
    (hlen : p.length = 16) :
    exec (.blkEnc p) s = .next (emit (blockEncrypt Config.cfg s.k (operandBlock p)).toList s) := by
  rw [exec_blkEnc]
  exact withChecks_in_idle_with_key hp hkv (by simp [lenOk, requiredLen, Instr.payload, hlen]) rfl

/-- In `IDLE` with a key, a BLK_DEC of 16 bytes passes the checks of R96 and emits the decrypted block (R168). -/
theorem exec_blkDec_in_idle {s : State} {p : List Byte} (hp : s.phase = .idle) (hkv : s.kv = true)
    (hlen : p.length = 16) :
    exec (.blkDec p) s = .next (emit (blockDecrypt Config.cfg s.k (operandBlock p)).toList s) := by
  rw [exec_blkDec]
  exact withChecks_in_idle_with_key hp hkv (by simp [lenOk, requiredLen, Instr.payload, hlen]) rfl

/-- Settles O36: the witnesses are the halves in front of each iteration and the bytes of the encrypted block. -/
theorem blkEncResult : Obligations.BlkEncResult := by
  intro s p hp hkv hlen
  obtain ⟨a, b, ha, hb, hstep, hfirst, hlast⟩ :=
    exists_halves_of_toWords_eq hlen (toWords_blockEncrypt Config.cfg s.k (operandBlock p))
  exact ⟨a, b, _, ha, hb, hstep, Vector.length_toList, hfirst, hlast, exec_blkEnc_in_idle hp hkv hlen⟩

/-- Settles O37: the same with the bytes of the decrypted block. -/
theorem blkDecResult : Obligations.BlkDecResult := by
  intro s p hp hkv hlen
  obtain ⟨a, b, ha, hb, hstep, hfirst, hlast⟩ :=
    exists_halves_of_toWords_eq hlen (toWords_blockDecrypt Config.cfg s.k (operandBlock p))
  exact ⟨a, b, _, ha, hb, hstep, Vector.length_toList, hfirst, hlast, exec_blkDec_in_idle hp hkv hlen⟩

end Sys2Proof.Proofs
end

section
/-! The integrity hash (`44_integrity_hash.md` R181 to R189). The compression function comes first, as the two recurrences
of R182: the message schedule, then the working variables. The padding and the digest of R184 follow, then the commands
HASH_INIT and HASH_FINAL. -/

namespace Sys2Proof.Proofs

open Sys2Proof Sys2Proof.Machine

/-! ### The functions of R182 with the library's rotation -/

/-- R19's `rotr32` is the rotation of the library. -/
theorem rotr32_eq_rotateRight (x : Word32) (n : Nat) (h : n < 32) : rotr32 x n = x.rotateRight n := by
  rw [rotr32, BitVec.rotateRight_def, Nat.mod_eq_of_lt h]

theorem bsig0_eq_rotateRight (x : Word32) :
    bsig0 x = x.rotateRight 2 ^^^ x.rotateRight 13 ^^^ x.rotateRight 22 := by
  simp [bsig0, rotr32_eq_rotateRight]

theorem bsig1_eq_rotateRight (x : Word32) :
    bsig1 x = x.rotateRight 6 ^^^ x.rotateRight 11 ^^^ x.rotateRight 25 := by
  simp [bsig1, rotr32_eq_rotateRight]

theorem ssig0_eq_rotateRight (x : Word32) :
    ssig0 x = x.rotateRight 7 ^^^ x.rotateRight 18 ^^^ x >>> 3 := by
  simp [ssig0, rotr32_eq_rotateRight]

theorem ssig1_eq_rotateRight (x : Word32) :
    ssig1 x = x.rotateRight 17 ^^^ x.rotateRight 19 ^^^ x >>> 10 := by
  simp [ssig1, rotr32_eq_rotateRight]

/-! ### The message schedule -/

/-- The words of R182's message schedule by their recurrence, without the vector that the model fills;
`messageSchedule_getElem` ties the two. -/
def scheduleWord (buf : Vector Byte 64) (t : Nat) : Word32 :=
  if t < 16 then be32 (bytesAt 4 (4 * t) buf.toList)
  else ssig1 (scheduleWord buf (t - 2)) + scheduleWord buf (t - 7) + ssig0 (scheduleWord buf (t - 15))
    + scheduleWord buf (t - 16)
termination_by t
decreasing_by all_goals omega

theorem scheduleWord_of_lt (buf : Vector Byte 64) {t : Nat} (h : t < 16) :
    scheduleWord buf t = be32 (bytesAt 4 (4 * t) buf.toList) := by
  rw [scheduleWord, if_pos h]

theorem scheduleWord_of_ge (buf : Vector Byte 64) {t : Nat} (h : 16 ≤ t) :
    scheduleWord buf t = ssig1 (scheduleWord buf (t - 2)) + scheduleWord buf (t - 7)
      + ssig0 (scheduleWord buf (t - 15)) + scheduleWord buf (t - 16) := by
  rw [scheduleWord, if_neg h.not_gt]

/-- The recurrence at the word that step `j` of the schedule loop writes. -/
theorem scheduleWord_add (buf : Vector Byte 64) (j : Nat) :
    scheduleWord buf (16 + j) = ssig1 (scheduleWord buf (14 + j)) + scheduleWord buf (9 + j)
      + ssig0 (scheduleWord buf (1 + j)) + scheduleWord buf j := by
  rw [scheduleWord_of_ge buf (Nat.le_add_right 16 j), show 16 + j - 2 = 14 + j by omega,
    show 16 + j - 7 = 9 + j by omega, show 16 + j - 15 = 1 + j by omega, Nat.add_sub_cancel_left]

/-- The first sixteen words are the big-endian values of the block's groups of four bytes (R182). -/
theorem scheduleWord_toNat_of_lt (buf : Vector Byte 64) {t : Nat} (h : t < 16) :
    (scheduleWord buf t).toNat = beValue ((buf.toList.drop (4 * t)).take 4) := by
  have hin : 4 * t + 4 ≤ buf.toList.length := by rw [Vector.length_toList]; omega
  rw [scheduleWord_of_lt buf h, ← beValue_toList_eq_be32, bytesAt_toList 4 _ _ hin]

/-- Step `j` of the model's schedule loop, which writes `W[16 + j]` (R182). -/
def scheduleStep (j : Nat) (hj : j < 48) (w : Vector Word32 64) : Vector Word32 64 :=
  w.set (16 + j) (ssig1 w[14 + j] + w[9 + j] + ssig0 w[1 + j] + w[j])

/-- A step that finds the words in front of `16 + j` in place leaves the words up to `16 + j` in place. -/
theorem scheduleStep_getElem {buf : Vector Byte 64} {j : Nat} (hj : j < 48) {w : Vector Word32 64}
    (hw : ∀ t (h : t < 16 + j), w[t] = scheduleWord buf t) {t : Nat} (ht : t < 16 + (j + 1)) :
    (scheduleStep j hj w)[t] = scheduleWord buf t := by
  obtain hlt | rfl : t < 16 + j ∨ t = 16 + j := by omega
  · rw [scheduleStep, Vector.getElem_set_ne _ _ (Nat.ne_of_gt hlt), hw t hlt]
  · rw [scheduleStep, Vector.getElem_set_self, scheduleWord_add, hw (14 + j) (by omega), hw (9 + j) (by omega),
      hw (1 + j) (by omega), hw j (by omega)]

/-- The first `n` steps of the loop put the words in front of `16 + n` in place. -/
theorem fold_scheduleStep_getElem (buf : Vector Byte 64) (n : Nat) (hn : n ≤ 48) :
    ∀ t (ht : t < 16 + n),
      (n.fold (fun j hj w => scheduleStep j (hj.trans_le hn) w) (blockWords buf))[t] = scheduleWord buf t := by
  induction n with
  | zero =>
    intro t ht
    simp [blockWords, ht, scheduleWord_of_lt]
  | succ n ih =>
    intro t ht
    simp only [Nat.fold_succ]
    exact scheduleStep_getElem hn (ih (Nat.le_of_succ_le hn)) ht

/-- The model's schedule holds the words of the recurrence (R182). -/
theorem messageSchedule_getElem (buf : Vector Byte 64) (t : Nat) (ht : t < 64) :
    (messageSchedule buf)[t] = scheduleWord buf t :=
  fold_scheduleStep_getElem buf 48 le_rfl t ht

/-! ### The working variables -/

/-- The working variables in front of round `t`, over the words `w` of a message schedule (R182). Past the last round
nothing changes. -/
def working (h : Vector Word32 8) (w : Nat → Word32) : Nat → Working
  | 0 => { a := h[0], b := h[1], c := h[2], d := h[3], e := h[4], f := h[5], g := h[6], h := h[7] }
  | t + 1 => if ht : t < 64 then shaRound (working h w t) shaK[t] (w t) else working h w t

theorem working_succ (h : Vector Word32 8) (w : Nat → Word32) {t : Nat} (ht : t < 64) :
    working h w (t + 1) = shaRound (working h w t) shaK[t] (w t) := dif_pos ht

/-- The first `n` rounds of the model's loop lead to the working variables in front of round `n`. -/
theorem fold_shaRound_eq_working (h : Vector Word32 8) (w : Nat → Word32) (n : Nat) (hn : n ≤ 64) :
    n.fold (fun t ht v => shaRound v (shaK[t]'(ht.trans_le hn)) (w t)) (working h w 0) = working h w n := by
  induction n with
  | zero => rw [Nat.fold_zero]
  | succ n ih => rw [Nat.fold_succ, working_succ h w hn, ih (Nat.le_of_succ_le hn)]

/-- The rounds of one compression are the recurrence over the schedule of the block (R182). -/
theorem shaRounds_messageSchedule (h : Vector Word32 8) (buf : Vector Byte 64) :
    shaRounds h (messageSchedule buf) = working h (scheduleWord buf) 64 := by
  rw [← fold_shaRound_eq_working h _ 64 le_rfl, shaRounds]
  simp only [messageSchedule_getElem]
  rfl

/-- The new `H` is the old one plus the working variables after the rounds, word by word (R182). -/
theorem shaCompress_eq_add {h : Vector Word32 8} {buf : Vector Byte 64} {v : Working}
    (hv : shaRounds h (messageSchedule buf) = v) :
    shaCompress h buf =
      #v[h[0] + v.a, h[1] + v.b, h[2] + v.c, h[3] + v.d, h[4] + v.e, h[5] + v.f, h[6] + v.g, h[7] + v.h] := by
  subst hv
  rw [shaCompress]

/-- Settles O42: the witnesses are the schedule words and the working variables by their recurrences. -/
theorem compressionRecurrence : Obligations.CompressionRecurrence := by
  intro h buf
  refine ⟨scheduleWord buf, working h (scheduleWord buf), fun t ht => scheduleWord_toNat_of_lt buf ht, fun t ht _ => ?_,
    rfl, fun t ht => ?_, ?_⟩
  · rw [scheduleWord_of_ge buf ht, ssig1_eq_rotateRight, ssig0_eq_rotateRight]
  · refine ⟨_, _, rfl, rfl, ?_⟩
    rw [working_succ h _ ht, shaRound, bsig0_eq_rotateRight, bsig1_eq_rotateRight]
    rfl
  · exact shaCompress_eq_add (shaRounds_messageSchedule h buf)

/-! ### The padding and the digest of R184 -/

/-- The zero bytes bring the message with its `0x80` to 56 modulo 64 (R184). -/
theorem add_hashZeros_mod (n : Nat) : (n + 1 + hashZeros n) % 64 = 56 := by
  rw [hashZeros]
  omega

/-- `BE64inv(w)` has the big-endian value `w` (R12). -/
@[simp] theorem beValue_be64inv (w : Word64) : beValue (be64inv w).toList = w.toNat := by
  rw [beValue_toList_eq_be64, be64_be64inv]

/-- Piece `i` of a concatenation of pieces of one length. -/
theorem take_drop_flatMap {α β : Type} {f : α → List β} {n : Nat} (hf : ∀ a, (f a).length = n) (l : List α) (i : Nat)
    (h : i < l.length) : ((l.flatMap f).drop (n * i)).take n = f l[i] := by
  induction l generalizing i with
  | nil => simp at h
  | cons a l ih =>
    cases i with
    | zero => simp [← hf a]
    | succ i =>
      have hskip : n * (i + 1) = (f a).length + n * i := by rw [hf, Nat.mul_succ, Nat.add_comm]
      rw [List.flatMap_cons, hskip, ← List.drop_drop, List.drop_left]
      exact ih i (Nat.lt_of_succ_lt_succ h)

/-- The digest is `BE32inv(H[0]) || ... || BE32inv(H[7])` as a list of bytes (R184). -/
theorem digestBytes_toList (h : Vector Word32 8) :
    (digestBytes h).toList = h.toList.flatMap fun w => (be32inv w).toList :=
  bytesAt_toList_self 32 _ (by simp [List.length_flatMap])

/-- Bytes `4i` to `4i + 3` of the digest have the big-endian value `H[i]` (R184). -/
theorem beValue_digestBytes (h : Vector Word32 8) (i : Nat) (hi : i < 8) :
    beValue (((digestBytes h).toList.drop (4 * i)).take 4) = h[i].toNat := by
  rw [digestBytes_toList, take_drop_flatMap (fun _ => Vector.length_toList) _ _ (by simpa using hi), beValue_be32inv,
    Vector.getElem_toList]

/-! ### HASH_INIT and HASH_FINAL -/

/-- In `IDLE` an empty HASH_INIT passes the checks of R96 and starts the hash (R187). -/
theorem exec_hashInit_in_idle {s : State} (hp : s.phase = .idle) :
    exec (.hashInit []) s = .next (setPhase .hash (setHash hashInitial s)) := by
  rw [exec_hashInit]
  exact withChecks_performs (by simp [hp]) rfl (by simp [hp, legalIn]) (by simp [needsKey])

/-- In `HASH` an empty HASH_FINAL passes the checks of R96, emits the digest and wipes the hash (R189). -/
theorem exec_hashFinal_in_hash {s : State} (hp : s.phase = .hash) :
    exec (.hashFinal []) s = .next (setPhase .idle (wipeHash (emit (hashDigest s.hash).toList s))) := by
  rw [exec_hashFinal]
  exact withChecks_performs (by simp [hp]) rfl (by simp [hp, legalIn]) (by simp [needsKey])

/-- Settles O39: the state that `hashInitial` loads is written out in the statement. -/
theorem hashInitLoadsTheInitialValue : Obligations.HashInitLoadsTheInitialValue :=
  fun _ hp => exec_hashInit_in_idle hp

/-- Settles O43: the witnesses are the parts of `hashPadding` and the bytes of the digest. -/
theorem hashFinalResult : Obligations.HashFinalResult := by
  intro s hp
  refine ⟨hashZeros s.hash.nbytes.toNat, (be64inv (8 * s.hash.nbytes)).toList, (hashDigest s.hash).toList,
    Nat.mod_lt _ (by decide), add_hashZeros_mod _, Vector.length_toList, ?_, Vector.length_toList, fun i hi => ?_,
    exec_hashFinal_in_hash hp⟩
  · rw [beValue_be64inv, BitVec.toNat_mul]
    rfl
  · rw [hashDigest, beValue_digestBytes]
    rfl

end Sys2Proof.Proofs
end

section
/-! The CBC pipeline's data commands (`45_cbc_pipeline.md` R201 to R209). The bytes a data command works on and the
residual it leaves come first; then ENC_DATA, the padded block of ENC_FINAL, and the four ends of DEC_DATA. -/

namespace Sys2Proof.Proofs

open Sys2Proof Sys2Proof.Machine

/-- A command that asks for no key performs its own rule where its length and the phase are good (R96). -/
theorem withChecks_of_keyless {i : Instr} {s : State} {f : State → Host.Outcome State Fault Refusal} {ph : Phase}
    (hp : s.phase = ph) (hfault : ph ≠ .fault) (hlen : lenOk i = true) (hlegal : legalIn i ph = true)
    (hkey : needsKey i = false) : withChecks i s f = f s :=
  withChecks_performs (hp ▸ hfault) hlen (hp ▸ hlegal) (by simp [hkey])

/-! ### Residual and payload -/

/-- The buffer of R202 and R208, the residual with the payload behind it. -/
theorem resBytes_append_length (s : State) (p : List Byte) :
    (resBytes s ++ p).length = s.rlen.val + p.length := by
  rw [List.length_append, resBytes_length]

/-- The bytes after the complete blocks of residual and payload become the new residual, zero-filled (R26). -/
theorem setResidual_restOf_append (s t : State) (p : List Byte) :
    setResidual (restOf (resBytes s ++ p)) t =
      { t with
        res := bytesAt 16 (16 * ((s.rlen.val + p.length) / 16)) (resBytes s ++ p)
        rlen := Fin.ofNat 16 (s.rlen.val + p.length) } := by
  rw [setResidual, restOf_bytes, restOf_length, finOfNat_mod, resBytes_append_length]

/-! ### ENC_DATA -/

/-- In `ENC` below the hash bound, ENC_DATA encrypts the complete blocks and keeps the rest (R202). -/
theorem exec_encData_in_enc {s : State} {p : List Byte} (hp : s.phase = .enc)
    (hb : s.hash.nbytes.toNat + 16 * ((s.rlen.val + p.length) / 16) < 2 ^ 61) :
    exec (.encData p) s =
      .next (setResidual (restOf (resBytes s ++ p)) (encBlocks Config.cfg s (blocksOf (resBytes s ++ p)))) := by
  rw [exec_encData, withChecks_of_keyless hp (by decide) rfl rfl rfl]
  exact hashGuard_performs (by rwa [resBytes_append_length])

/-- Settles O46: the witnesses are the chain values of the run of blocks and the ciphertexts they spell. -/
theorem encDataResult : Obligations.EncDataResult := by
  intro s p hp hb
  have hnb : (blocksOf (resBytes s ++ p)).length = (s.rlen.val + p.length) / 16 := by
    rw [blocksOf_length, resBytes_append_length]
  obtain ⟨c, hfirst, hnext, hrun⟩ := encBlocks_spec Config.cfg (blocksOf (resBytes s ++ p)) s
  rw [hnb] at hrun
  refine ⟨c, resBytes s ++ p, _, _, rfl, rfl, hfirst, fun i hi => ?_, rfl, ?_⟩
  · rw [hnext i (hnb ▸ hi), blocksOf_getElem]
  · rw [exec_encData_in_enc hp hb, setResidual_restOf_append, hrun]

/-! ### ENC_FINAL -/

/-- R204 byte by byte: the residual, then `16 - RLEN` bytes of that value. -/
theorem padBlock_resBytes_getElem (s : State) (i : Nat) (h : i < 16) :
    (padBlock (resBytes s))[i] = if i < s.rlen.val then s.res[i] else BitVec.ofNat 8 (16 - s.rlen.val) := by
  have hlen := resBytes_length s
  rw [padBlock, bytesAt_getElem, Nat.zero_add, hlen]
  split
  case isTrue hres =>
    rw [List.getD_append _ _ _ _ (by omega), List.getD_eq_getElem _ _ (by omega)]
    simp [resBytes]
  case isFalse hpad =>
    rw [List.getD_append_right _ _ _ _ (by omega), List.getD_replicate _ (by omega)]

/-- In `ENC` below the hash bound, an empty ENC_FINAL encrypts the padded block, emits the digest and wipes the stream
(R203). -/
theorem exec_encFinal_in_enc {s : State} (hp : s.phase = .enc) (hb : s.hash.nbytes.toNat + 16 < 2 ^ 61) :
    exec (.encFinal []) s =
      .next (setPhase .idle (wipeHash (wipeChain
        (emit (hashDigest (encBlock Config.cfg s (padBlock (resBytes s))).hash).toList
          (encBlock Config.cfg s (padBlock (resBytes s))))))) := by
  rw [exec_encFinal, withChecks_of_keyless hp (by decide) rfl rfl rfl]
  exact hashGuard_performs hb

/-- Settles O48: the witnesses are the padded block and its ciphertext. -/
theorem encFinalResult : Obligations.EncFinalResult := by
  intro s hp hb
  refine ⟨padBlock (resBytes s), _, padBlock_resBytes_getElem s, rfl, ?_⟩
  rw [exec_encFinal_in_enc hp hb, encBlock_eq]
  rfl

/-! ### DEC_DATA: a run of ciphertext blocks -/

/-- The plaintext of ciphertext block `i` of `buf`: the decrypted block XORed with the ciphertext before it, which for the
first is `CHAIN` (R207). -/
def plainBlock (s : State) (buf : List Byte) (i : Nat) : Block :=
  xorBytes (blockDecrypt Config.cfg s.k (bytesAt 16 (16 * i) buf))
    (if i = 0 then s.chain else bytesAt 16 (16 * (i - 1)) buf)

/-- The plaintext of the first `n` ciphertext blocks of `buf`. -/
def plainBytes (s : State) (buf : List Byte) (n : Nat) : List Byte :=
  (List.range n).flatMap fun i => (plainBlock s buf i).toList

/-- The state after the complete blocks of `buf`, with `out` emitted (R207): `CHAIN` is the last of them and the hash took
them all. -/
def afterBlocks (s : State) (buf out : List Byte) : State :=
  { s with
    chain := if buf.length / 16 = 0 then s.chain else bytesAt 16 (16 * (buf.length / 16 - 1)) buf
    hash := hashBytes s.hash (buf.take (16 * (buf.length / 16)))
    dout := s.dout ++ out }

/-- `plainBlock` lists the plaintexts that `decBlocks_spec` asks for. -/
theorem plainBlock_eq_of_blocksOf (s : State) (buf : List Byte) (i : Nat) (h : i < (blocksOf buf).length) :
    plainBlock s buf i =
      xorBytes (blockDecrypt Config.cfg s.k (blocksOf buf)[i])
        (if i = 0 then s.chain else (blocksOf buf).getD (i - 1) s.chain) := by
  rw [plainBlock, blocksOf_getElem, List.getD_eq_getElem _ _ (by omega), blocksOf_getElem]

/-- While ciphertext is still missing, or when no block is complete, every block is emitted whole (R208). -/
theorem decBlocks_blocksOf_inner {s : State} {buf : List Byte} (h : s.crem ≠ 0 ∨ buf.length / 16 = 0) :
    decBlocks Config.cfg s (blocksOf buf) = .ok (afterBlocks s buf (plainBytes s buf (buf.length / 16))) := by
  have hspec := (decBlocks_spec Config.cfg (blocksOf buf) s _ (plainBlock_eq_of_blocksOf s buf)).1
  rw [blocksOf_length, blk_last, blocksOf_flat] at hspec
  exact hspec h

/-- The container's last block is emitted without its padding (R208, R209). -/
theorem decBlocks_blocksOf_unpadded {s : State} {buf r : List Byte} (hcrem : s.crem = 0) (hnb : buf.length / 16 ≠ 0)
    (hr : unpad (plainBlock s buf (buf.length / 16 - 1)) = some r) :
    decBlocks Config.cfg s (blocksOf buf) =
      .ok (afterBlocks s buf (plainBytes s buf (buf.length / 16 - 1) ++ r)) := by
  have hspec := (decBlocks_spec Config.cfg (blocksOf buf) s _ (plainBlock_eq_of_blocksOf s buf)).2
  simp only [blocksOf_length, blk_last, blocksOf_flat] at hspec
  rw [hspec hcrem hnb, hr, afterBlocks, ← List.append_assoc]
  rfl

/-- The container's last block has invalid padding: only the blocks before it are emitted (R208, R209). -/
theorem decBlocks_blocksOf_invalid {s : State} {buf : List Byte} (hcrem : s.crem = 0) (hnb : buf.length / 16 ≠ 0)
    (hr : unpad (plainBlock s buf (buf.length / 16 - 1)) = none) :
    decBlocks Config.cfg s (blocksOf buf) = .error (afterBlocks s buf (plainBytes s buf (buf.length / 16 - 1))) := by
  have hspec := (decBlocks_spec Config.cfg (blocksOf buf) s _ (plainBlock_eq_of_blocksOf s buf)).2
  simp only [blocksOf_length, blk_last, blocksOf_flat] at hspec
  rw [hspec hcrem hnb, hr]
  rfl

/-! ### DEC_DATA: the command -/

/-- In `DEC`, a payload longer than `CREM` overruns before anything of it is consumed (R208). -/
theorem exec_decData_overrun {s : State} {p : List Byte} (hp : s.phase = .dec) (h : s.crem.toNat < p.length) :
    exec (.decData p) s = .next (faulted 0x14 [] s) := by
  rw [exec_decData, withChecks_of_keyless hp (by decide) rfl rfl rfl, if_pos h,
    takeFault_eq]
  rfl

/-- The state DEC_DATA works on: the announced length already reduced by the payload (R208). -/
def takeAnnounced (s : State) (p : List Byte) : State := setCrem (s.crem - BitVec.ofNat 64 p.length) s

/-- What DEC_DATA makes of its run of blocks (R208): invalid padding faults, and otherwise the bytes after the complete
blocks become the residual. -/
def finishDecData (buf : List Byte) : Except State State → Host.Outcome State Fault Refusal
  | .error t => .next (takeFault .padding t)
  | .ok t => .next (setResidual (restOf buf) t)

/-- In `DEC` below the hash bound, a DEC_DATA whose payload was announced runs the blocks and finishes by their result
(R208). -/
theorem exec_decData_within {s : State} {p : List Byte} (hp : s.phase = .dec)
    (hb : s.hash.nbytes.toNat + 16 * ((s.rlen.val + p.length) / 16) < 2 ^ 61) (hle : p.length ≤ s.crem.toNat) :
    exec (.decData p) s =
      finishDecData (resBytes s ++ p) (decBlocks Config.cfg (takeAnnounced s p) (blocksOf (resBytes s ++ p))) := by
  rw [exec_decData, withChecks_of_keyless hp (by decide) rfl rfl rfl,
    if_neg hle.not_gt]
  exact hashGuard_performs (by rwa [resBytes_append_length])

/-- `CREM` is 0 after the payload exactly when the payload is all that was announced (R208). -/
theorem takeAnnounced_crem_eq_zero_iff {s : State} {p : List Byte} (hle : p.length ≤ s.crem.toNat) :
    (takeAnnounced s p).crem = 0 ↔ p.length = s.crem.toNat := by
  rw [takeAnnounced, setCrem_crem, ← BitVec.toNat_inj, crem_sub _ _ hle, BitVec.ofNat_eq_ofNat, BitVec.toNat_zero]
  omega

/-- Settles O50: `plainBlock` lists the plaintexts; the run of blocks ends in one of three ways, by `CREM` and by the
padding of the last block. -/
theorem decDataResult : Obligations.DecDataResult := by
  intro s p hp hb
  refine ⟨exec_decData_overrun hp, fun hle => ?_⟩
  have hexec := exec_decData_within hp hb hle
  have hcrem := takeAnnounced_crem_eq_zero_iff hle
  have hlen := resBytes_append_length s p
  refine ⟨fun i => bytesAt 16 (16 * i) _, plainBlock s _, resBytes s ++ p, _, _, rfl, rfl, fun _ => rfl, fun _ => rfl,
    rfl, fun hinner => ?_,
    fun hall hnb pad hpad => ⟨fun hvalid => ?_, fun hinvalid => ?_⟩⟩
  · have hrun : (takeAnnounced s p).crem ≠ 0 ∨ (resBytes s ++ p).length / 16 = 0 := by
      rw [ne_eq, hcrem, hlen]
      exact hinner.imp_left Nat.ne_of_lt
    rw [hexec, decBlocks_blocksOf_inner hrun, finishDecData, setResidual_restOf_append, afterBlocks, hlen]
    rfl
  · subst hpad
    rw [← hlen] at hnb hvalid
    rw [hexec, decBlocks_blocksOf_unpadded (hcrem.mpr hall) hnb (unpad_some _ hvalid), finishDecData,
      setResidual_restOf_append, afterBlocks, hlen, ← List.append_assoc]
    rfl
  · subst hpad
    rw [← hlen] at hnb hinvalid
    rw [hexec, decBlocks_blocksOf_invalid (hcrem.mpr hall) hnb (unpad_none _ hinvalid), finishDecData, hlen]
    rfl

end Sys2Proof.Proofs
end

section
/-! Phase `FAULT` (`60_exceptions.md` R258). What a step does with a complete command comes first; then which words are the
two commands that still act, and that every other command is ignored. -/

namespace Sys2Proof.Proofs

open Sys2Proof Sys2Proof.Machine

/-! ### One step with a complete command -/

/-- The fetch takes the word and its `len` payload bytes and leaves what follows them (R91). -/
theorem fetch_of_complete {s : State} {w : Word32} {ws : List Word32} {payload rest : List Byte}
    (hcmd : s.cmd = w :: ws) (hdin : s.din = payload ++ rest) (hlen : payload.length = w.toNat % 2 ^ 16) :
    fetch s = .command w payload { s with cmd := ws, din := rest } := by
  rw [← lenField_eq_mod] at hlen
  simp [fetch, hcmd, hdin, ← hlen]

/-- A complete command is performed at the state left by the fetch. -/
theorem step_of_decode_ok {s : State} {w : Word32} {ws : List Word32} {payload rest : List Byte} {i : Instr}
    (hcmd : s.cmd = w :: ws) (hdin : s.din = payload ++ rest) (hlen : payload.length = w.toNat % 2 ^ 16)
    (hdecode : decode w payload = .ok i) : step s = exec i { s with cmd := ws, din := rest } := by
  simp only [step, fetch_of_complete hcmd hdin hlen, hdecode]

/-- A word that decodes to no command is answered at the state left by the fetch (R98). -/
theorem step_of_decode_error {s : State} {w : Word32} {ws : List Word32} {payload rest : List Byte} {e : DecodeError}
    (hcmd : s.cmd = w :: ws) (hdin : s.din = payload ++ rest) (hlen : payload.length = w.toNat % 2 ^ 16)
    (hdecode : decode w payload = .error e) : step s = .next (illegalCommand { s with cmd := ws, din := rest }) := by
  simp only [step, fetch_of_complete hcmd hdin hlen, hdecode]

/-! ### The word of a command without payload -/

/-- Exactly one word decodes to a command without payload: its opcode followed by zeros (R90, R93). -/
theorem decode_eq_ok_iff_of_payload_nil {w : Word32} {payload : List Byte} {i : Instr}
    (hlen : payload.length = w.toNat % 2 ^ 16) (hi : i.payload = []) :
    decode w payload = .ok i ↔ w.toNat = 2 ^ 24 * (opcodeOf i).toNat := by
  rw [decode_eq_ok_iff_upperHalf hlen, hi, @eq_comm _ [] payload, ← List.length_eq_zero_iff, hlen]
  omega

theorem decode_eq_zeroize_iff {w : Word32} {payload : List Byte} (hlen : payload.length = w.toNat % 2 ^ 16) :
    decode w payload = .ok (.zeroize []) ↔ w = 0x01000000 := by
  rw [decode_eq_ok_iff_of_payload_nil hlen rfl, ← BitVec.toNat_inj]
  rfl

theorem decode_eq_rdStatus_iff {w : Word32} {payload : List Byte} (hlen : payload.length = w.toNat % 2 ^ 16) :
    decode w payload = .ok (.rdStatus []) ↔ w = 0x03000000 := by
  rw [decode_eq_ok_iff_of_payload_nil hlen rfl, ← BitVec.toNat_inj]
  rfl

/-! ### Commands in phase `FAULT` -/

/-- ZEROIZE gives the reset state in every phase (R241). -/
theorem exec_zeroize_nil (s : State) : exec (.zeroize []) s = .next (toReset s) := by
  rw [exec_zeroize]
  exact withChecks_of_always_legal rfl (fun _ => rfl) rfl

/-- NOP in phase `FAULT`, ignored or performed, changes nothing, whatever its payload (R240, R258). -/
theorem exec_nop_in_fault {s : State} (hp : s.phase = .fault) (payload : List Byte) :
    exec (.nop payload) s = .next s := by
  rw [exec_nop]
  cases hl : lenOk (.nop payload) with
  | true => exact withChecks_in_fault hp hl rfl
  | false => exact withChecks_ignored hp (.inl hl)

/-- In phase `FAULT` a command that is not a well-formed RD_STATUS or ZEROIZE changes nothing: NOP has nothing to do, the
malformed forms of the other two fail check 2, and no other command is legal there (R258). -/
theorem exec_ignored_in_fault {i : Instr} {s : State} (hp : s.phase = .fault) (hzeroize : i ≠ .zeroize [])
    (hrdStatus : i ≠ .rdStatus []) : exec i s = .next s := by
  cases i with
  | nop p => exact exec_nop_in_fault hp p
  | zeroize p =>
    have hlen : lenOk (.zeroize p) = false := by simpa [lenOk, requiredLen, Instr.payload] using hzeroize
    exact (exec_zeroize p s).trans (withChecks_ignored hp (.inl hlen))
  | rdStatus p =>
    have hlen : lenOk (.rdStatus p) = false := by simpa [lenOk, requiredLen, Instr.payload] using hrdStatus
    exact (exec_rdStatus p s).trans (withChecks_ignored hp (.inl hlen))
  | _ =>
    simp only [exec_abort, exec_kdfInit, exec_kdfAbsorb, exec_kdfFinal, exec_kmRead, exec_ksDerive, exec_ksLoad,
      exec_blkEnc, exec_blkDec, exec_encStart, exec_encData, exec_encFinal, exec_decStart, exec_decData,
      exec_decFinal, exec_hashInit, exec_hashUpdate, exec_hashFinal]
    exact withChecks_ignored hp (.inr rfl)

/-- A word that decodes to no command is ignored in phase `FAULT` (R98). -/
theorem illegalCommand_in_fault {s : State} (hp : s.phase = .fault) : illegalCommand s = s := if_pos hp

/-! ### The statement -/

/-- Settles O14: only the words `0x01000000` and `0x03000000` decode to a command that acts in phase `FAULT`; what decodes
to another command, or to none, is ignored. -/
theorem faultPhaseIgnoresOtherWords : Obligations.FaultPhaseIgnoresOtherWords := by
  intro s w ws payload rest hp hcmd hdin hlen
  refine ⟨fun hzeroize hrdStatus => ?_, fun hw => ?_, fun hw => ?_⟩
  · cases hdecode : decode w payload with
    | error e =>
      rw [step_of_decode_error hcmd hdin hlen hdecode]
      exact congrArg Host.Outcome.next (illegalCommand_in_fault hp)
    | ok i =>
      rw [step_of_decode_ok hcmd hdin hlen hdecode]
      refine exec_ignored_in_fault hp ?_ ?_
      · rintro rfl
        exact hzeroize ((decode_eq_zeroize_iff hlen).mp hdecode)
      · rintro rfl
        exact hrdStatus ((decode_eq_rdStatus_iff hlen).mp hdecode)
  · refine ⟨(be32inv (status s)).toList, Vector.length_toList, beValue_be32inv _, ?_⟩
    rw [step_of_decode_ok hcmd hdin hlen ((decode_eq_rdStatus_iff hlen).mpr hw), exec_rdStatus_nil]
    rfl
  · rw [step_of_decode_ok hcmd hdin hlen ((decode_eq_zeroize_iff hlen).mpr hw), exec_zeroize_nil]
    rfl

end Sys2Proof.Proofs
end

section
/-! Encoding and decoding (`30_encoding.md` R90, R93, R98, R99): the word of a command as a number, the two readings
of the opcode map as inverses of each other, and what a step does with a word that decodes to a command and with one
that does not. -/

namespace Sys2Proof.Proofs

open Sys2Proof Sys2Proof.Machine

/-! ### The word of a command -/

theorem payload_length_le_of_framable {i : Instr} (h : i.framable = true) : i.payload.length ≤ 65535 :=
  of_decide_eq_true h

/-- The `len` field of a command's word is its payload length (R91). -/
theorem lenField_encodeWord {i : Instr} (h : i.framable = true) : lenField (encodeWord i) = i.payload.length := by
  obtain ⟨-, -, hlen⟩ := Laws.fields_of_word (opcodeOf i) _ (payload_length_le_of_framable h)
  exact hlen

/-- The word of a command as a number: its opcode above its payload length (R90). -/
theorem encodeWord_toNat {i : Instr} (h : i.framable = true) :
    (encodeWord i).toNat = 2 ^ 24 * (opcodeOf i).toNat + i.payload.length := by
  have hlen := payload_length_le_of_framable h
  simp only [encodeWord, toNat_append_eq_mul_add, BitVec.toNat_ofNat, BitVec.ofNat_eq_ofNat]
  omega

/-- Whatever decodes was framed: the payload is the `len` bytes of its word (R91). -/
theorem length_eq_lenField_of_decode_ok {w : Word32} {payload : List Byte} {i : Instr} (h : decode w payload = .ok i) :
    payload.length = lenField w := by
  by_contra hne
  simp [decode, hne] at h

/-- Settles O1: the fields of the command's word are its opcode, 0 and its payload length, which is what `decode`
asks. -/
theorem decodeInvertsEncode : Obligations.DecodeInvertsEncode := by
  intro i hi
  obtain ⟨hop, hrsvd, hlen⟩ := Laws.fields_of_word (opcodeOf i) _ (payload_length_le_of_framable hi)
  exact (decode_eq_ok_iff (lenField_encodeWord hi).symm i).mpr ⟨hrsvd, hop.symm, rfl⟩

/-- Settles O2: opcode, `rsvd` and length determine the word, and all three are those of the decoded command. -/
theorem encodeInvertsDecode : Obligations.EncodeInvertsDecode := by
  intro w payload i h
  have hlen := (length_eq_lenField_of_decode_ok h).trans (lenField_eq_mod w)
  obtain ⟨hupper, rfl⟩ := (decode_eq_ok_iff_upperHalf hlen i).mp h
  have hframable : i.framable = true := decide_eq_true (by rw [maxPayload]; omega)
  have hword : encodeWord i = w := BitVec.eq_of_toNat_eq (by rw [encodeWord_toNat hframable]; omega)
  rw [encode, hword]

/-- Settles O4: both sides are closed terms that evaluate alike. -/
theorem wordsOfTheOpcodeMapDecode : Obligations.WordsOfTheOpcodeMapDecode :=
  ⟨rfl, rfl, rfl, rfl, rfl, rfl, rfl, rfl, rfl⟩

/-! ### One step -/

/-- Settles O5: this is what `step` does after the fetch. -/
theorem stepRunsTheDecodedCommand : Obligations.StepRunsTheDecodedCommand :=
  fun _ _ _ _ _ _ hcmd hdin hlen hdecode => step_of_decode_ok hcmd hdin hlen hdecode

theorem step_of_cmd_nil {s : State} (h : s.cmd = []) : step s = .next s := by
  simp [step, fetch, h]

/-- Settles O6: the two cases in which the fetch finds no complete command. -/
theorem stepWaitsForACompleteCommand : Obligations.StepWaitsForACompleteCommand := by
  refine fun s => ⟨step_of_cmd_nil, fun w ws hcmd hlen => ?_⟩
  rw [← lenField_eq_mod] at hlen
  simp [step, fetch, hcmd, hlen]

/-! ### Words that are no command -/

/-- A command's opcode is one of the 21 of R93. -/
theorem opcodeOf_toNat_mem (i : Instr) :
    (opcodeOf i).toNat ∈ [0x00, 0x01, 0x02, 0x03, 0x10, 0x11, 0x12, 0x13, 0x14, 0x15, 0x20, 0x21, 0x30, 0x31, 0x32,
      0x38, 0x39, 0x3A, 0x40, 0x41, 0x42] := by
  cases i <;> simp [opcodeOf]

/-- A word of a nonzero `rsvd` field or of an opcode outside the map decodes to no command (R98). -/
theorem exists_decode_eq_error {w : Word32} {payload : List Byte} (hlen : payload.length = w.toNat % 2 ^ 16)
    (hbad : w.toNat / 2 ^ 16 % 2 ^ 8 ≠ 0 ∨
      w.toNat / 2 ^ 24 ∉ [0x00, 0x01, 0x02, 0x03, 0x10, 0x11, 0x12, 0x13, 0x14, 0x15, 0x20, 0x21, 0x30, 0x31, 0x32,
        0x38, 0x39, 0x3A, 0x40, 0x41, 0x42]) : ∃ e, decode w payload = .error e := by
  cases hdecode : decode w payload with
  | error e => exact ⟨e, rfl⟩
  | ok i =>
    obtain ⟨hupper, -⟩ := (decode_eq_ok_iff_upperHalf hlen i).mp hdecode
    have hop : w.toNat / 2 ^ 24 = (opcodeOf i).toNat := by omega
    rcases hbad with hrsvd | hop'
    · omega
    · exact absurd (hop ▸ opcodeOf_toNat_mem i) hop'

/-- Outside phase `FAULT` a word that decodes to no command faults with `E_ILLEGAL` (R98). -/
theorem illegalCommand_outside_fault {s : State} (hp : s.phase ≠ .fault) : illegalCommand s = faulted 0x10 [] s :=
  (if_neg hp).trans (takeFault_eq .illegal s)

/-- Settles O9: such a word decodes to no command, and `illegalCommand` says what it does in either case. -/
theorem illegalWordsFaultOrAreIgnored : Obligations.IllegalWordsFaultOrAreIgnored := by
  intro s w ws payload rest hcmd hdin hlen hbad
  obtain ⟨e, hdecode⟩ := exists_decode_eq_error hlen hbad
  rw [step_of_decode_error hcmd hdin hlen hdecode]
  exact ⟨fun hp => congrArg _ (illegalCommand_outside_fault hp), fun hp => congrArg _ (illegalCommand_in_fault hp)⟩

end Sys2Proof.Proofs
end

section
/-! The admission checks over all commands (`30_encoding.md` R94, R96, R97): one lemma per check, for every command,
and the statements as their instances. -/

namespace Sys2Proof.Proofs

open Sys2Proof Sys2Proof.Machine

/-- Every command stands behind the admission checks (R96). -/
theorem exists_exec_eq_withChecks (i : Instr) (s : State) : ∃ f, exec i s = withChecks i s f := by
  cases i with
  | nop p => exact ⟨_, exec_nop p s⟩
  | zeroize p => exact ⟨_, exec_zeroize p s⟩
  | abort p => exact ⟨_, exec_abort p s⟩
  | rdStatus p => exact ⟨_, exec_rdStatus p s⟩
  | kdfInit p => exact ⟨_, exec_kdfInit p s⟩
  | kdfAbsorb p => exact ⟨_, exec_kdfAbsorb p s⟩
  | kdfFinal p => exact ⟨_, exec_kdfFinal p s⟩
  | kmRead p => exact ⟨_, exec_kmRead p s⟩
  | ksDerive p => exact ⟨_, exec_ksDerive p s⟩
  | ksLoad p => exact ⟨_, exec_ksLoad p s⟩
  | blkEnc p => exact ⟨_, exec_blkEnc p s⟩
  | blkDec p => exact ⟨_, exec_blkDec p s⟩
  | encStart p => exact ⟨_, exec_encStart p s⟩
  | encData p => exact ⟨_, exec_encData p s⟩
  | encFinal p => exact ⟨_, exec_encFinal p s⟩
  | decStart p => exact ⟨_, exec_decStart p s⟩
  | decData p => exact ⟨_, exec_decData p s⟩
  | decFinal p => exact ⟨_, exec_decFinal p s⟩
  | hashInit p => exact ⟨_, exec_hashInit p s⟩
  | hashUpdate p => exact ⟨_, exec_hashUpdate p s⟩
  | hashFinal p => exact ⟨_, exec_hashFinal p s⟩

/-- Check 2 of R96. -/
theorem exec_of_bad_len {i : Instr} {s : State} (hp : s.phase ≠ .fault) (hlen : lenOk i = false) :
    exec i s = .next (faulted 0x11 [] s) := by
  obtain ⟨f, hf⟩ := exists_exec_eq_withChecks i s
  simp [hf, withChecks, hp, hlen, takeFault_eq, errCode]

/-- Check 3 of R96. -/
theorem exec_of_bad_phase {i : Instr} {s : State} (hp : s.phase ≠ .fault) (hlen : lenOk i = true)
    (hlegal : legalIn i s.phase = false) : exec i s = .next (faulted 0x12 [] s) := by
  obtain ⟨f, hf⟩ := exists_exec_eq_withChecks i s
  simp [hf, withChecks, hp, hlen, hlegal, takeFault_eq, errCode]

/-- Check 4 of R96. -/
theorem exec_of_no_key {i : Instr} {s : State} (hp : s.phase = .idle) (hkv : s.kv = false) (hlen : lenOk i = true)
    (hlegal : legalIn i .idle = true) (hkey : needsKey i = true) : exec i s = .next (faulted 0x13 [] s) := by
  obtain ⟨f, hf⟩ := exists_exec_eq_withChecks i s
  simp [hf, withChecks, hp, hlen, hlegal, hkey, hkv, takeFault_eq, errCode]

/-- The length rule of R94 for a command of fixed length. -/
theorem lenOk_of_requiredLen {i : Instr} {n : Nat} (h : requiredLen i = some n) :
    lenOk i = (i.payload.length == n) := by
  simp [lenOk, h]

theorem lenOk_of_length {i : Instr} {n : Nat} (hreq : requiredLen i = some n) (hlen : i.payload.length = n) :
    lenOk i = true := by
  simp [lenOk_of_requiredLen hreq, hlen]

/-- A fixed length that the payload does not have fails check 2 (R94, R96). -/
theorem exec_of_length_ne {i : Instr} {s : State} {n : Nat} (hp : s.phase ≠ .fault) (hreq : requiredLen i = some n)
    (hne : i.payload.length ≠ n) : exec i s = .next (faulted 0x11 [] s) :=
  exec_of_bad_len hp (by simp [lenOk_of_requiredLen hreq, hne])

/-- Settles O11: the fixed length of each command is its `requiredLen`. -/
theorem wrongLengthFaults : Obligations.WrongLengthFaults := by
  intro s p hp
  refine ⟨fun hlen => ?_, fun hlen => exec_of_length_ne hp rfl hlen, fun hlen => ?_,
    fun hlen => exec_of_length_ne hp rfl hlen, fun hlen => exec_of_length_ne hp rfl hlen⟩
  · simp only [List.forall_mem_cons, List.not_mem_nil, false_imp_iff, implies_true, and_true]
    refine ⟨?_, ?_, ?_, ?_, ?_, ?_, ?_, ?_, ?_, ?_, ?_⟩ <;> exact exec_of_length_ne hp rfl hlen
  · simp only [List.forall_mem_cons, List.not_mem_nil, false_imp_iff, implies_true, and_true]
    refine ⟨?_, ?_, ?_⟩ <;> exact exec_of_length_ne hp rfl hlen

/-- A command that is legal in one phase only faults in every other phase (R97). -/
theorem exec_of_phase_ne {i : Instr} {s : State} {ph : Phase} (hp : s.phase ≠ .fault) (hlen : lenOk i = true)
    (hlegal : ∀ q, legalIn i q = (q == ph)) (hne : s.phase ≠ ph) : exec i s = .next (faulted 0x12 [] s) :=
  exec_of_bad_phase hp hlen (by simp [hlegal, hne])

/-- Settles O12: all but KDF_INIT are legal in one phase only. -/
theorem wrongPhaseFaults : Obligations.WrongPhaseFaults := by
  intro s p hp
  simp only [List.forall_mem_cons, List.not_mem_nil, false_imp_iff, implies_true, and_true]
  refine ⟨fun hne => ?_, fun hne => ⟨?_, ?_⟩, fun hne => ⟨?_, ?_⟩, fun hne hlen => ?_, fun hne hlen => ⟨?_, ?_, ?_⟩,
    fun hne hlen => ?_, fun hne => ?_, fun hne => ⟨?_, ?_⟩, fun hne => ?_, fun hne hlen => ?_, fun hne => ⟨?_, ?_⟩⟩
  case refine_1 =>
    simp only [List.mem_cons, List.not_mem_nil, or_false, not_or] at hne
    obtain ⟨hidle, hkdfAbs, hkdfRdy⟩ := hne
    exact exec_of_bad_phase hp rfl (by simp [legalIn, hidle, hkdfAbs, hkdfRdy])
  case refine_6 | refine_7 | refine_8 | refine_9 | refine_10 | refine_15 =>
    exact exec_of_phase_ne hp (lenOk_of_length rfl hlen) (fun _ => rfl) hne
  all_goals exact exec_of_phase_ne hp rfl (fun _ => rfl) hne

/-- Settles O13: the four commands that need a key, in the phase where they are legal. -/
theorem missingKeyFaults : Obligations.MissingKeyFaults := by
  intro s p hp hkv
  simp only [List.forall_mem_cons, List.not_mem_nil, false_imp_iff, implies_true, and_true]
  refine ⟨fun hlen => ⟨?_, ?_, ?_⟩, fun hlen => ?_⟩ <;>
    exact exec_of_no_key hp hkv (lenOk_of_length rfl hlen) rfl rfl

end Sys2Proof.Proofs
end

section
/-! The commands whose effect is one register write after another (`46_system.md` R240 to R242; `41_kdf.md` R131, R136;
`42_key_schedule.md` R151; `45_cbc_pipeline.md` R200, R206, R212): that they pass the admission checks, and the values
they write in the words of the statements. -/

namespace Sys2Proof.Proofs

open Sys2Proof Sys2Proof.Machine

/-! ### System commands -/

/-- Settles O20: no check stops NOP, and it does nothing. -/
theorem nopChangesNothing : Obligations.NopChangesNothing :=
  fun s => (exec_nop [] s).trans (withChecks_of_always_legal rfl (fun _ => rfl) rfl)

/-- Settles O21: the registers of `toReset` are written out in the statement. -/
theorem zeroizeGivesTheResetState : Obligations.ZeroizeGivesTheResetState := exec_zeroize_nil

/-- Settles O22: ABORT is legal in every phase but `FAULT`, and its writes are those of the statement. -/
theorem abortKeepsOnlyTheKey : Obligations.AbortKeepsOnlyTheKey := by
  intro s hp
  rw [exec_abort]
  exact withChecks_performs hp rfl (by simp [legalIn, hp]) (by simp [needsKey])

/-! ### Key derivation -/

/-- Settles O24: KDF_INIT is legal in the three phases, and its writes are those of the statement. -/
theorem kdfInitZeroesTheKdf : Obligations.KdfInitZeroesTheKdf := by
  intro s hp
  rw [exec_kdfInit]
  simp only [List.mem_cons, List.not_mem_nil, or_false] at hp
  refine withChecks_performs ?_ rfl ?_ (by simp [needsKey]) <;> rcases hp with hp | hp | hp <;> simp [hp, legalIn]

/-- KeyMaterial is the first 512 bytes of `WORK` (R33). -/
theorem keyMaterial_getElem (st : KdfState) (i : Nat) (h : i < 512) : (keyMaterial st)[i] = st.work[i] := by
  have hwork : i < 1536 := by omega
  rw [keyMaterial, bytesAt_getElem]
  simp [hwork]

/-- Settles O29: what is emitted is KeyMaterial. -/
theorem kmReadEmitsKeyMaterial : Obligations.KmReadEmitsKeyMaterial := by
  intro s hp
  refine ⟨(keyMaterial s.kdf).toList, Vector.length_toList, fun i hi => ?_, ?_⟩
  · rw [List.getD_eq_getElem _ _ (by simpa using hi), Vector.getElem_toList, keyMaterial_getElem _ _ hi]
  · rw [exec_kmRead, withChecks_of_keyless hp (by decide) rfl rfl rfl]
    rfl

/-- In `KDF_RDY` KS_DERIVE loads the schedule of KeyMaterial and wipes the KDF (R151). -/
theorem exec_ksDerive_in_kdfRdy {s : State} (hp : s.phase = .kdfRdy) :
    exec (.ksDerive []) s = .next (setPhase .idle (wipeKdf (loadKey (schedule (keyMaterial s.kdf)) s))) := by
  rw [exec_ksDerive]
  exact withChecks_of_keyless hp (by decide) rfl rfl rfl

/-- Eight bytes of KeyMaterial are eight bytes of `WORK` (R33). -/
theorem keyMaterial_take_drop (st : KdfState) (i : Nat) (h : i < 64) :
    ((keyMaterial st).toList.drop (8 * i)).take 8 = (st.work.toList.drop (8 * i)).take 8 := by
  rw [keyMaterial, bytesAt_toList 512 0 _ (by simp), List.drop_zero, List.drop_take, List.take_take,
    min_eq_left (by omega)]

/-- Settles O32: the words are the schedule of KeyMaterial, each with the value of its eight bytes of `WORK`. -/
theorem ksDeriveConsumesKeyMaterial : Obligations.KsDeriveConsumesKeyMaterial := by
  intro s hp
  refine ⟨schedule (keyMaterial s.kdf), fun i hi => ?_, exec_ksDerive_in_kdfRdy hp⟩
  rw [schedule_getElem_toNat _ i hi, keyMaterial_take_drop _ i hi]

/-! ### The ends of a stream -/

/-- The residual emptied (R200, R206). -/
theorem setResidual_nil (s : State) : setResidual [] s = { s with res := Vector.replicate 16 0, rlen := 0 } := by
  have hzero : bytesAt 16 0 [] = Vector.replicate 16 0 := by
    ext1 i h
    simp
  rw [setResidual, hzero]
  rfl

/-- In `IDLE` with a key, an ENC_START of 16 bytes passes the checks of R96 and starts the stream (R200). -/
theorem exec_encStart_in_idle {s : State} {p : List Byte} (hp : s.phase = .idle) (hkv : s.kv = true)
    (hlen : p.length = 16) :
    exec (.encStart p) s = .next (setPhase .enc (clearAuth (setHash hashInitial (setResidual []
      (setChain (operandBlock p) (emit (operandBlock p).toList s)))))) := by
  rw [exec_encStart]
  exact withChecks_in_idle_with_key hp hkv (lenOk_of_length rfl hlen) rfl

/-- Settles O45: the block of ENC_START is its payload. -/
theorem encStartResult : Obligations.EncStartResult := by
  intro s p hp hkv hlen
  rw [exec_encStart_in_idle hp hkv hlen, setResidual_nil, operandBlock_toList hlen]
  rfl

/-- The announced length of a DEC_START is the value of its first eight bytes (R206). -/
theorem be64_operandLenBytes_toNat {p : List Byte} (h : 8 ≤ p.length) :
    (be64 (operandLenBytes p)).toNat = beValue (p.take 8) := by
  rw [← beValue_toList_eq_be64, operandLenBytes, bytesAt_toList 8 0 p (by omega), List.drop_zero]

/-- The malformed test of R206 in one number: `L - 48` is a positive multiple of 16 exactly when `L` is a multiple of 16
from 64 on. -/
theorem malformed_eq_false_iff (len : Word64) : malformed len = false ↔ 64 ≤ len.toNat ∧ len.toNat % 16 = 0 := by
  simp only [malformed, Bool.or_eq_false_iff, decide_eq_false_iff_not]
  omega

/-- In `IDLE` with a key, a DEC_START of 24 bytes is judged by its announced length (R206). -/
theorem exec_decStart_in_idle {s : State} {p : List Byte} (hp : s.phase = .idle) (hkv : s.kv = true)
    (hlen : p.length = 24) :
    exec (.decStart p) s =
      if malformed (be64 (operandLenBytes p)) then .next (takeFault .malformed s)
      else .next (setPhase .dec (clearAuth (setHash hashInitial (setCrem (be64 (operandLenBytes p) - 48)
        (setResidual [] (setChain (operandDecIv p) s)))))) := by
  rw [exec_decStart]
  exact withChecks_in_idle_with_key hp hkv (lenOk_of_length rfl hlen) rfl

/-- Settles O49: the two cases are `malformed_eq_false_iff`, and the start state is written out in the statement. -/
theorem decStartResult : Obligations.DecStartResult := by
  intro s p hp hkv hlen
  have hvalue := be64_operandLenBytes_toNat (p := p) (by omega)
  have hmalformed := malformed_eq_false_iff (be64 (operandLenBytes p))
  rw [hvalue] at hmalformed
  refine ⟨fun hbad => ?_, fun hle hmod => ?_⟩
  · have hbad' : malformed (be64 (operandLenBytes p)) = true := by
      rw [← Bool.not_eq_false, hmalformed]
      omega
    rw [exec_decStart_in_idle hp hkv hlen, if_pos hbad', takeFault_eq]
    rfl
  · have hcrem : be64 (operandLenBytes p) - 48 = BitVec.ofNat 64 (beValue (p.take 8) - 48) :=
      BitVec.eq_of_toNat_eq (by
        have hsub := crem_sub (be64 (operandLenBytes p)) 48 (by omega)
        rw [BitVec.toNat_ofNat]
        exact hsub.trans (by omega))
    rw [exec_decStart_in_idle hp hkv hlen, hmalformed.mpr ⟨hle, hmod⟩, setResidual_nil, hcrem]
    rfl

/-- The tag of a well-formed DEC_FINAL is its payload (R94, R212). -/
theorem operandTag_toList {p : List Byte} (h : p.length = 32) : (operandTag p).toList = p :=
  bytesAt_toList_self 32 p h

/-- The tag comparison of R212 on the payload's own bytes. -/
theorem beq_operandTag {p : List Byte} (h : p.length = 32) (digest : Vector Byte 32) :
    (digest == operandTag p) = decide (digest.toList = p) := by
  rw [Bool.eq_iff_iff, beq_iff_eq, decide_eq_true_iff, ← Vector.toList_inj, operandTag_toList h]

/-- In `DEC`, a DEC_FINAL of 32 bytes is judged by the ciphertext still missing (R212). -/
theorem exec_decFinal_in_dec {s : State} {p : List Byte} (hp : s.phase = .dec) (hlen : p.length = 32) :
    exec (.decFinal p) s =
      if s.crem ≠ 0 then .next (takeFault .underrun s)
      else .next (setPhase .idle (wipeHash (setCrem 0 (wipeChain
        (setAuth (hashDigest s.hash == operandTag p) s))))) := by
  rw [exec_decFinal]
  exact withChecks_of_keyless hp (by decide) (lenOk_of_length rfl hlen) rfl rfl

/-- Settles O52: the two cases of `exec_decFinal_in_dec`. -/
theorem decFinalResult : Obligations.DecFinalResult := by
  intro s p hp hlen
  rw [exec_decFinal_in_dec hp hlen]
  refine ⟨fun hcrem => ?_, fun hcrem => ?_⟩
  · rw [if_pos hcrem, takeFault_eq]
    rfl
  · rw [if_neg (not_not_intro hcrem), beq_operandTag hlen]
    rfl

end Sys2Proof.Proofs
end

section
/-! What a command does to `PHASE`, the flags, the key and `DOUT`, over all commands (`30_encoding.md` R96, R97;
`20_memory.md` R62; `60_exceptions.md` R256, R259): each is read off `exec_next_cases`, with one lemma about the
commands that are performed. -/

namespace Sys2Proof.Proofs

open Sys2Proof Sys2Proof.Machine

/-! ### What a performed command writes -/

/-- A run of decrypted blocks that does not fault writes `CHAIN`, the hash and `DOUT` alone (R208). -/
theorem decBlocks_ok_frame {cfg : Cfg} {s u : State} {cs : List Block} (h : decBlocks cfg s cs = .ok u) :
    u = { s with chain := u.chain, hash := u.hash, dout := u.dout } := by
  have hframe := decBlocks_frame cfg s cs
  rwa [h] at hframe

/-- ENC_DATA writes the stream registers and `DOUT` alone (R202). -/
theorem performed_encData_frame {p : List Byte} {s t : State} (h : performed (.encData p) s t) :
    t = { s with chain := t.chain, res := t.res, rlen := t.rlen, hash := t.hash, dout := t.dout } := by
  obtain ⟨-, rfl⟩ := h
  rw [encBlocks_frame]
  rfl

/-- DEC_DATA writes the stream registers and `DOUT` alone (R208). -/
theorem performed_decData_frame {p : List Byte} {s t : State} (h : performed (.decData p) s t) :
    t = { s with
      chain := t.chain, res := t.res, rlen := t.rlen, crem := t.crem, hash := t.hash, dout := t.dout } := by
  obtain ⟨-, -, u, hu, rfl⟩ := h
  rw [decBlocks_ok_frame hu]
  rfl

/-- The phase a performed command leads to (R97). -/
def phaseAfter : Instr → Phase → Phase
  | .zeroize _, _ => .idle
  | .abort _, _ => .idle
  | .kdfInit _, _ => .kdfAbs
  | .kdfFinal _, _ => .kdfRdy
  | .ksDerive _, _ => .idle
  | .encStart _, _ => .enc
  | .encFinal _, _ => .idle
  | .decStart _, _ => .dec
  | .decFinal _, _ => .idle
  | .hashInit _, _ => .hash
  | .hashFinal _, _ => .idle
  | _, p => p

theorem performed_phase {i : Instr} {s t : State} (h : performed i s t) : t.phase = phaseAfter i s.phase := by
  cases i with
  | encData p => rw [performed_encData_frame h]; rfl
  | decData p => rw [performed_decData_frame h]; rfl
  | encFinal _ | decStart _ | decFinal _ | hashUpdate _ =>
    obtain ⟨-, rfl⟩ := h
    rfl
  | _ =>
    obtain rfl := h
    rfl

/-- No performed command leads into phase `FAULT`. -/
theorem performed_phase_ne_fault {i : Instr} {s t : State} (hp : s.phase ≠ .fault) (h : performed i s t) :
    t.phase ≠ .fault := by
  rw [performed_phase h]
  cases i <;> simp [phaseAfter, hp]

/-- The output log only grows (R62). -/
def DoutExtends (s t : State) : Prop := ∃ out, t.dout = s.dout ++ out

theorem doutExtends_of_dout_eq {s t : State} (h : t.dout = s.dout) : DoutExtends s t := ⟨[], by simp [h]⟩

theorem encBlocks_doutExtends (cfg : Cfg) (s : State) (ps : List Block) : DoutExtends s (encBlocks cfg s ps) := by
  obtain ⟨_, -, -, hrun⟩ := encBlocks_spec cfg ps s
  exact ⟨_, congrArg State.dout hrun⟩

theorem performed_doutExtends {i : Instr} {s t : State} (h : performed i s t) : DoutExtends s t := by
  cases i with
  | encData p =>
    obtain ⟨-, rfl⟩ := h
    exact encBlocks_doutExtends _ _ _
  | decData p =>
    obtain ⟨-, -, u, hu, rfl⟩ := h
    have hdout := decBlocks_dout Config.cfg (setCrem (s.crem - BitVec.ofNat 64 p.length) s) (blocksOf (resBytes s ++ p))
    rw [hu] at hdout
    exact hdout
  | encFinal p =>
    obtain ⟨-, rfl⟩ := h
    exact ⟨_, List.append_assoc _ _ _⟩
  | decStart _ | decFinal _ | hashUpdate _ =>
    obtain ⟨-, rfl⟩ := h
    exact doutExtends_of_dout_eq rfl
  | rdStatus _ | kmRead _ | blkEnc _ | blkDec _ | encStart _ | hashFinal _ =>
    obtain rfl := h
    exact ⟨_, rfl⟩
  | _ =>
    obtain rfl := h
    exact doutExtends_of_dout_eq rfl

/-! ### DOUT -/

theorem exec_doutExtends {i : Instr} {s t : State} (h : exec i s = .next t) : DoutExtends s t := by
  rcases exec_next_cases h with ⟨-, rfl⟩ | ⟨-, _, out, rfl, -⟩ | ⟨-, -, -, hperformed⟩
  · exact doutExtends_of_dout_eq rfl
  · exact ⟨out, rfl⟩
  · exact performed_doutExtends hperformed

theorem illegalCommand_doutExtends (s : State) : DoutExtends s (illegalCommand s) := by
  unfold illegalCommand
  split <;> exact doutExtends_of_dout_eq rfl

/-- Settles O8: waiting, an illegal word and every command only append to `DOUT`. -/
theorem stepOutputIsAppendOnly : Obligations.StepOutputIsAppendOnly := by
  intro s t h
  cases hcmd : s.cmd with
  | nil =>
    rw [step_of_cmd_nil hcmd] at h
    obtain rfl := Host.Outcome.next.inj h
    exact doutExtends_of_dout_eq rfl
  | cons w ws =>
    obtain ⟨-, ⟨i, -, hexec⟩ | ⟨-, rfl⟩⟩ := step_next_cases hcmd h
    · have hout := exec_doutExtends hexec
      exact hout
    · exact illegalCommand_doutExtends { s with cmd := ws, din := s.din.drop (lenField w) }

/-! ### Totality -/

/-- A command answers a next state, or its payload would bring the hash to the bound of R186. -/
def AnswersOrHashTooLong (i : Instr) (s : State) : Prop :=
  (∃ t, exec i s = .next t) ∨
    (exec i s = .refused .hashTooLong ∧ (s.phase = .enc ∨ s.phase = .dec ∨ s.phase = .hash) ∧
      2 ^ 61 ≤ s.hash.nbytes.toNat + s.rlen.val + i.payload.length + 16)

/-- Where the checks stop a command it is answered; so only its own rule matters, in a phase where it is legal. -/
theorem answersOrHashTooLong_of_rule {i : Instr} {s : State} {f : State → Host.Outcome State Fault Refusal}
    (hexec : exec i s = withChecks i s f)
    (hf : lenOk i = true → legalIn i s.phase = true → (∃ t, f s = .next t) ∨
      (f s = .refused .hashTooLong ∧ (s.phase = .enc ∨ s.phase = .dec ∨ s.phase = .hash) ∧
        2 ^ 61 ≤ s.hash.nbytes.toNat + s.rlen.val + i.payload.length + 16)) : AnswersOrHashTooLong i s := by
  rw [AnswersOrHashTooLong, hexec]
  rcases withChecks_cases i s f with ⟨-, -, h⟩ | ⟨-, e, -, h⟩ | ⟨hlen, hlegal, -, h⟩
  · exact .inl ⟨_, h⟩
  · exact .inl ⟨_, h⟩
  · rw [h]
    exact hf hlen hlegal

/-- The commands whose own rule always answers. -/
theorem answersOrHashTooLong_of_next {i : Instr} {s : State} {f : State → Host.Outcome State Fault Refusal}
    (hexec : exec i s = withChecks i s f) (hf : ∃ t, f s = .next t) : AnswersOrHashTooLong i s :=
  answersOrHashTooLong_of_rule hexec fun _ _ => .inl hf

/-- The hash bound with a rule behind it that answers (R186). -/
theorem hashGuard_answers {n m : Nat} {s : State} {o : Host.Outcome State Fault Refusal}
    (hphase : s.phase = .enc ∨ s.phase = .dec ∨ s.phase = .hash) (hn : n ≤ s.rlen.val + m + 16)
    (ho : ∃ t, o = .next t) :
    (∃ t, hashGuard n s o = .next t) ∨
      (hashGuard n s o = .refused .hashTooLong ∧ (s.phase = .enc ∨ s.phase = .dec ∨ s.phase = .hash) ∧
        2 ^ 61 ≤ s.hash.nbytes.toNat + s.rlen.val + m + 16) := by
  rcases hashGuard_cases n s o with ⟨-, h⟩ | ⟨hle, h⟩
  · rw [h]
    exact .inl ho
  · exact .inr ⟨h, hphase, by omega⟩

theorem exec_answersOrHashTooLong (i : Instr) (s : State) : AnswersOrHashTooLong i s := by
  cases i with
  | encData p =>
    refine answersOrHashTooLong_of_rule (exec_encData p s) fun _ hlegal => ?_
    exact hashGuard_answers (.inl (eq_of_beq hlegal)) (by rw [resBytes_append_length]; simp only [Instr.payload]; omega)
      ⟨_, rfl⟩
  | encFinal p =>
    refine answersOrHashTooLong_of_rule (exec_encFinal p s) fun _ hlegal => ?_
    exact hashGuard_answers (.inl (eq_of_beq hlegal)) (by omega) ⟨_, rfl⟩
  | hashUpdate p =>
    refine answersOrHashTooLong_of_rule (exec_hashUpdate p s) fun _ hlegal => ?_
    exact hashGuard_answers (.inr (.inr (eq_of_beq hlegal))) (by simp only [Instr.payload]; omega) ⟨_, rfl⟩
  | decStart p =>
    refine answersOrHashTooLong_of_rule (exec_decStart p s) fun _ _ => .inl ?_
    dsimp only
    split <;> exact ⟨_, rfl⟩
  | decData p =>
    refine answersOrHashTooLong_of_rule (exec_decData p s) fun _ hlegal => ?_
    dsimp only
    split
    case isTrue => exact .inl ⟨_, rfl⟩
    case isFalse =>
      refine hashGuard_answers (.inr (.inl (eq_of_beq hlegal)))
        (by rw [resBytes_append_length]; simp only [Instr.payload]; omega) ?_
      split <;> exact ⟨_, rfl⟩
  | decFinal p =>
    refine answersOrHashTooLong_of_rule (exec_decFinal p s) fun _ _ => .inl ?_
    split <;> exact ⟨_, rfl⟩
  | nop p => exact answersOrHashTooLong_of_next (exec_nop p s) ⟨_, rfl⟩
  | zeroize p => exact answersOrHashTooLong_of_next (exec_zeroize p s) ⟨_, rfl⟩
  | abort p => exact answersOrHashTooLong_of_next (exec_abort p s) ⟨_, rfl⟩
  | rdStatus p => exact answersOrHashTooLong_of_next (exec_rdStatus p s) ⟨_, rfl⟩
  | kdfInit p => exact answersOrHashTooLong_of_next (exec_kdfInit p s) ⟨_, rfl⟩
  | kdfAbsorb p => exact answersOrHashTooLong_of_next (exec_kdfAbsorb p s) ⟨_, rfl⟩
  | kdfFinal p => exact answersOrHashTooLong_of_next (exec_kdfFinal p s) ⟨_, rfl⟩
  | kmRead p => exact answersOrHashTooLong_of_next (exec_kmRead p s) ⟨_, rfl⟩
  | ksDerive p => exact answersOrHashTooLong_of_next (exec_ksDerive p s) ⟨_, rfl⟩
  | ksLoad p => exact answersOrHashTooLong_of_next (exec_ksLoad p s) ⟨_, rfl⟩
  | blkEnc p => exact answersOrHashTooLong_of_next (exec_blkEnc p s) ⟨_, rfl⟩
  | blkDec p => exact answersOrHashTooLong_of_next (exec_blkDec p s) ⟨_, rfl⟩
  | encStart p => exact answersOrHashTooLong_of_next (exec_encStart p s) ⟨_, rfl⟩
  | hashInit p => exact answersOrHashTooLong_of_next (exec_hashInit p s) ⟨_, rfl⟩
  | hashFinal p => exact answersOrHashTooLong_of_next (exec_hashFinal p s) ⟨_, rfl⟩

/-- Settles O10: an illegal word is answered, and a command by `exec_answersOrHashTooLong`. -/
theorem stepIsTotalOnCompleteCommands : Obligations.StepIsTotalOnCompleteCommands := by
  intro s w ws hcmd hlen
  have hdin := (List.take_append_drop (w.toNat % 2 ^ 16) s.din).symm
  have htake : (s.din.take (w.toNat % 2 ^ 16)).length = w.toNat % 2 ^ 16 := by simpa using hlen
  cases hdecode : decode w (s.din.take (w.toNat % 2 ^ 16)) with
  | error e => exact .inl ⟨_, step_of_decode_error hcmd hdin htake hdecode⟩
  | ok i =>
    obtain ⟨-, hpayload⟩ := (decode_eq_ok_iff_upperHalf htake i).mp hdecode
    have hanswer := exec_answersOrHashTooLong i { s with cmd := ws, din := s.din.drop (w.toNat % 2 ^ 16) }
    rwa [AnswersOrHashTooLong, hpayload, htake, ← step_of_decode_ok hcmd hdin htake hdecode] at hanswer

/-! ### Phase `FAULT` -/

theorem errCode_toNat_mem {e : ErrCode} (h : e ≠ .illegal) :
    (errCode e).toNat ∈ [0x01, 0x02, 0x11, 0x12, 0x13, 0x14, 0x15] := by
  cases e with
  | illegal => exact absurd rfl h
  | _ => simp [errCode]

theorem errCode_toNat_eq_two_iff (e : ErrCode) : (errCode e).toNat = 0x02 ↔ e = .padding := by
  cases e <;> simp [errCode]

/-- Settles O15: of the three ends of a command only the fault leads into phase `FAULT`. -/
theorem faultEntryZeroesEverything : Obligations.FaultEntryZeroesEverything := by
  intro i s t hp h ht
  rcases exec_next_cases h with ⟨hfault, -⟩ | ⟨-, e, out, rfl, hout, hpadding, he⟩ | ⟨-, -, -, hperformed⟩
  · exact absurd hfault hp
  · refine ⟨out, rfl, errCode_toNat_mem he, fun hne => hout ?_, fun heq => hpadding ?_⟩
    · exact fun heq => hne ((errCode_toNat_eq_two_iff e).mpr heq)
    · exact (errCode_toNat_eq_two_iff e).mp heq
  · exact absurd ht (performed_phase_ne_fault hp hperformed)

/-- Settles O16: of the words of `FaultPhaseIgnoresOtherWords` only ZEROIZE changes `PHASE`. -/
theorem onlyZeroizeLeavesFault : Obligations.OnlyZeroizeLeavesFault := by
  intro s t hp h ht
  cases hcmd : s.cmd with
  | nil =>
    rw [step_of_cmd_nil hcmd] at h
    exact absurd (Host.Outcome.next.inj h ▸ hp) ht
  | cons w ws =>
    obtain ⟨hlen, -⟩ := step_next_cases hcmd h
    rw [lenField_eq_mod] at hlen
    obtain ⟨hother, hrdStatus, hzeroize⟩ := faultPhaseIgnoresOtherWords s w ws _ _ hp hcmd
      (List.take_append_drop (w.toNat % 2 ^ 16) s.din).symm (by simpa using hlen)
    by_cases hw1 : w = 0x01000000
    · rw [hzeroize hw1] at h
      subst hw1
      exact ⟨rfl, (Host.Outcome.next.inj h).symm⟩
    · exfalso
      by_cases hw3 : w = 0x03000000
      · obtain ⟨out, -, -, hstep⟩ := hrdStatus hw3
        rw [hstep] at h
        exact ht (Host.Outcome.next.inj h ▸ hp)
      · rw [hother hw1 hw3] at h
        exact ht (Host.Outcome.next.inj h ▸ hp)

/-! ### The phase graph -/

theorem payload_eq_nil_of_lenOk {i : Instr} (hreq : requiredLen i = some 0) (hlen : lenOk i = true) :
    i.payload = [] := by
  simpa [lenOk_of_requiredLen hreq] using hlen

/-- Settles O17: the phases a performed command moves between are its legal phases (R97) and its `phaseAfter`. -/
theorem phaseMovesAlongTheGraph : Obligations.PhaseMovesAlongTheGraph := by
  intro i s t h hmove
  rcases exec_next_cases h with ⟨-, rfl⟩ | ⟨-, _, _, rfl, -⟩ | ⟨hlen, hlegal, -, hperformed⟩
  · exact absurd rfl hmove
  · exact .inl rfl
  · rw [performed_phase hperformed] at hmove ⊢
    have hnil := fun hreq => payload_eq_nil_of_lenOk (i := i) hreq hlen
    cases i with
    | zeroize p =>
      obtain rfl : p = [] := hnil rfl
      simp [phaseAfter]
    | abort p =>
      obtain rfl : p = [] := hnil rfl
      have hp : s.phase ≠ .fault := by simpa [legalIn] using hlegal
      simp [phaseAfter, hp]
    | kdfInit p =>
      obtain rfl : p = [] := hnil rfl
      have hphase : s.phase = .idle ∨ s.phase = .kdfAbs ∨ s.phase = .kdfRdy := by
        simpa [legalIn, or_assoc] using hlegal
      rcases hphase with hp | hp | hp
      · simp [hp, phaseAfter]
      · exact absurd hp.symm hmove
      · simp [hp, phaseAfter]
    | kdfFinal p | ksDerive p | encFinal p | hashInit p | hashFinal p =>
      obtain rfl : p = [] := hnil rfl
      have hp := eq_of_beq hlegal
      simp [hp, phaseAfter]
    | encStart p | decStart p | decFinal p =>
      have hp := eq_of_beq hlegal
      simp [hp, phaseAfter]
    | _ => exact absurd rfl hmove

/-! ### Key, flags and `ERR` -/

/-- The key registers hold the same in both states. -/
def SameKey (s t : State) : Prop := t.k = s.k ∧ t.kv = s.kv

/-- The verdict flags hold the same in both states. -/
def SameAuth (s t : State) : Prop := t.av = s.av ∧ t.aok = s.aok

/-- The performed commands that write `K` and `KV` (R153). -/
theorem performed_sameKey {i : Instr} {s t : State} (hlen : lenOk i = true) (h : performed i s t) :
    SameKey s t ∨ i = .zeroize [] ∨ i = .ksDerive [] ∨ ∃ p, i = .ksLoad p := by
  cases i with
  | zeroize p =>
    obtain rfl : p = [] := payload_eq_nil_of_lenOk rfl hlen
    exact .inr (.inl rfl)
  | ksDerive p =>
    obtain rfl : p = [] := payload_eq_nil_of_lenOk rfl hlen
    exact .inr (.inr (.inl rfl))
  | ksLoad p => exact .inr (.inr (.inr ⟨p, rfl⟩))
  | encData p =>
    rw [performed_encData_frame h]
    exact .inl ⟨rfl, rfl⟩
  | decData p =>
    rw [performed_decData_frame h]
    exact .inl ⟨rfl, rfl⟩
  | encFinal _ | decStart _ | decFinal _ | hashUpdate _ =>
    obtain ⟨-, rfl⟩ := h
    exact .inl ⟨rfl, rfl⟩
  | _ =>
    obtain rfl := h
    exact .inl ⟨rfl, rfl⟩

/-- The performed commands that write `AV` and `AOK` (R35). -/
theorem performed_sameAuth {i : Instr} {s t : State} (hlen : lenOk i = true) (h : performed i s t) :
    SameAuth s t ∨ i = .zeroize [] ∨ i = .abort [] ∨ ∃ p, i = .encStart p ∨ i = .decStart p ∨ i = .decFinal p := by
  cases i with
  | zeroize p =>
    obtain rfl : p = [] := payload_eq_nil_of_lenOk rfl hlen
    exact .inr (.inl rfl)
  | abort p =>
    obtain rfl : p = [] := payload_eq_nil_of_lenOk rfl hlen
    exact .inr (.inr (.inl rfl))
  | encStart p => exact .inr (.inr (.inr ⟨p, .inl rfl⟩))
  | decStart p => exact .inr (.inr (.inr ⟨p, .inr (.inl rfl)⟩))
  | decFinal p => exact .inr (.inr (.inr ⟨p, .inr (.inr rfl)⟩))
  | encData p =>
    rw [performed_encData_frame h]
    exact .inl ⟨rfl, rfl⟩
  | decData p =>
    rw [performed_decData_frame h]
    exact .inl ⟨rfl, rfl⟩
  | encFinal _ | hashUpdate _ =>
    obtain ⟨-, rfl⟩ := h
    exact .inl ⟨rfl, rfl⟩
  | _ =>
    obtain rfl := h
    exact .inl ⟨rfl, rfl⟩

/-- Of the performed commands only ZEROIZE writes `ERR` (R34). -/
theorem performed_err {i : Instr} {s t : State} (hlen : lenOk i = true) (h : performed i s t) :
    t.err = s.err ∨ i = .zeroize [] := by
  cases i with
  | zeroize p =>
    obtain rfl : p = [] := payload_eq_nil_of_lenOk rfl hlen
    exact .inr rfl
  | encData p =>
    rw [performed_encData_frame h]
    exact .inl rfl
  | decData p =>
    rw [performed_decData_frame h]
    exact .inl rfl
  | encFinal _ | decStart _ | decFinal _ | hashUpdate _ =>
    obtain ⟨-, rfl⟩ := h
    exact .inl rfl
  | _ =>
    obtain rfl := h
    exact .inl rfl

/-- Settles O18: an ignored command writes nothing, a fault leads into phase `FAULT`, and the performed commands are
read off the three lemmas above. -/
theorem flagsAndKeyHaveFewWriters : Obligations.FlagsAndKeyHaveFewWriters := by
  intro i s t h
  rcases exec_next_cases h with ⟨-, rfl⟩ | ⟨-, _, _, rfl, -⟩ | ⟨hlen, -, -, hperformed⟩
  · exact ⟨fun hne => by simp at hne, fun hne => by simp at hne, fun hne => absurd rfl hne⟩
  · exact ⟨fun _ => .inl rfl, fun _ => .inl rfl, fun _ => .inl rfl⟩
  · refine ⟨fun hne => ?_, fun hne => ?_, fun hne => .inr ((performed_err hlen hperformed).resolve_left hne)⟩
    · refine .inr ((performed_sameKey hlen hperformed).resolve_left fun ⟨hk, hkv⟩ => ?_)
      exact hne.elim (absurd hk) (absurd hkv)
    · refine .inr ((performed_sameAuth hlen hperformed).resolve_left fun ⟨hav, haok⟩ => ?_)
      exact hne.elim (absurd hav) (absurd haok)

end Sys2Proof.Proofs
end

section
/-! The bytes ENC_DATA and DEC_DATA hash and the lengths they keep (`45_cbc_pipeline.md` R207, R208, R214), and the
fill cursor that KDF_FINAL leaves (`41_kdf.md` R135). -/

namespace Sys2Proof.Proofs

open Sys2Proof Sys2Proof.Machine

/-! ### ENC_DATA -/

/-- A performed ENC_DATA as arithmetic (R202): `NBYTES` counts the complete blocks, and `RLEN` takes what they leave. -/
theorem performed_encData_lengths {p : List Byte} {s t : State} (h : performed (.encData p) s t) :
    t.hash.nbytes.toNat = s.hash.nbytes.toNat + 16 * ((s.rlen.val + p.length) / 16) ∧
      t.rlen.val = (s.rlen.val + p.length) % 16 ∧ t.hash.nbytes.toNat < 2 ^ 61 := by
  obtain ⟨hbound, rfl⟩ := h
  obtain ⟨c, -, -, hrun⟩ := encBlocks_spec Config.cfg (blocksOf (resBytes s ++ p)) s
  have hnbytes := hashBytes_nbytes_toNat s.hash
    ((List.range (blocksOf (resBytes s ++ p)).length).flatMap fun i => (c (i + 1)).toList)
  simp only [List.length_flatMap, Vector.length_toList, List.map_const', List.sum_replicate, List.length_range,
    blocksOf_length, resBytes_append_length, smul_eq_mul] at hnbytes
  rw [setResidual_restOf_append, hrun]
  simp only [blocksOf_length, resBytes_append_length]
  rw [hnbytes (by omega)]
  exact ⟨by omega, rfl, by omega⟩

/-! ### DEC_DATA -/

/-- A run of ciphertext blocks that does not fault hashes all of them, whatever they decrypt to (R207). -/
theorem decBlocks_ok_hash {cfg : Cfg} {s u : State} {cs : List Block} (h : decBlocks cfg s cs = .ok u) :
    u.hash = hashBytes s.hash (cs.flatMap (·.toList)) := by
  induction cs generalizing s with
  | nil =>
    obtain rfl := Except.ok.inj ((decBlocks_nil cfg s).symm.trans h)
    rfl
  | cons c cs ih =>
    rw [List.flatMap_cons, hashBytes_append]
    by_cases hlast : s.crem = 0 ∧ cs = []
    · obtain ⟨hcrem, rfl⟩ := hlast
      rw [decBlocks_last _ _ _ hcrem] at h
      cases hunpad : unpad (decBlock cfg s c).2 with
      | none => rw [hunpad] at h; cases h
      | some r =>
        rw [hunpad] at h
        obtain rfl := Except.ok.inj h
        rfl
    · rw [decBlocks_cons_inner _ _ _ _ (by tauto)] at h
      exact ih h

/-- The registers of a performed DEC_DATA that do not depend on the key (R208). -/
theorem performed_decData_stream {p : List Byte} {s t : State} (h : performed (.decData p) s t) :
    t.hash = hashBytes s.hash ((resBytes s ++ p).take (16 * ((s.rlen.val + p.length) / 16))) ∧
      t.res = bytesAt 16 (16 * ((s.rlen.val + p.length) / 16)) (resBytes s ++ p) ∧
      t.rlen = Fin.ofNat 16 (s.rlen.val + p.length) ∧ t.crem = s.crem - BitVec.ofNat 64 p.length := by
  obtain ⟨-, -, u, hu, rfl⟩ := h
  have hhash := decBlocks_ok_hash hu
  rw [blocksOf_flat, resBytes_append_length] at hhash
  rw [setResidual_restOf_append]
  exact ⟨hhash, rfl, rfl, by rw [decBlocks_ok_frame hu]; rfl⟩

/-- A performed DEC_DATA as arithmetic (R208, R214): `CREM` falls by the payload, `RLEN` takes what the complete blocks
leave, and `NBYTES` counts the complete blocks. -/
theorem performed_decData_lengths {p : List Byte} {s t : State} (h : performed (.decData p) s t) :
    t.hash.nbytes.toNat = s.hash.nbytes.toNat + 16 * ((s.rlen.val + p.length) / 16) ∧
      t.rlen.val = (s.rlen.val + p.length) % 16 ∧ p.length ≤ s.crem.toNat ∧
      t.crem.toNat = s.crem.toNat - p.length ∧ t.hash.nbytes.toNat < 2 ^ 61 := by
  obtain ⟨hhash, -, hrlen, hcrem⟩ := performed_decData_stream h
  obtain ⟨hle, hbound, -⟩ := h
  have htake : ((resBytes s ++ p).take (16 * ((s.rlen.val + p.length) / 16))).length
      = 16 * ((s.rlen.val + p.length) / 16) := by
    rw [List.length_take, resBytes_append_length]
    omega
  have hnbytes := hashBytes_nbytes_toNat s.hash _ (htake ▸ hbound.trans (by decide))
  rw [htake, ← hhash] at hnbytes
  refine ⟨hnbytes, ?_, hle, ?_, hnbytes ▸ hbound⟩
  · rw [hrlen]
    rfl
  · rw [hcrem, crem_sub _ _ hle]

/-- A command that keeps clear of phase `FAULT` was performed (R96, R256). -/
theorem performed_of_exec {i : Instr} {s t : State} (hp : s.phase ≠ .fault) (h : exec i s = .next t)
    (ht : t.phase ≠ .fault) : performed i s t := by
  rcases exec_next_cases h with ⟨hfault, -⟩ | ⟨-, _, _, rfl, -⟩ | ⟨-, -, -, hperformed⟩
  · exact absurd hfault hp
  · exact absurd rfl ht
  · exact hperformed

/-- Settles O56: `performed_decData_lengths` added up. -/
theorem decDataKeepsTheAnnouncedLength : Obligations.DecDataKeepsTheAnnouncedLength := by
  intro s t p hp h ht
  obtain ⟨hnbytes, hrlen, hle, hcrem, -⟩ :=
    performed_decData_lengths (performed_of_exec (by simp [hp]) h (by simp [ht]))
  omega

/-! ### The fill cursor -/

/-- The padding fills the block, so `POS` is back at 0 (R135). -/
theorem absorbPadding_pos (c : Cfg) (st : KdfState) : (absorbPadding c st).pos = 0 := by
  apply Fin.ext
  rw [absorbPadding, absorb_pos, List.length_replicate]
  have := st.pos.isLt
  simp only [Fin.coe_ofNat_eq_mod]
  omega

/-- The second pass of R135 after `n` steps. -/
def absorbAccSteps (c : Cfg) (st : KdfState) (n : Nat) (hn : n ≤ 512) : KdfState :=
  n.fold (fun i hi u => absorbByte c u (u.acc[i]'(hi.trans_le hn))) st

theorem absorbAcc_eq_absorbAccSteps (c : Cfg) (st : KdfState) : absorbAcc c st = absorbAccSteps c st 512 le_rfl := rfl

theorem absorbAccSteps_succ (c : Cfg) (st : KdfState) (n : Nat) (hn : n < 512) :
    absorbAccSteps c st (n + 1) hn =
      absorbByte c (absorbAccSteps c st n hn.le) (absorbAccSteps c st n hn.le).acc[n] := rfl

theorem absorbAccSteps_pos (c : Cfg) (st : KdfState) (n : Nat) (hn : n ≤ 512) :
    (absorbAccSteps c st n hn).pos.val = (st.pos.val + n) % 512 := by
  induction n with
  | zero => exact (Nat.mod_eq_of_lt st.pos.isLt).symm
  | succ n ih => rw [absorbAccSteps_succ c st n hn, absorbByte_pos, ih]; omega

theorem kdfFinalize_eq_absorbAcc (c : Cfg) (st : KdfState) : kdfFinalize c st = absorbAcc c (absorbPadding c st) := by
  unfold kdfFinalize
  rfl

/-- KDF_FINAL absorbs a whole number of blocks behind the padding, so `POS` ends at 0 (R135). -/
theorem kdfFinalize_pos (c : Cfg) (st : KdfState) : (kdfFinalize c st).pos = 0 := by
  apply Fin.ext
  rw [kdfFinalize_eq_absorbAcc, absorbAcc_eq_absorbAccSteps, absorbAccSteps_pos, absorbPadding_pos,
    Fin.coe_ofNat_eq_mod]

end Sys2Proof.Proofs
end

section
/-! The invariants between commands (`10_state.md` R43, with R34, R35, R26, R27, R42, R250): one lemma per phase builds
`State.Inv` from what is nonzero there, and one per group of commands shows that performing it keeps the invariants. -/

namespace Sys2Proof.Proofs

open Sys2Proof Sys2Proof.Machine

/-! ### The ports -/

/-- The invariants are about registers: they hold whatever is on the ports. -/
theorem inv_withPorts {s : State} (h : s.Inv) (cmd : List Word32) (din dout : List Byte) :
    State.Inv { s with cmd := cmd, din := din, dout := dout } where
  err_iff := h.err_iff
  err_code := h.err_code
  aok_av := h.aok_av
  res_tail := h.res_tail
  kdf_zero := h.kdf_zero
  rdy_pos := h.rdy_pos
  stream_zero := h.stream_zero
  crem_zero := h.crem_zero
  hash_zero := h.hash_zero
  hash_blocks := h.hash_blocks
  hash_bound := h.hash_bound
  dec_blocks := h.dec_blocks
  dec_total := h.dec_total
  stream_key := h.stream_key
  fault_reset hp := congrArg (fun u : State => { u with cmd := cmd, din := din, dout := dout }) (h.fault_reset hp)
  no_key := h.no_key

theorem inv_emit {s : State} (h : s.Inv) (bs : List Byte) : (emit bs s).Inv :=
  inv_withPorts h s.cmd s.din (s.dout ++ bs)

/-! ### Outside phase `FAULT` -/

/-- What the invariants ask in every phase but `FAULT`: no error, an `AOK` only with `AV`, no key bytes without `KV`. -/
structure Healthy (s : State) : Prop where
  err : s.err = 0
  aok_av : s.aok = true → s.av = true
  no_key : s.kv = false → s.k = Vector.replicate 64 0

theorem healthy_of_inv {s : State} (h : s.Inv) (hp : s.phase ≠ .fault) : Healthy s where
  err := by_contra fun hne => hp (h.err_iff.mp hne)
  aok_av := h.aok_av
  no_key := h.no_key

/-- The registers of a stream but `CREM`, all zero. -/
structure StreamZero (s : State) : Prop where
  chain : s.chain = Vector.replicate 16 0
  res : s.res = Vector.replicate 16 0
  rlen : s.rlen = 0

theorem streamZero_of_inv {s : State} (h : s.Inv) (hp : ¬ s.phase.streaming) : StreamZero s := by
  obtain ⟨hchain, hres, hrlen⟩ := h.stream_zero hp
  exact ⟨hchain, hres, hrlen⟩

theorem res_tail_of_streamZero {s : State} (h : StreamZero s) (i : Fin 16) : s.res[i] = 0 := by
  simp [h.res]

/-- The invariants in a phase without a stream: the stream registers are zero, and the KDF and the hash in the phases
that do not use them. -/
theorem inv_of_not_streaming {s : State} (hstream : ¬ s.phase.streaming) (hfault : s.phase ≠ .fault) (h : Healthy s)
    (hz : StreamZero s) (hcrem : s.crem = 0) (hkdf : ¬ s.phase.keyDeriving → s.kdf = KdfState.zero)
    (hrdy : s.phase = .kdfRdy → s.kdf.pos = 0) (hhash : s.phase ≠ .hash → s.hash = HashState.zero)
    (hbound : s.hash.nbytes.toNat < 2 ^ 61) : s.Inv where
  err_iff := iff_of_false (not_not_intro h.err) hfault
  err_code hp := absurd hp hfault
  aok_av := h.aok_av
  res_tail i _ := res_tail_of_streamZero hz i
  kdf_zero := hkdf
  rdy_pos := hrdy
  stream_zero _ := ⟨hz.chain, hz.res, hz.rlen⟩
  crem_zero _ := hcrem
  hash_zero _ := hhash
  hash_blocks hp := absurd hp hstream
  hash_bound := hbound
  dec_blocks hp := absurd (.inr hp) hstream
  dec_total hp := absurd (.inr hp) hstream
  stream_key hp := absurd hp hstream
  fault_reset hp := absurd hp hfault
  no_key := h.no_key

theorem inv_of_idle {s : State} (hp : s.phase = .idle) (h : Healthy s) (hz : StreamZero s) (hcrem : s.crem = 0)
    (hkdf : s.kdf = KdfState.zero) (hhash : s.hash = HashState.zero) : s.Inv :=
  inv_of_not_streaming (by simp [hp, Phase.streaming]) (by simp [hp]) h hz hcrem (fun _ => hkdf) (by simp [hp])
    (fun _ => hhash) (by rw [hhash]; decide)

/-- The invariants while a key is derived. -/
theorem inv_of_keyDeriving {s : State} (hp : s.phase.keyDeriving) (h : Healthy s) (hz : StreamZero s)
    (hcrem : s.crem = 0) (hrdy : s.phase = .kdfRdy → s.kdf.pos = 0) (hhash : s.hash = HashState.zero) : s.Inv := by
  refine inv_of_not_streaming ?_ ?_ h hz hcrem (absurd hp) hrdy (fun _ => hhash) (by rw [hhash]; decide) <;>
    rcases hp with hp | hp <;> simp [hp, Phase.streaming]

theorem inv_of_hash {s : State} (hp : s.phase = .hash) (h : Healthy s) (hz : StreamZero s) (hcrem : s.crem = 0)
    (hkdf : s.kdf = KdfState.zero) (hbound : s.hash.nbytes.toNat < 2 ^ 61) : s.Inv :=
  inv_of_not_streaming (by simp [hp, Phase.streaming]) (by simp [hp]) h hz hcrem (fun _ => hkdf) (by simp [hp])
    (absurd hp) hbound

/-- The invariants while a stream lasts; those on the announced length are left to phase `DEC`. -/
theorem inv_of_streaming {s : State} (hp : s.phase.streaming) (h : Healthy s) (hkv : s.kv = true)
    (hres : ∀ i : Fin 16, s.rlen.val ≤ i.val → s.res[i] = 0) (hkdf : s.kdf = KdfState.zero)
    (hblocks : s.hash.nbytes.toNat % 16 = 0) (hbound : s.hash.nbytes.toNat < 2 ^ 61)
    (hcrem : s.phase ≠ .dec → s.crem = 0)
    (hdec : s.phase = .dec → (s.crem.toNat + s.rlen.val) % 16 = 0 ∧
      0 < s.hash.nbytes.toNat + s.rlen.val + s.crem.toNat ∧
      s.hash.nbytes.toNat + s.rlen.val + s.crem.toNat + 48 < 2 ^ 64) : s.Inv := by
  have hfault : s.phase ≠ .fault := by rcases hp with hp | hp <;> simp [hp]
  exact {
    err_iff := iff_of_false (not_not_intro h.err) hfault
    err_code := fun hp => absurd hp hfault
    aok_av := h.aok_av
    res_tail := hres
    kdf_zero := fun _ => hkdf
    rdy_pos := fun hrdy => by simp [hrdy, Phase.streaming] at hp
    stream_zero := absurd hp
    crem_zero := hcrem
    hash_zero := absurd hp
    hash_blocks := fun _ => hblocks
    hash_bound := hbound
    dec_blocks := fun hd => (hdec hd).1
    dec_total := fun hd => (hdec hd).2
    stream_key := fun _ => hkv
    fault_reset := fun hp => absurd hp hfault
    no_key := h.no_key }

/-! ### Reset and fault entry -/

/-- Settles O57: in `IDLE` everything the invariants ask for is zero. -/
theorem resetSatisfiesTheInvariants : Obligations.ResetSatisfiesTheInvariants :=
  inv_of_idle rfl ⟨rfl, fun h => h, fun _ => rfl⟩ ⟨rfl, rfl, rfl⟩ rfl rfl rfl

theorem inv_toReset (s : State) : (toReset s).Inv := inv_withPorts resetSatisfiesTheInvariants s.cmd s.din s.dout

theorem errCode_ne_zero (e : ErrCode) : errCode e ≠ 0 := by
  cases e <;> decide

/-- The state after fault entry satisfies the invariants, whatever the fault (R256). -/
theorem inv_faulted (e : ErrCode) (out : List Byte) (s : State) : (faulted (errCode e) out s).Inv where
  err_iff := iff_of_true (errCode_ne_zero e) rfl
  err_code _ := ⟨e, rfl⟩
  aok_av h := h
  res_tail i _ := res_tail_of_streamZero (s := faulted (errCode e) out s) ⟨rfl, rfl, rfl⟩ i
  kdf_zero _ := rfl
  rdy_pos _ := rfl
  stream_zero _ := ⟨rfl, rfl, rfl⟩
  crem_zero _ := rfl
  hash_zero _ _ := rfl
  hash_blocks _ := rfl
  hash_bound := (by decide : (0 : Word64).toNat < 2 ^ 61)
  dec_blocks h := nomatch h
  dec_total h := nomatch h
  stream_key h := nomatch (h : Phase.fault = .enc ∨ Phase.fault = .dec)
  fault_reset _ := rfl
  no_key _ := rfl

/-- A word that decodes to no command keeps the invariants (R98). -/
theorem inv_illegalCommand {s : State} (h : s.Inv) : (illegalCommand s).Inv := by
  unfold illegalCommand
  split
  · exact h
  · exact takeFault_eq .illegal s ▸ inv_faulted .illegal [] s

end Sys2Proof.Proofs
end

section
/-! Every step keeps the invariants between commands (`10_state.md` R43): each command that is performed, by the phase
it is performed in, and then a command with its checks and a step. -/

namespace Sys2Proof.Proofs

open Sys2Proof Sys2Proof.Machine

/-! ### What the invariants give in one phase -/

/-- The registers that are zero in `IDLE` and while a key is derived. -/
structure AtRest (s : State) : Prop where
  healthy : Healthy s
  stream : StreamZero s
  crem : s.crem = 0
  hash : s.hash = HashState.zero

theorem atRest_of_inv {s : State} (h : s.Inv) (hfault : s.phase ≠ .fault) (hstream : ¬ s.phase.streaming)
    (hhash : s.phase ≠ .hash) : AtRest s where
  healthy := healthy_of_inv h hfault
  stream := streamZero_of_inv h hstream
  crem := h.crem_zero fun hdec => hstream (.inr hdec)
  hash := h.hash_zero hstream hhash

theorem atRest_of_keyDeriving {s : State} (h : s.Inv) (hp : s.phase.keyDeriving) : AtRest s := by
  refine atRest_of_inv h ?_ ?_ ?_ <;> rcases hp with hp | hp <;> simp [hp, Phase.streaming]

theorem atRest_of_idle {s : State} (h : s.Inv) (hp : s.phase = .idle) : AtRest s :=
  atRest_of_inv h (by simp [hp]) (by simp [hp, Phase.streaming]) (by simp [hp])

theorem kdf_zero_of_idle {s : State} (h : s.Inv) (hp : s.phase = .idle) : s.kdf = KdfState.zero :=
  h.kdf_zero (by simp [hp, Phase.keyDeriving])

theorem kdf_zero_of_streaming {s : State} (h : s.Inv) (hp : s.phase.streaming) : s.kdf = KdfState.zero :=
  h.kdf_zero (by rcases hp with hp | hp <;> simp [hp, Phase.keyDeriving])

theorem healthy_of_streaming {s : State} (h : s.Inv) (hp : s.phase.streaming) : Healthy s :=
  healthy_of_inv h (by rcases hp with hp | hp <;> simp [hp])

/-! ### The residual -/

/-- The bytes after the complete blocks are zero-filled, so `RES` is zero from the new `RLEN` on (R26). -/
theorem residual_tail_zero (buf : List Byte) (i : Fin 16)
    (hi : (Fin.ofNat 16 (restOf buf).length).val ≤ i.val) : (bytesAt 16 0 (restOf buf))[i] = 0 := by
  have hle : (restOf buf).length ≤ i.val := by
    rw [restOf_length] at hi ⊢
    simpa [Fin.ofNat] using hi
  rw [Fin.getElem_fin, bytesAt_getElem, Nat.zero_add, List.getD_eq_default _ _ hle]

theorem setResidual_restOf_tail_zero (buf : List Byte) (s : State) (i : Fin 16)
    (hi : (setResidual (restOf buf) s).rlen.val ≤ i.val) : (setResidual (restOf buf) s).res[i] = 0 :=
  residual_tail_zero buf i hi

/-! ### The commands that are performed -/

theorem hashInitial_nbytes_lt : hashInitial.nbytes.toNat < 2 ^ 61 := by decide

theorem inv_abort {s : State} (h : s.Inv) (hfault : s.phase ≠ .fault) :
    (setPhase .idle (clearAuth (wipeKdf (wipeHash (setCrem 0 (wipeChain s)))))).Inv :=
  inv_of_idle rfl ⟨(healthy_of_inv h hfault).err, fun hf => hf, h.no_key⟩ ⟨rfl, rfl, rfl⟩ rfl rfl rfl

theorem inv_kdfInit {s : State} (h : s.Inv) (hp : s.phase = .idle ∨ s.phase.keyDeriving) :
    (setPhase .kdfAbs (wipeKdf s)).Inv := by
  obtain ⟨hhealthy, hstream, hcrem, hhash⟩ := hp.elim (atRest_of_idle h) (atRest_of_keyDeriving h)
  exact inv_of_keyDeriving (.inl rfl) ⟨hhealthy.err, hhealthy.aok_av, hhealthy.no_key⟩
    ⟨hstream.chain, hstream.res, hstream.rlen⟩ hcrem nofun hhash

theorem inv_kdfAbsorb {s : State} (h : s.Inv) (hp : s.phase = .kdfAbs) (kdf : KdfState) : (setKdf kdf s).Inv := by
  obtain ⟨hhealthy, hstream, hcrem, hhash⟩ := atRest_of_keyDeriving h (.inl hp)
  exact inv_of_keyDeriving (.inl hp) ⟨hhealthy.err, hhealthy.aok_av, hhealthy.no_key⟩
    ⟨hstream.chain, hstream.res, hstream.rlen⟩ hcrem (by simp [hp]) hhash

theorem inv_kdfFinal {s : State} (h : s.Inv) (hp : s.phase = .kdfAbs) {kdf : KdfState} (hpos : kdf.pos = 0) :
    (setPhase .kdfRdy (setKdf kdf s)).Inv := by
  obtain ⟨hhealthy, hstream, hcrem, hhash⟩ := atRest_of_keyDeriving h (.inl hp)
  exact inv_of_keyDeriving (.inr rfl) ⟨hhealthy.err, hhealthy.aok_av, hhealthy.no_key⟩
    ⟨hstream.chain, hstream.res, hstream.rlen⟩ hcrem (fun _ => hpos) hhash

theorem inv_ksDerive {s : State} (h : s.Inv) (hp : s.phase = .kdfRdy) (k : Vector Word64 64) :
    (setPhase .idle (wipeKdf (loadKey k s))).Inv := by
  obtain ⟨hhealthy, hstream, hcrem, hhash⟩ := atRest_of_keyDeriving h (.inr hp)
  exact inv_of_idle rfl ⟨hhealthy.err, hhealthy.aok_av, nofun⟩ ⟨hstream.chain, hstream.res, hstream.rlen⟩ hcrem rfl
    hhash

theorem inv_ksLoad {s : State} (h : s.Inv) (hp : s.phase = .idle) (k : Vector Word64 64) : (loadKey k s).Inv := by
  have hkdf := kdf_zero_of_idle h hp
  obtain ⟨hhealthy, hstream, hcrem, hhash⟩ := atRest_of_idle h hp
  exact inv_of_idle hp ⟨hhealthy.err, hhealthy.aok_av, nofun⟩ ⟨hstream.chain, hstream.res, hstream.rlen⟩ hcrem
    hkdf hhash

theorem inv_encStart {s : State} (h : s.Inv) (hp : s.phase = .idle) (hkv : s.kv = true) (iv : Block) (out : List Byte) :
    (setPhase .enc (clearAuth (setHash hashInitial (setResidual [] (setChain iv (emit out s)))))).Inv := by
  have hkdf := kdf_zero_of_idle h hp
  obtain ⟨hhealthy, -, hcrem, -⟩ := atRest_of_idle h hp
  rw [setResidual_nil]
  exact inv_of_streaming (.inl rfl) ⟨hhealthy.err, fun hf => hf, hhealthy.no_key⟩ hkv (fun i _ => by simp)
    hkdf rfl hashInitial_nbytes_lt (fun _ => hcrem) nofun

theorem inv_encData {s t : State} {p : List Byte} (h : s.Inv) (hp : s.phase = .enc)
    (hperf : performed (.encData p) s t) : t.Inv := by
  have hkdf := kdf_zero_of_streaming h (.inl hp)
  have hhealthy := healthy_of_streaming h (.inl hp)
  have hblocks := h.hash_blocks (.inl hp)
  obtain ⟨hnbytes, -, hbound⟩ := performed_encData_lengths hperf
  have hres : ∀ i : Fin 16, t.rlen.val ≤ i.val → t.res[i] = 0 := by
    obtain ⟨-, rfl⟩ := hperf
    exact setResidual_restOf_tail_zero _ _
  rw [performed_encData_frame hperf]
  exact inv_of_streaming (.inl hp) ⟨hhealthy.err, hhealthy.aok_av, hhealthy.no_key⟩ (h.stream_key (.inl hp)) hres hkdf
    (by dsimp only; omega) hbound (fun _ => h.crem_zero (by simp [hp])) (by simp [hp])

theorem inv_encFinal {s : State} (h : s.Inv) (hp : s.phase = .enc) (p : Block) (out : List Byte) :
    (setPhase .idle (wipeHash (wipeChain (emit out (encBlock Config.cfg s p))))).Inv := by
  have hkdf := kdf_zero_of_streaming h (.inl hp)
  have hhealthy := healthy_of_streaming h (.inl hp)
  rw [encBlock_eq]
  exact inv_of_idle rfl ⟨hhealthy.err, hhealthy.aok_av, hhealthy.no_key⟩ ⟨rfl, rfl, rfl⟩
    (h.crem_zero (by simp [hp])) hkdf rfl

theorem inv_decStart {s t : State} {p : List Byte} (h : s.Inv) (hp : s.phase = .idle) (hkv : s.kv = true)
    (hperf : performed (.decStart p) s t) : t.Inv := by
  have hkdf := kdf_zero_of_idle h hp
  obtain ⟨hhealthy, -, -, -⟩ := atRest_of_idle h hp
  obtain ⟨hmalformed, rfl⟩ := hperf
  obtain ⟨hle, hmod⟩ := (malformed_eq_false_iff _).mp hmalformed
  have hcrem : (be64 (operandLenBytes p) - 48).toNat = (be64 (operandLenBytes p)).toNat - 48 :=
    crem_sub _ 48 (by omega)
  have hlt := (be64 (operandLenBytes p)).isLt
  rw [setResidual_nil]
  refine inv_of_streaming (.inr rfl) ⟨hhealthy.err, fun hf => hf, hhealthy.no_key⟩ hkv (fun i _ => by simp)
    hkdf rfl hashInitial_nbytes_lt (absurd rfl) fun _ => ?_
  have hzero : (0 : Fin 16).val = 0 ∧ hashInitial.nbytes.toNat = 0 := ⟨rfl, rfl⟩
  simp only [setPhase_crem, setPhase_rlen, setPhase_hash, clearAuth_crem, clearAuth_rlen, clearAuth_hash, setHash_crem,
    setHash_rlen, setHash_hash, setCrem_crem, setCrem_rlen, hcrem, hzero]
  omega

theorem inv_decData {s t : State} {p : List Byte} (h : s.Inv) (hp : s.phase = .dec)
    (hperf : performed (.decData p) s t) : t.Inv := by
  have hkdf := kdf_zero_of_streaming h (.inr hp)
  have hhealthy := healthy_of_streaming h (.inr hp)
  have hblocks := h.hash_blocks (.inr hp)
  have hdec := h.dec_blocks hp
  have htotal := h.dec_total hp
  obtain ⟨hnbytes, hrlen, hle, hcrem, hbound⟩ := performed_decData_lengths hperf
  have hres : ∀ i : Fin 16, t.rlen.val ≤ i.val → t.res[i] = 0 := by
    obtain ⟨-, -, u, -, rfl⟩ := hperf
    exact setResidual_restOf_tail_zero _ _
  rw [performed_decData_frame hperf]
  exact inv_of_streaming (.inr hp) ⟨hhealthy.err, hhealthy.aok_av, hhealthy.no_key⟩ (h.stream_key (.inr hp)) hres
    hkdf (by dsimp only; omega) hbound (absurd hp) fun _ => by dsimp only; omega

theorem inv_decFinal {s : State} (h : s.Inv) (hp : s.phase = .dec) (ok : Bool) :
    (setPhase .idle (wipeHash (setCrem 0 (wipeChain (setAuth ok s))))).Inv := by
  have hkdf := kdf_zero_of_streaming h (.inr hp)
  exact inv_of_idle rfl ⟨(healthy_of_streaming h (.inr hp)).err, fun _ => rfl, h.no_key⟩ ⟨rfl, rfl, rfl⟩ rfl
    hkdf rfl

theorem inv_hashInit {s : State} (h : s.Inv) (hp : s.phase = .idle) : (setPhase .hash (setHash hashInitial s)).Inv := by
  have hkdf := kdf_zero_of_idle h hp
  obtain ⟨hhealthy, hstream, hcrem, -⟩ := atRest_of_idle h hp
  exact inv_of_hash rfl ⟨hhealthy.err, hhealthy.aok_av, hhealthy.no_key⟩ ⟨hstream.chain, hstream.res, hstream.rlen⟩
    hcrem hkdf hashInitial_nbytes_lt

theorem inv_hashUpdate {s t : State} {p : List Byte} (h : s.Inv) (hp : s.phase = .hash)
    (hperf : performed (.hashUpdate p) s t) : t.Inv := by
  have hhealthy := healthy_of_inv h (by simp [hp])
  have hstream := streamZero_of_inv h (by simp [hp, Phase.streaming])
  obtain ⟨hbound, rfl⟩ := hperf
  have hnbytes := hashBytes_nbytes_toNat s.hash p (by omega)
  exact inv_of_hash hp ⟨hhealthy.err, hhealthy.aok_av, hhealthy.no_key⟩ ⟨hstream.chain, hstream.res, hstream.rlen⟩
    (h.crem_zero (by simp [hp])) (h.kdf_zero (by simp [hp, Phase.keyDeriving])) (hnbytes ▸ hbound)

theorem inv_hashFinal {s : State} (h : s.Inv) (hp : s.phase = .hash) (out : List Byte) :
    (setPhase .idle (wipeHash (emit out s))).Inv := by
  have hhealthy := healthy_of_inv h (by simp [hp])
  have hstream := streamZero_of_inv h (by simp [hp, Phase.streaming])
  exact inv_of_idle rfl ⟨hhealthy.err, hhealthy.aok_av, hhealthy.no_key⟩ ⟨hstream.chain, hstream.res, hstream.rlen⟩
    (h.crem_zero (by simp [hp])) (h.kdf_zero (by simp [hp, Phase.keyDeriving])) rfl

/-! ### A command and a step -/

/-- A command that is performed keeps the invariants: each in the phases where it is legal (R97). -/
theorem inv_performed {i : Instr} {s t : State} (h : s.Inv) (hlegal : legalIn i s.phase = true)
    (hkey : s.phase ≠ .fault → needsKey i = true → s.kv = true) (hperf : performed i s t) : t.Inv := by
  have hkv : s.phase = .idle → needsKey i = true → s.kv = true := fun hp => hkey (by simp [hp])
  cases i with
  | nop _ => exact hperf ▸ h
  | zeroize _ => exact hperf ▸ inv_toReset s
  | abort _ => exact hperf ▸ inv_abort h (by simpa [legalIn] using hlegal)
  | rdStatus _ | kmRead _ | blkEnc _ | blkDec _ => exact hperf ▸ inv_emit h _
  | kdfInit _ => exact hperf ▸ inv_kdfInit h (by simpa [legalIn, Phase.keyDeriving, or_assoc] using hlegal)
  | kdfAbsorb _ => exact hperf ▸ inv_kdfAbsorb h (eq_of_beq hlegal) _
  | kdfFinal _ => exact hperf ▸ inv_kdfFinal h (eq_of_beq hlegal) (kdfFinalize_pos _ _)
  | ksDerive _ => exact hperf ▸ inv_ksDerive h (eq_of_beq hlegal) _
  | ksLoad _ => exact hperf ▸ inv_ksLoad h (eq_of_beq hlegal) _
  | encStart _ => exact hperf ▸ inv_encStart h (eq_of_beq hlegal) (hkv (eq_of_beq hlegal) rfl) _ _
  | encData _ => exact inv_encData h (eq_of_beq hlegal) hperf
  | encFinal _ =>
    obtain ⟨-, rfl⟩ := hperf
    exact inv_encFinal h (eq_of_beq hlegal) _ _
  | decStart _ => exact inv_decStart h (eq_of_beq hlegal) (hkv (eq_of_beq hlegal) rfl) hperf
  | decData _ => exact inv_decData h (eq_of_beq hlegal) hperf
  | decFinal _ =>
    obtain ⟨-, rfl⟩ := hperf
    exact inv_decFinal h (eq_of_beq hlegal) _
  | hashInit _ => exact hperf ▸ inv_hashInit h (eq_of_beq hlegal)
  | hashUpdate _ => exact inv_hashUpdate h (eq_of_beq hlegal) hperf
  | hashFinal _ => exact hperf ▸ inv_hashFinal h (eq_of_beq hlegal) _

theorem inv_exec {i : Instr} {s t : State} (h : s.Inv) (hexec : exec i s = .next t) : t.Inv := by
  rcases exec_next_cases hexec with ⟨-, rfl⟩ | ⟨-, e, out, rfl, -⟩ | ⟨-, hlegal, hkey, hperf⟩
  · exact h
  · exact inv_faulted e out s
  · exact inv_performed h hlegal hkey hperf

/-- Settles O58: the fetch touches the ports alone; what follows is waiting, an illegal word or a command. -/
theorem stepKeepsTheInvariants : Obligations.StepKeepsTheInvariants := by
  intro s t h hstep
  cases hcmd : s.cmd with
  | nil =>
    rw [step_of_cmd_nil hcmd] at hstep
    exact Host.Outcome.next.inj hstep ▸ h
  | cons w ws =>
    have htaken := inv_withPorts h ws (s.din.drop (lenField w)) s.dout
    obtain ⟨-, ⟨i, -, hexec⟩ | ⟨-, rfl⟩⟩ := step_next_cases hcmd hstep
    · exact inv_exec htaken hexec
    · exact inv_illegalCommand htaken

end Sys2Proof.Proofs
end

section
/-! The derivation unit over many bytes (`41_kdf.md` R132 to R137): the running scalar and the accumulator over a run
of bytes inside one block, the block a second pass leaves in `WORK`, KDF_FINAL in closed form, and what of a
passphrase survives a block boundary. -/

namespace Sys2Proof.Proofs

open Sys2Proof Sys2Proof.Machine

/-! ### KDF_ABSORB and chunk boundaries -/

/-- Settles O26: absorbing a concatenation is absorbing its parts. -/
theorem kdfAbsorbIgnoresChunkBoundaries : Obligations.KdfAbsorbIgnoresChunkBoundaries := by
  refine fun s hp => ⟨exec_kdfAbsorb_in_kdfAbs hp [], fun p q => ⟨_, exec_kdfAbsorb_in_kdfAbs hp p, rfl, ?_⟩⟩
  have hp' : (setKdf (absorb Config.cfg s.kdf p) s).phase = .kdfAbs := hp
  rw [exec_kdfAbsorb_in_kdfAbs hp', exec_kdfAbsorb_in_kdfAbs hp, absorb_append]
  rfl

/-! ### The running scalar and the accumulator -/

/-- `RS` after absorbing `xs` from `RS = r`: each byte is chained through `TSUB` (R132). -/
def scalarAfter (c : Cfg) (r : Byte) (xs : List Byte) : Byte := xs.foldl (fun r x => c.tsub (x ^^^ r)) r

theorem scalarAfter_concat (c : Cfg) (r : Byte) (xs : List Byte) (x : Byte) :
    scalarAfter c r (xs ++ [x]) = c.tsub (x ^^^ scalarAfter c r xs) := by
  simp [scalarAfter]

theorem scalarAfter_take_succ (c : Cfg) (r : Byte) (xs : List Byte) {n : Nat} (h : n < xs.length) :
    scalarAfter c r (xs.take (n + 1)) = c.tsub (xs[n] ^^^ scalarAfter c r (xs.take n)) := by
  rw [← List.take_append_getElem h, scalarAfter_concat]

theorem absorb_concat (c : Cfg) (st : KdfState) (xs : List Byte) (x : Byte) :
    absorb c st (xs ++ [x]) = absorbByte c (absorb c st xs) x := absorb_append c st xs [x]

theorem absorb_rs (c : Cfg) (st : KdfState) (xs : List Byte) : (absorb c st xs).rs = scalarAfter c st.rs xs := by
  induction xs using List.reverseRecOn with
  | nil => rfl
  | append_singleton xs x ih => rw [absorb_concat, absorbByte_rs, ih, scalarAfter_concat]

/-- `POS` after fewer bytes than fill the block. -/
theorem absorb_pos_of_lt (c : Cfg) (st : KdfState) (xs : List Byte) (h : st.pos.val + xs.length < 512) :
    (absorb c st xs).pos.val = st.pos.val + xs.length := by
  rw [absorb_pos, Nat.mod_eq_of_lt h]

/-- Bytes that stay inside the block leave in `ACC` the running scalars after each of them, from `POS` on (R132). -/
theorem absorb_acc_getElem (c : Cfg) (st : KdfState) (xs : List Byte) (h : st.pos.val + xs.length ≤ 512) (i : Nat)
    (hi : i < 512) :
    (absorb c st xs).acc[i] =
      if st.pos.val ≤ i ∧ i < st.pos.val + xs.length then scalarAfter c st.rs (xs.take (i - st.pos.val + 1))
      else st.acc[i] := by
  induction xs using List.reverseRecOn with
  | nil => rw [absorb_nil, if_neg (by simp)]
  | append_singleton xs x ih =>
    rw [List.length_append, List.length_singleton] at h ⊢
    rw [absorb_concat, absorbByte_acc_getElem, absorbByte_rs, absorb_rs, absorb_pos_of_lt _ _ _ (by omega),
      ih (by omega)]
    by_cases hlast : i = st.pos.val + xs.length
    · rw [if_pos hlast, if_pos (by omega), hlast, Nat.add_sub_cancel_left, List.take_of_length_le (by simp),
        scalarAfter_concat]
    · have hin : st.pos.val ≤ i ∧ i < st.pos.val + xs.length ↔
          st.pos.val ≤ i ∧ i < st.pos.val + (xs.length + 1) := by omega
      rw [if_neg hlast]
      simp only [hin]
      split
      · rw [List.take_append_of_le_length (by omega)]
      · rfl

/-! ### KDF_FINAL: the padding -/

/-- The padding byte of R135. -/
def padByte (st : KdfState) : Byte := kdfPadByte (512 - st.pos.val)

theorem absorbPadding_eq (c : Cfg) (st : KdfState) :
    absorbPadding c st = absorb c st (List.replicate (512 - st.pos.val) (padByte st)) := rfl

/-- The accumulator behind the padding, byte by byte (R135). -/
theorem absorbPadding_acc_getElem (c : Cfg) (st : KdfState) (i : Nat) (hi : i < 512) :
    (absorbPadding c st).acc[i] =
      if st.pos.val ≤ i then scalarAfter c st.rs (List.replicate (i - st.pos.val + 1) (padByte st)) else st.acc[i] := by
  have hpos := st.pos.isLt
  rw [absorbPadding_eq, absorb_acc_getElem _ _ _ (by rw [List.length_replicate]; omega), List.length_replicate,
    List.take_replicate]
  by_cases hle : st.pos.val ≤ i
  · rw [if_pos ⟨hle, by omega⟩, if_pos hle, min_eq_left (by omega)]
  · rw [if_neg (by simp [hle]), if_neg hle]

theorem scalarAfter_replicate_succ (c : Cfg) (r v : Byte) (n : Nat) :
    scalarAfter c r (List.replicate (n + 1) v) = c.tsub (v ^^^ scalarAfter c r (List.replicate n v)) := by
  rw [List.replicate_succ', scalarAfter_concat]

/-- The padding fills the block with at least one byte, so the last byte of `ACC` is `RS` (R135). -/
theorem absorbPadding_rs (c : Cfg) (st : KdfState) : (absorbPadding c st).rs = (absorbPadding c st).acc[511] := by
  have hpos := st.pos.isLt
  rw [absorbPadding_acc_getElem, if_pos (by omega), absorbPadding_eq, absorb_rs,
    show 511 - st.pos.val + 1 = 512 - st.pos.val by omega]

/-! ### KDF_FINAL: the second pass -/

/-- From `POS = 0` the second pass reads each byte of `ACC` before it is written: it absorbs `ACC` as it stood (R135).
-/
theorem absorbAccSteps_eq_absorb (c : Cfg) (st : KdfState) (hpos : st.pos = 0) (n : Nat) (hn : n ≤ 512) :
    absorbAccSteps c st n hn = absorb c st (st.acc.toList.take n) := by
  have hpos' : st.pos.val = 0 := congrArg Fin.val hpos
  induction n with
  | zero => rfl
  | succ n ih =>
    have htake : (st.acc.toList.take n).length = n := by simp; omega
    have hread : (absorbAccSteps c st n (Nat.le_of_succ_le hn)).acc[n] = st.acc[n] := by
      rw [ih (Nat.le_of_succ_le hn), absorb_acc_getElem _ _ _ (by omega), if_neg (by omega)]
    rw [absorbAccSteps_succ c st n hn, hread, ih (Nat.le_of_succ_le hn),
      ← List.take_append_getElem (by simpa using hn), absorb_concat, Vector.getElem_toList]

theorem absorbAcc_eq_absorb (c : Cfg) (st : KdfState) (hpos : st.pos = 0) :
    absorbAcc c st = absorb c st st.acc.toList := by
  rw [absorbAcc_eq_absorbAccSteps, absorbAccSteps_eq_absorb c st hpos, List.take_of_length_le (by simp)]

/-- `WORK` after bytes `xs` from `POS = 0` on, where `old` was the accumulator (R132). -/
def HoldsBlock (old : Vector Byte 512) (xs : List Byte) (work : Vector Byte 1536) : Prop :=
  ∀ i (h : i < xs.length) (hi : i < 512),
    work[i] = xs[i] ∧ work[i + 512] = xs[i] ∧ work[i + 1024] = xs[i] ^^^ old[i]

/-- The three writes of one more byte (R132). -/
theorem holdsBlock_concat (c : Cfg) {st u : KdfState} {xs : List Byte} (x : Byte) (hpos : u.pos.val = xs.length)
    (hacc : ∀ h : xs.length < 512, u.acc[xs.length] = st.acc[xs.length]) (h : HoldsBlock st.acc xs u.work) :
    HoldsBlock st.acc (xs ++ [x]) (absorbWrites c u x).work := by
  have hlt : xs.length < 512 := hpos ▸ u.pos.isLt
  have hold : u.acc[u.pos] = st.acc[xs.length] := by
    rw [← hacc hlt]
    simp only [Fin.getElem_fin, hpos]
  intro i hi hi'
  rw [List.length_append, List.length_singleton] at hi
  simp only [absorbWrites_work_getElem, hpos, hold]
  obtain hlt' | rfl : i < xs.length ∨ i = xs.length := by omega
  · obtain ⟨h1, h2, h3⟩ := h i hlt' hi'
    rw [List.getElem_append_left hlt', if_neg (by omega), if_neg (by omega), if_neg (by omega), if_neg (by omega),
      if_neg (by omega), if_neg (by omega)]
    exact ⟨h1, h2, h3⟩
  · rw [List.getElem_concat_length rfl, if_pos (.inl rfl), if_pos (.inr rfl), if_neg (by omega), if_pos rfl]
    exact ⟨rfl, rfl, rfl⟩

theorem absorb_holdsBlock (c : Cfg) (st : KdfState) (hpos : st.pos = 0) (xs : List Byte) (h : xs.length < 512) :
    HoldsBlock st.acc xs (absorb c st xs).work := by
  have hpos' : st.pos.val = 0 := congrArg Fin.val hpos
  induction xs using List.reverseRecOn with
  | nil => exact fun i hi => absurd hi (by simp)
  | append_singleton xs x ih =>
    rw [List.length_append, List.length_singleton] at h
    have hcursor := absorb_pos_of_lt c st xs (by omega)
    rw [absorb_concat, absorbByte_lt _ _ _ (by omega)]
    refine holdsBlock_concat c x (by omega) (fun _ => ?_) (ih (by omega))
    rw [absorb_acc_getElem _ _ _ (by omega), if_neg (by omega)]

/-- A whole block from `POS = 0` ends in a mixing pass over the bytes, twice, and their XOR with the old `ACC` (R132).
-/
theorem absorb_block_work (c : Cfg) (st : KdfState) (hpos : st.pos = 0) (xs : List Byte) (h : xs.length = 512) :
    ∃ w, HoldsBlock st.acc xs w ∧ (absorb c st xs).work = kdfMix c w := by
  have hpos' : st.pos.val = 0 := congrArg Fin.val hpos
  obtain ⟨ys, x, rfl⟩ := (List.eq_nil_or_concat' xs).resolve_left (by rintro rfl; simp at h)
  rw [List.length_append, List.length_singleton] at h
  have hcursor := absorb_pos_of_lt c st ys (by omega)
  refine ⟨(absorbWrites c (absorb c st ys) x).work, ?_, ?_⟩
  · refine holdsBlock_concat c x (by omega) (fun _ => ?_) (absorb_holdsBlock c st hpos ys (by omega))
    rw [absorb_acc_getElem _ _ _ (by omega), if_neg (by omega)]
  · rw [absorb_concat, absorbByte_last _ _ _ (by omega)]

/-! ### KDF_FINAL: the statement -/

/-- In `KDF_ABS` KDF_FINAL finalizes the derivation (R135). -/
theorem exec_kdfFinal_in_kdfAbs {s : State} (hp : s.phase = .kdfAbs) :
    exec (.kdfFinal []) s = .next (setPhase .kdfRdy (setKdf (kdfFinalize Config.cfg s.kdf) s)) := by
  rw [exec_kdfFinal]
  exact withChecks_of_keyless hp (by decide) rfl rfl rfl

/-- The accumulator of the second pass: `ACC` chained once more over the padded block (R135). -/
theorem kdfFinalize_acc_getElem (c : Cfg) (st : KdfState) (i : Nat) (hi : i < 512) :
    (kdfFinalize c st).acc[i] =
      scalarAfter c (absorbPadding c st).acc[511] ((absorbPadding c st).acc.toList.take (i + 1)) := by
  have hpos := absorbPadding_pos c st
  have hpos' : (absorbPadding c st).pos.val = 0 := congrArg Fin.val hpos
  rw [kdfFinalize_eq_absorbAcc, absorbAcc_eq_absorb _ _ hpos, absorb_acc_getElem _ _ _ (by simp [hpos']), hpos',
    if_pos (by simpa using hi), absorbPadding_rs, Nat.sub_zero]

theorem kdfFinalize_rs (c : Cfg) (st : KdfState) : (kdfFinalize c st).rs = (kdfFinalize c st).acc[511] := by
  rw [kdfFinalize_acc_getElem, kdfFinalize_eq_absorbAcc, absorbAcc_eq_absorb _ _ (absorbPadding_pos c st), absorb_rs,
    absorbPadding_rs, List.take_of_length_le (by simp)]

theorem kdfFinalize_work (c : Cfg) (st : KdfState) :
    ∃ w, HoldsBlock (absorbPadding c st).acc (absorbPadding c st).acc.toList w ∧
      (kdfFinalize c st).work = kdfMix c w := by
  rw [kdfFinalize_eq_absorbAcc, absorbAcc_eq_absorb _ _ (absorbPadding_pos c st)]
  exact absorb_block_work c _ (absorbPadding_pos c st) _ (by simp)

/-- Settles O28: `a` is `ACC` behind the padding, which the second pass absorbs as one whole block. -/
theorem kdfFinalResult : Obligations.KdfFinalResult := by
  intro s hp
  obtain ⟨w, hw, hwork⟩ := kdfFinalize_work Config.cfg s.kdf
  have hacc := kdfFinalize_acc_getElem Config.cfg s.kdf
  have hpad := absorbPadding_acc_getElem Config.cfg s.kdf
  refine ⟨(absorbPadding Config.cfg s.kdf).acc, (kdfFinalize Config.cfg s.kdf).acc, w, fun i hi hlt => ?_, ?_,
    fun i hi hle => ?_, ?_, fun i hi => ?_, fun i hi => ?_, ?_⟩
  · rw [hpad, if_neg (by omega)]
  · rw [Fin.getElem_fin, hpad, if_pos le_rfl, Nat.sub_self]
    rfl
  · rw [hpad, hpad, if_pos (by omega), if_pos hle, show i + 1 - s.kdf.pos.val = i - s.kdf.pos.val + 1 by omega,
      scalarAfter_replicate_succ]
    rfl
  · rw [hacc, scalarAfter_take_succ _ _ _ (by simp), Vector.getElem_toList]
    rfl
  · rw [hacc, hacc, scalarAfter_take_succ _ _ _ (by simpa using hi), Vector.getElem_toList]
  · obtain ⟨h1, h2, h3⟩ := hw i (by simpa using hi) hi
    rw [Vector.getElem_toList] at h1 h2 h3
    exact ⟨h1, h2, h3.trans BitVec.xor_self⟩
  · rw [exec_kdfFinal_in_kdfAbs hp, ← hwork, ← kdfFinalize_rs, ← kdfFinalize_pos Config.cfg s.kdf]
    rfl

/-! ### What survives a block boundary -/

/-- Two derivations that agree in what later bytes can reach: `POS`, `RS`, and `ACC` below `POS`. -/
def SameTail (a b : KdfState) : Prop :=
  a.pos = b.pos ∧ a.rs = b.rs ∧ ∀ i (h : i < 512), i < a.pos.val → a.acc[i] = b.acc[i]

/-- One more byte keeps the agreement: it assigns `ACC[POS]` the new `RS`, and at the end of a block nothing of `ACC` is
below `POS` (R132). -/
theorem sameTail_absorbByte (c : Cfg) {a b : KdfState} (x : Byte) (h : SameTail a b) :
    SameTail (absorbByte c a x) (absorbByte c b x) := by
  obtain ⟨hpos, hrs, hacc⟩ := h
  refine ⟨Fin.ext (by simp [hpos]), by simp [hrs], fun i hi hlt => ?_⟩
  have hpos' : a.pos.val = b.pos.val := congrArg Fin.val hpos
  rw [absorbByte_pos] at hlt
  rw [absorbByte_acc_getElem, absorbByte_acc_getElem, absorbByte_rs, absorbByte_rs, hrs, hpos']
  split_ifs with hlast
  · rfl
  · exact hacc i hi (by omega)

theorem sameTail_absorb (c : Cfg) {a b : KdfState} (xs : List Byte) (h : SameTail a b) :
    SameTail (absorb c a xs) (absorb c b xs) := by
  induction xs generalizing a b with
  | nil => exact h
  | cons x xs ih => exact ih (sameTail_absorbByte c x h)

/-- The padding overwrites `ACC` from `POS` on, so the padded block is the same. -/
theorem absorbPadding_acc_eq_of_sameTail (c : Cfg) {a b : KdfState} (h : SameTail a b) :
    (absorbPadding c a).acc = (absorbPadding c b).acc := by
  obtain ⟨hpos, hrs, hacc⟩ := h
  ext1 i hi
  rw [absorbPadding_acc_getElem, absorbPadding_acc_getElem, padByte, padByte, hpos, hrs]
  split_ifs with hle
  · rfl
  · exact hacc i hi (by omega)

theorem holdsBlock_unique {old : Vector Byte 512} {xs : List Byte} (hlen : xs.length = 512) {v w : Vector Byte 1536}
    (hv : HoldsBlock old xs v) (hw : HoldsBlock old xs w) : v = w := by
  ext1 i hi
  obtain ⟨v1, v2, v3⟩ := hv (i % 512) (by omega) (by omega)
  obtain ⟨w1, w2, w3⟩ := hw (i % 512) (by omega) (by omega)
  obtain h | h | h : i % 512 = i ∨ i % 512 + 512 = i ∨ i % 512 + 1024 = i := by omega
  · simp only [h] at v1 w1
    exact v1.trans w1.symm
  · simp only [h] at v2 w2
    exact v2.trans w2.symm
  · simp only [h] at v3 w3
    exact v3.trans w3.symm

/-- KeyMaterial depends on the padded block alone. -/
theorem kdfFinalize_work_eq_of_sameTail (c : Cfg) {a b : KdfState} (h : SameTail a b) :
    (kdfFinalize c a).work = (kdfFinalize c b).work := by
  obtain ⟨v, hv, hvwork⟩ := kdfFinalize_work c a
  obtain ⟨w, hw, hwwork⟩ := kdfFinalize_work c b
  rw [← absorbPadding_acc_eq_of_sameTail c h] at hw
  rw [hvwork, hwwork, holdsBlock_unique (by simp) hv hw]

/-- A command that answers is followed by the rest of the run (R70). -/
theorem runCommands_cons {i : Instr} {is : List Instr} {s t : State} (h : exec i s = .next t) :
    runCommands (i :: is) s = runCommands is t := by
  simp [runCommands, h]

/-- A derivation run to its end from `KDF_ABS` (R134, R135, R151). -/
theorem runCommands_derive {s : State} (hp : s.phase = .kdfAbs) (p : List Byte) :
    ∃ t, runCommands [.kdfAbsorb p, .kdfFinal [], .ksDerive []] s = .next t ∧
      t.k = schedule (keyMaterial (kdfFinalize Config.cfg (absorb Config.cfg s.kdf p))) := by
  have hp' : (setKdf (absorb Config.cfg s.kdf p) s).phase = .kdfAbs := hp
  rw [runCommands_cons (exec_kdfAbsorb_in_kdfAbs hp p), runCommands_cons (exec_kdfFinal_in_kdfAbs hp'),
    runCommands_cons (exec_ksDerive_in_kdfRdy rfl)]
  exact ⟨_, rfl, rfl⟩

/-- Settles O30: at a block boundary nothing of `ACC` is below `POS`, so equal `RS` is all the agreement needs. -/
theorem onlyTheRunningScalarSurvivesABlock : Obligations.OnlyTheRunningScalarSurvivesABlock := by
  intro s1 s2 p hp1 hp2 hpos1 hpos2 hrs
  obtain ⟨t1, ht1, hk1⟩ := runCommands_derive hp1 p
  obtain ⟨t2, ht2, hk2⟩ := runCommands_derive hp2 p
  have htail : SameTail s1.kdf s2.kdf := ⟨hpos1.trans hpos2.symm, hrs, fun i _ hi => by simp [hpos1] at hi⟩
  refine ⟨t1, t2, ht1, ht2, ?_⟩
  rw [hk1, hk2, keyMaterial, keyMaterial, kdfFinalize_work_eq_of_sameTail _ (sameTail_absorb _ p htail)]

end Sys2Proof.Proofs
end

section
/-! Bijectivity in the block cipher (`40_substitution_tables.md` section 1, `43_block_cipher.md` sections 1 and 3):
the byte tables, the round function, and encryption and decryption as inverses of each other. -/

namespace Sys2Proof.Proofs

open Sys2Proof Sys2Proof.Machine

/-! ### The byte tables -/

/-- A byte is its high nibble, sixteen times, and its low nibble. -/
theorem toNat_eq_nibbles (v : Byte) : v.toNat = 16 * (v.extractLsb' 4 4).toNat + (v.extractLsb' 0 4).toNat := by
  have hv := v.isLt
  simp only [BitVec.extractLsb'_toNat, Nat.shiftRight_eq_div_pow]
  omega

/-- A table is injective because its two permutations are (R120, R122). -/
theorem sbox_injective (c : Cfg) (i : Fin 8) : Function.Injective (sbox c i) := by
  intro v w h
  have hhigh := congrArg (BitVec.extractLsb' 4 4) h
  have hlow := congrArg (BitVec.extractLsb' 0 4) h
  rw [sbox_highNibble, sbox_highNibble, Equiv.apply_eq_iff_eq] at hhigh
  rw [sbox_lowNibble, sbox_lowNibble, Equiv.apply_eq_iff_eq] at hlow
  apply BitVec.eq_of_toNat_eq
  rw [toNat_eq_nibbles v, toNat_eq_nibbles w, hhigh, hlow]

/-- Settles O33: an injective map of the bytes to themselves is a bijection, and a byte is the sum of its nibbles. -/
theorem substitutionTablesAreBijective : Obligations.SubstitutionTablesAreBijective := by
  refine fun c i => ⟨Finite.injective_iff_bijective.mp (sbox_injective c i), fun v => ?_⟩
  rw [toNat_eq_nibbles, sbox_highNibble, sbox_lowNibble]
  rfl

/-! ### The round function -/

/-- A word is determined by its eight byte lanes (R160). -/
theorem eq_of_lanes_eq {x y : Word64} (h : ∀ n : Fin 8, lane x n.val = lane y n.val) : x = y := by
  apply BitVec.eq_of_getLsbD_eq
  intro j hj
  have hbit := congrArg (fun b : Byte => b.getLsbD (j % 8)) (h ⟨j / 8, by omega⟩)
  simpa [lane, Nat.mod_lt, Nat.div_add_mod] using hbit

/-- The substitution is injective lane by lane (R160). -/
theorem substWord_injective (c : Cfg) : Function.Injective (substWord c) := by
  intro x y h
  refine eq_of_lanes_eq fun n => ?_
  have hlane := congrArg (fun w => lane w n.val) h
  simp only [lane_substWord] at hlane
  exact sbox_injective c _ hlane

/-- A rotation moves the bits around and loses none. -/
theorem rotateLeft_injective (n : Nat) : Function.Injective fun x : Word64 => x.rotateLeft n := by
  intro x y h
  apply BitVec.eq_of_getMsbD_eq
  intro j hj
  have hbit := congrArg (fun w : Word64 => w.getMsbD ((64 - n % 64 + j) % 64)) h
  simp only [BitVec.getMsbD_rotateLeft] at hbit
  rwa [show (n + (64 - n % 64 + j) % 64) % 64 = j by omega, decide_eq_true (by omega), Bool.true_and, Bool.true_and]
    at hbit

/-- Settles O35: the substitution and the rotation are injective on a finite set. -/
theorem roundFunctionIsBijective : Obligations.RoundFunctionIsBijective := by
  refine fun c => Finite.injective_iff_bijective.mp fun x y h => ?_
  rw [roundF, roundF, rotl64_eq_rotateLeft _ 11 (by decide), rotl64_eq_rotateLeft _ 11 (by decide)] at h
  exact substWord_injective c (rotateLeft_injective 11 h)

/-! ### Encryption and decryption -/

/-- The loop with the subkeys in the opposite order walks back along the loop it follows, the halves exchanged: each
iteration undoes the last one not yet undone (R166). -/
theorem halves_reverse (c : Cfg) (k1 k2 l1 l2 : ∀ r, r < 32 → Word64)
    (hl1 : ∀ r (h : r < 32), l1 r h = k2 (31 - r) (by omega)) (hl2 : ∀ r (h : r < 32), l2 r h = k1 (31 - r) (by omega))
    (w : Word64 × Word64) (n : Nat) (hn : n ≤ 32) :
    halves c l1 l2 (halves c k1 k2 w 32).swap n = (halves c k1 k2 w (32 - n)).swap := by
  induction n with
  | zero => rfl
  | succ n ih =>
    have hlast : 32 - n = 31 - n + 1 := by omega
    rw [halves_succ c l1 l2 _ hn, ih (Nat.le_of_succ_le hn), hl1, hl2, hlast, halves_succ c k1 k2 w (by omega),
      iteration_undo, show 32 - (n + 1) = 31 - n by omega]

/-- The whole loop undone. -/
theorem halves_reverse_swap (c : Cfg) (k1 k2 l1 l2 : ∀ r, r < 32 → Word64)
    (hl1 : ∀ r (h : r < 32), l1 r h = k2 (31 - r) (by omega)) (hl2 : ∀ r (h : r < 32), l2 r h = k1 (31 - r) (by omega))
    (w : Word64 × Word64) : (halves c l1 l2 (halves c k1 k2 w 32).swap 32).swap = w := by
  rw [halves_reverse c k1 k2 l1 l2 hl1 hl2 w 32 le_rfl, Prod.swap_swap]
  rfl

theorem toWords_injective : Function.Injective toWords := by
  intro a b h
  rw [← toBytes_toWords a, ← toBytes_toWords b, h]

/-- Decryption walks the loop of encryption backwards (R165, R166). -/
theorem blockDecrypt_blockEncrypt (c : Cfg) (k : Vector Word64 64) (blk : Block) :
    blockDecrypt c k (blockEncrypt c k blk) = blk := by
  apply toWords_injective
  rw [toWords_blockDecrypt, toWords_blockEncrypt]
  refine halves_reverse_swap c _ _ _ _ (fun r h => ?_) (fun r h => ?_) _ <;> congr 1 <;> omega

/-- Encryption walks the loop of decryption backwards. -/
theorem blockEncrypt_blockDecrypt (c : Cfg) (k : Vector Word64 64) (blk : Block) :
    blockEncrypt c k (blockDecrypt c k blk) = blk := by
  apply toWords_injective
  rw [toWords_blockEncrypt, toWords_blockDecrypt]
  refine halves_reverse_swap c _ _ _ _ (fun r h => ?_) (fun r h => ?_) _ <;> congr 1 <;> omega

/-- Settles O38: the two directions of `halves_reverse_swap`. -/
theorem blockCipherInverts : Obligations.BlockCipherInverts :=
  fun c k blk => ⟨blockDecrypt_blockEncrypt c k blk, blockEncrypt_blockDecrypt c k blk⟩

end Sys2Proof.Proofs
end

section
/-! The incremental hash (`44_integrity_hash.md` R183 to R189): HASH_UPDATE byte by byte and piece by piece, a whole
block as one compression, and the run HASH_INIT, HASH_UPDATE, HASH_FINAL as the Merkle-Damgard hash of the padded
message. -/

namespace Sys2Proof.Proofs

open Sys2Proof Sys2Proof.Machine

/-! ### HASH_UPDATE -/

/-- In `HASH` below the bound of R186, HASH_UPDATE feeds its payload (R188). -/
theorem exec_hashUpdate_in_hash {s : State} {p : List Byte} (hp : s.phase = .hash)
    (hb : s.hash.nbytes.toNat + p.length < 2 ^ 61) :
    exec (.hashUpdate p) s = .next (setHash (hashBytes s.hash p) s) := by
  rw [exec_hashUpdate, withChecks_of_keyless hp (by decide) rfl rfl rfl]
  exact hashGuard_performs hb

/-- At the bound HASH_UPDATE is refused (R186). -/
theorem exec_hashUpdate_refused {s : State} {p : List Byte} (hp : s.phase = .hash)
    (hb : 2 ^ 61 ≤ s.hash.nbytes.toNat + p.length) : exec (.hashUpdate p) s = .refused .hashTooLong := by
  rw [exec_hashUpdate, withChecks_of_keyless hp (by decide) rfl rfl rfl]
  exact hashGuard_refuses hb.not_gt

/-- The compression runs when the byte fed is the last of its block (R183). -/
theorem hashByte_h (st : HashState) (x : Byte) :
    (hashByte st x).h = if st.nbytes.toNat % 64 = 63 then shaCompress st.h (hashByte st x).buf else st.h := by
  have hfull : (st.nbytes + 1).toNat % 64 = 0 ↔ st.nbytes.toNat % 64 = 63 := by
    rw [BitVec.toNat_add]
    simp only [BitVec.ofNat_eq_ofNat, BitVec.toNat_ofNat]
    omega
  rw [hashByte_buf]
  simp only [hashByte, hfull]
  split <;> rfl

/-- Settles O40: the one byte is a `hashByte`. -/
theorem hashedByteWrites : Obligations.HashedByteWrites := by
  intro s x hp hb
  refine ⟨setHash (hashByte s.hash x) s, exec_hashUpdate_in_hash hp hb, rfl, ?_, fun i hi => ?_, fun h => ?_,
    fun h => ?_⟩
  · exact hashBytes_nbytes_toNat s.hash [x] (hb.trans (by decide))
  · simp only [setHash_hash, hashByte_buf, Vector.getElem_set, eq_comm]
  · rw [setHash_hash, hashByte_h, if_pos h]
  · rw [setHash_hash, hashByte_h, if_neg h]

/-- Settles O41: feeding a concatenation is feeding its parts, and the bound is the same for both. -/
theorem hashUpdateIgnoresChunkBoundaries : Obligations.HashUpdateIgnoresChunkBoundaries := by
  intro s p q hp
  refine ⟨fun hb => ?_, exec_hashUpdate_refused hp⟩
  have hnbytes := hashBytes_nbytes_toNat s.hash p (hb.trans (by decide))
  refine ⟨_, exec_hashUpdate_in_hash hp hb, rfl, hnbytes, ?_, ?_⟩
  · rintro rfl
    rfl
  · have hp' : (setHash (hashBytes s.hash p) s).phase = .hash := hp
    have hlen : (setHash (hashBytes s.hash p) s).hash.nbytes.toNat + q.length
        = s.hash.nbytes.toNat + (p ++ q).length := by
      rw [setHash_hash, hnbytes, List.length_append, Nat.add_assoc]
    by_cases hbound : s.hash.nbytes.toNat + (p ++ q).length < 2 ^ 61
    · rw [exec_hashUpdate_in_hash hp' (hlen ▸ hbound), exec_hashUpdate_in_hash hp hbound, hashBytes_append]
      rfl
    · rw [exec_hashUpdate_refused hp' (hlen ▸ not_lt.mp hbound), exec_hashUpdate_refused hp (not_lt.mp hbound)]

/-! ### A whole block -/

/-- The fill of `BUF` counts modulo 64, whatever `NBYTES` is (R28, R183). -/
theorem hashBytes_fill (st : HashState) (xs : List Byte) :
    (hashBytes st xs).nbytes.toNat % 64 = (st.nbytes.toNat + xs.length) % 64 := by
  rw [hashBytes_nbytes, BitVec.toNat_add, BitVec.toNat_ofNat]
  omega

theorem hashBytes_concat (st : HashState) (xs : List Byte) (x : Byte) :
    hashBytes st (xs ++ [x]) = hashByte (hashBytes st xs) x := hashBytes_append st xs [x]

/-- From an empty `BUF`, fewer bytes than fill it are only stored (R183). -/
theorem hashBytes_partial (st : HashState) (hfill : st.nbytes.toNat % 64 = 0) (xs : List Byte) (h : xs.length < 64) :
    (hashBytes st xs).h = st.h ∧ ∀ i (hi : i < xs.length), (hashBytes st xs).buf[i] = xs[i] := by
  induction xs using List.reverseRecOn with
  | nil => exact ⟨rfl, fun i hi => absurd hi (by simp)⟩
  | append_singleton xs x ih =>
    rw [List.length_append, List.length_singleton] at h
    obtain ⟨hh, hbuf⟩ := ih (by omega)
    have hfill' : (hashBytes st xs).nbytes.toNat % 64 = xs.length := by rw [hashBytes_fill]; omega
    refine ⟨?_, fun i hi => ?_⟩
    · rw [hashBytes_concat, hashByte_h, if_neg (by omega), hh]
    · rw [List.length_append, List.length_singleton] at hi
      simp only [hashBytes_concat, hashByte_buf, Vector.getElem_set, hfill']
      obtain hlt | rfl : i < xs.length ∨ i = xs.length := by omega
      · rw [if_neg (by omega), List.getElem_append_left hlt, hbuf i hlt]
      · rw [if_pos rfl, List.getElem_concat_length rfl]

/-- From an empty `BUF`, 64 bytes are one compression over them (R183). -/
theorem hashBytes_block_h (st : HashState) (hfill : st.nbytes.toNat % 64 = 0) (xs : List Byte) (h : xs.length = 64) :
    (hashBytes st xs).h = shaCompress st.h (bytesAt 64 0 xs) := by
  obtain ⟨ys, x, rfl⟩ := (List.eq_nil_or_concat' xs).resolve_left (by rintro rfl; simp at h)
  rw [List.length_append, List.length_singleton] at h
  obtain ⟨hh, hbuf⟩ := hashBytes_partial st hfill ys (by omega)
  have hfill' : (hashBytes st ys).nbytes.toNat % 64 = 63 := by rw [hashBytes_fill]; omega
  have hblock : (hashByte (hashBytes st ys) x).buf = bytesAt 64 0 (ys ++ [x]) := by
    ext1 i hi
    simp only [hashByte_buf, Vector.getElem_set, hfill', bytesAt_getElem, Nat.zero_add]
    rw [List.getD_eq_getElem _ _ (by simp; omega)]
    obtain hlt | rfl : i < ys.length ∨ i = 63 := by omega
    · rw [if_neg (by omega), List.getElem_append_left hlt, hbuf i hlt]
    · rw [if_pos rfl, List.getElem_concat_length (by omega)]
  rw [hashBytes_concat, hashByte_h, if_pos hfill', hh, hblock]

/-- The first `n` blocks of 64 bytes of a string. -/
def shaBlocks (m : List Byte) (n : Nat) : List (Vector Byte 64) := (List.range n).map fun i => bytesAt 64 (64 * i) m

theorem shaBlocks_succ (m : List Byte) (n : Nat) : shaBlocks m (n + 1) = shaBlocks m n ++ [bytesAt 64 (64 * n) m] := by
  rw [shaBlocks, List.range_succ, List.map_append, List.map_singleton]
  rfl

/-- From an empty `BUF`, whole blocks are the compression folded over them (R183). -/
theorem hashBytes_blocks_h (st : HashState) (hfill : st.nbytes.toNat % 64 = 0) (m : List Byte) (n : Nat)
    (h : 64 * n ≤ m.length) : (hashBytes st (m.take (64 * n))).h = (shaBlocks m n).foldl shaCompress st.h := by
  induction n with
  | zero => rfl
  | succ n ih =>
    have hfill' : (hashBytes st (m.take (64 * n))).nbytes.toNat % 64 = 0 := by
      rw [hashBytes_fill, List.length_take]
      omega
    have hblock : ((m.drop (64 * n)).take 64).length = 64 := by
      rw [List.length_take, List.length_drop]
      omega
    rw [Nat.mul_succ, List.take_add, hashBytes_append, hashBytes_block_h _ hfill' _ hblock, ih (by omega),
      shaBlocks_succ, List.foldl_append, List.foldl_cons, List.foldl_nil]
    congr 1
    rw [← Vector.toList_inj, bytesAt_toList_self _ _ hblock, bytesAt_toList _ _ _ (by omega)]

/-- A string of whole blocks. -/
theorem hashBytes_whole_h (st : HashState) (hfill : st.nbytes.toNat % 64 = 0) (m : List Byte) (h : m.length % 64 = 0) :
    (hashBytes st m).h = (shaBlocks m (m.length / 64)).foldl shaCompress st.h := by
  rw [← hashBytes_blocks_h st hfill m _ (by omega), List.take_of_length_le (by omega)]

/-! ### The whole message -/

/-- The message with the padding of R184. -/
def paddedMessage (m : List Byte) : List Byte := m ++ hashPadding (BitVec.ofNat 64 m.length)

theorem hashPadding_ofNat {n : Nat} (h : n < 2 ^ 64) :
    hashPadding (BitVec.ofNat 64 n) =
      [0x80] ++ List.replicate (hashZeros n) 0 ++ (be64inv (BitVec.ofNat 64 (8 * n))).toList := by
  rw [hashPadding, BitVec.toNat_ofNat, Nat.mod_eq_of_lt h, BitVec.ofNat_mul]
  rfl

theorem paddedMessage_length_mod (m : List Byte) (h : m.length < 2 ^ 64) : (paddedMessage m).length % 64 = 0 := by
  have hzeros := add_hashZeros_mod m.length
  rw [paddedMessage, hashPadding_ofNat h]
  simp only [List.length_append, List.length_singleton, List.length_replicate, Vector.length_toList]
  omega

/-- The digest of a message is the compression folded over the blocks of the padded message, from the initial value
(R181, R183, R184). -/
theorem shaDigest_eq_foldl (m : List Byte) (h : m.length < 2 ^ 64) :
    shaDigest m =
      digestBytes ((shaBlocks (paddedMessage m) ((paddedMessage m).length / 64)).foldl shaCompress shaH0) := by
  have hnbytes : (hashBytes hashInitial m).nbytes = BitVec.ofNat 64 m.length := by
    rw [hashBytes_nbytes]
    exact BitVec.zero_add _
  have hfold := hashBytes_whole_h hashInitial rfl _ (paddedMessage_length_mod m h)
  rw [shaDigest, hashDigest, hnbytes, ← hashBytes_append]
  exact congrArg digestBytes hfold

/-- HASH_UPDATE over any cutting of a message feeds the message (R188). -/
theorem runCommands_hashUpdate {s : State} (ms : List (List Byte)) (rest : List Instr) (hp : s.phase = .hash)
    (hb : s.hash.nbytes.toNat + ms.flatten.length < 2 ^ 61) :
    runCommands (ms.map .hashUpdate ++ rest) s = runCommands rest (setHash (hashBytes s.hash ms.flatten) s) := by
  induction ms generalizing s with
  | nil => rfl
  | cons m ms ih =>
    rw [List.flatten_cons, List.length_append] at hb
    have hnbytes := hashBytes_nbytes_toNat s.hash m (by omega)
    rw [List.map_cons, List.cons_append, runCommands_cons (exec_hashUpdate_in_hash hp (by omega)),
      ih (s := setHash (hashBytes s.hash m) s) hp (by rw [setHash_hash, hnbytes]; omega), List.flatten_cons,
      hashBytes_append]
    rfl

/-- HASH_INIT, HASH_UPDATE over any cutting, HASH_FINAL (R187 to R189). -/
theorem runCommands_hash {s : State} (ms : List (List Byte)) (hp : s.phase = .idle) (hb : ms.flatten.length < 2 ^ 61) :
    runCommands (.hashInit [] :: (ms.map .hashUpdate ++ [.hashFinal []])) s =
      .next (setPhase .idle (wipeHash (emit (shaDigest ms.flatten).toList s))) := by
  have hb' : hashInitial.nbytes.toNat + ms.flatten.length < 2 ^ 61 := by simpa [hashInitial] using hb
  rw [runCommands_cons (exec_hashInit_in_idle hp), runCommands_hashUpdate (s := setPhase .hash (setHash hashInitial s))
    ms _ rfl hb', runCommands_cons (exec_hashFinal_in_hash rfl)]
  rfl

/-- Settles O44: the digest of the message is the fold of `shaDigest_eq_foldl`. -/
theorem incrementalHashIsMerkleDamgard : Obligations.IncrementalHashIsMerkleDamgard := by
  intro s ms hp hb
  have hlen : ms.flatten.length < 2 ^ 64 := hb.trans (by decide)
  refine ⟨_, hashZeros ms.flatten.length, paddedMessage ms.flatten, Nat.mod_lt _ (by decide), add_hashZeros_mod _, ?_,
    runCommands_hash ms hp hb, ?_, ?_⟩
  · rw [paddedMessage, hashPadding_ofNat hlen]
    simp only [List.append_assoc]
  · rw [← hp]
    rfl
  · rw [setPhase_dout, wipeHash_dout, emit_dout, shaDigest_eq_foldl _ hlen, digestBytes_toList]
    rfl

end Sys2Proof.Proofs
end

section
/-! Padding and chunk boundaries of the chained mode (`45_cbc_pipeline.md` R202, R204, R208, R209; `20_memory.md`
section 3): unpadding undoes padding, and ENC_DATA and DEC_DATA do not depend on how their bytes are cut. -/

namespace Sys2Proof.Proofs

open Sys2Proof Sys2Proof.Machine

/-! ### Padding -/

/-- A block of valid padding ends in `n` bytes of value `n` (R209). -/
def EndsInPadding (q : Block) (t : List Byte) (n : Nat) : Prop :=
  1 ≤ n ∧ n ≤ 16 ∧ q.toList = t ++ List.replicate n (BitVec.ofNat 8 n)

/-- The last byte of such a block says how many pad bytes there are. -/
theorem EndsInPadding.last {q : Block} {t : List Byte} {n : Nat} (h : EndsInPadding q t n) :
    q[15] = BitVec.ofNat 8 n ∧ t.length = 16 - n := by
  obtain ⟨hpos, hle, hq⟩ := h
  have hlen : t.length = 16 - n := by
    have := congrArg List.length hq
    simp only [Vector.length_toList, List.length_append, List.length_replicate] at this
    omega
  refine ⟨?_, hlen⟩
  rw [← Vector.getElem_toList (xs := q) (i := 15) (by simp)]
  simp only [hq]
  rw [List.getElem_append_right (by omega), List.getElem_replicate]

/-- The test of R209 says that the block ends in padding. -/
theorem unpad_of_endsInPadding {q : Block} {t : List Byte} {n : Nat} (h : EndsInPadding q t n) : unpad q = some t := by
  obtain ⟨hlast, hlen⟩ := h.last
  obtain ⟨hpos, hle, hq⟩ := h
  have hvalue : q[15].toNat = n := by
    rw [hlast, BitVec.toNat_ofNat]
    omega
  rw [unpad_some q ⟨by omega, by omega, fun j hj hle' => ?_⟩, hvalue, hq, List.take_left' hlen]
  rw [← Vector.getElem_toList (xs := q) (i := j) (by simpa using hj), hlast]
  simp only [hq]
  rw [List.getElem_append_right (by omega), List.getElem_replicate]

theorem endsInPadding_of_unpad {q : Block} {t : List Byte} (h : unpad q = some t) : EndsInPadding q t q[15].toNat := by
  by_cases hvalid : 1 ≤ q[15].toNat ∧ q[15].toNat ≤ 16 ∧ ∀ j (h : j < 16), 16 - q[15].toNat ≤ j → q[j] = q[15]
  · rw [unpad_some q hvalid] at h
    obtain ⟨hpos, hle, hall⟩ := hvalid
    obtain rfl := Option.some.inj h
    have hpad : q.toList.drop (16 - q[15].toNat) = List.replicate q[15].toNat q[15] := by
      apply List.ext_getElem
      · simp only [List.length_drop, Vector.length_toList, List.length_replicate]
        omega
      · intro j h1 h2
        rw [List.length_replicate] at h2
        rw [List.getElem_drop, Vector.getElem_toList, List.getElem_replicate, hall _ _ (by omega)]
    refine ⟨hpos, hle, ?_⟩
    rw [BitVec.ofNat_toNat, BitVec.setWidth_eq, ← hpad, List.take_append_drop]
  · rw [unpad_none q hvalid] at h
    cases h

/-- The padded block of R204. -/
theorem padBlock_toList {r : List Byte} (h : r.length ≤ 15) :
    (padBlock r).toList = r ++ List.replicate (16 - r.length) (BitVec.ofNat 8 (16 - r.length)) :=
  bytesAt_toList_self 16 _ (by simp only [List.length_append, List.length_replicate]; omega)

theorem unpad_padBlock {r : List Byte} (h : r.length ≤ 15) : unpad (padBlock r) = some r :=
  unpad_of_endsInPadding ⟨by omega, by omega, padBlock_toList h⟩

/-- Settles O53: `EndsInPadding` is what the test of R209 says, and what R204 writes. -/
theorem unpadUndoesPad : Obligations.UnpadUndoesPad :=
  ⟨fun _ h => unpad_padBlock h,
    fun _ _ => ⟨fun h => ⟨_, endsInPadding_of_unpad h⟩, fun ⟨_, h⟩ => unpad_of_endsInPadding h⟩⟩

/-! ### A buffer that grows -/

/-- A slice that lies inside the first part of a string. -/
theorem bytesAt_append_left {n off : Nat} {xs ys : List Byte} (h : off + n ≤ xs.length) :
    bytesAt n off (xs ++ ys) = bytesAt n off xs := by
  ext1 i hi
  rw [bytesAt_getElem, bytesAt_getElem, List.getD_append _ _ _ _ (by omega)]

/-- A slice that lies behind the first part of a string. -/
theorem bytesAt_append_right {n off : Nat} {xs ys : List Byte} (h : xs.length ≤ off) :
    bytesAt n off (xs ++ ys) = bytesAt n (off - xs.length) ys := by
  ext1 i hi
  rw [bytesAt_getElem, bytesAt_getElem, List.getD_append_right _ _ _ _ (by omega),
    show off + i - xs.length = off - xs.length + i by omega]

/-- Whole blocks in front of a string are its first blocks (R202). -/
theorem blocksOf_append_of_whole {xs : List Byte} (h : xs.length % 16 = 0) (ys : List Byte) :
    blocksOf (xs ++ ys) = blocksOf xs ++ blocksOf ys := by
  apply List.ext_getElem
  · simp only [blocksOf_length, List.length_append]
    omega
  · intro i h1 h2
    rw [blocksOf_getElem]
    by_cases hi : i < (blocksOf xs).length
    · rw [List.getElem_append_left hi, blocksOf_getElem]
      rw [blocksOf_length] at hi
      exact bytesAt_append_left (by omega)
    · rw [List.getElem_append_right (not_lt.mp hi), blocksOf_getElem]
      rw [blocksOf_length] at hi ⊢
      rw [bytesAt_append_right (by omega), show 16 * i - xs.length = 16 * (i - xs.length / 16) by omega]

theorem blocksOf_eq_nil {xs : List Byte} (h : xs.length < 16) : blocksOf xs = [] :=
  List.eq_nil_of_length_eq_zero (by rw [blocksOf_length]; omega)

theorem restOf_eq_self {xs : List Byte} (h : xs.length < 16) : restOf xs = xs := by
  rw [restOf, Nat.div_eq_of_lt h]
  rfl

theorem restOf_length_lt (buf : List Byte) : (restOf buf).length < 16 := by
  rw [restOf_length]
  omega

/-- A string is its complete blocks and the bytes left over. -/
theorem take_append_restOf (buf : List Byte) : buf.take (16 * (buf.length / 16)) ++ restOf buf = buf :=
  List.take_append_drop _ buf

/-- The blocks of a string that grows: those it had, and those of the bytes left over with the new ones (R202). -/
theorem blocksOf_append (buf q : List Byte) : blocksOf (buf ++ q) = blocksOf buf ++ blocksOf (restOf buf ++ q) := by
  have hwhole : (buf.take (16 * (buf.length / 16))).length % 16 = 0 := by
    rw [List.length_take]
    omega
  have hbuf : blocksOf buf = blocksOf (buf.take (16 * (buf.length / 16))) := by
    conv_lhs => rw [← take_append_restOf buf]
    rw [blocksOf_append_of_whole hwhole, blocksOf_eq_nil (restOf_length_lt buf), List.append_nil]
  conv_lhs => rw [← take_append_restOf buf, List.append_assoc]
  rw [blocksOf_append_of_whole hwhole, ← hbuf]

/-- The bytes left over of a string that grows (R202). -/
theorem restOf_append (buf q : List Byte) : restOf (buf ++ q) = restOf (restOf buf ++ q) := by
  have hsplit : 16 * ((buf ++ q).length / 16) = 16 * (buf.length / 16) + 16 * ((restOf buf ++ q).length / 16) := by
    rw [List.length_append, List.length_append, restOf_length]
    omega
  have hfront : (buf ++ q).drop (16 * (buf.length / 16)) = restOf buf ++ q :=
    List.drop_append_of_le_length (by omega)
  rw [restOf, hsplit, ← List.drop_drop, hfront]
  rfl

/-! ### The residual -/

/-- `RES` is in the normal form of R26: zero from `RLEN` on. -/
def TailZero (s : State) : Prop := ∀ i : Fin 16, s.rlen.val ≤ i.val → s.res[i] = 0

/-- The residual that was written is the residual that is read (R26). -/
theorem resBytes_setResidual {r : List Byte} (h : r.length < 16) (s : State) : resBytes (setResidual r s) = r := by
  have hrlen : (setResidual r s).rlen.val = r.length := Nat.mod_eq_of_lt h
  apply List.ext_getElem
  · rw [resBytes_length, hrlen]
  · intro i h1 h2
    simp only [resBytes, List.getElem_take, Vector.getElem_toList, setResidual_res]
    rw [bytesAt_getElem, Nat.zero_add, List.getD_eq_getElem _ _ h2]

/-- Writing the residual that is there changes nothing, in the normal form of R26. -/
theorem setResidual_resBytes {s : State} (h : TailZero s) : setResidual (resBytes s) s = s := by
  have hres : bytesAt 16 0 (resBytes s) = s.res := by
    ext1 i hi
    rw [bytesAt_getElem, Nat.zero_add]
    by_cases hlt : i < s.rlen.val
    · rw [List.getD_eq_getElem _ _ (by rwa [resBytes_length])]
      simp only [resBytes, List.getElem_take, Vector.getElem_toList]
    · rw [List.getD_eq_default _ _ (by rw [resBytes_length]; omega)]
      exact (h ⟨i, hi⟩ (not_lt.mp hlt)).symm
  have hrlen : Fin.ofNat 16 (resBytes s).length = s.rlen := Fin.ext (by
    rw [resBytes_length]
    exact Nat.mod_eq_of_lt s.rlen.isLt)
  rw [setResidual, hres, hrlen]

theorem resBytes_length_lt (s : State) : (resBytes s).length < 16 := by
  rw [resBytes_length]
  exact s.rlen.isLt

/-! ### ENC_DATA -/

/-- The state after ENC_DATA (R202). -/
def afterEncData (s : State) (p : List Byte) : State :=
  setResidual (restOf (resBytes s ++ p)) (encBlocks Config.cfg s (blocksOf (resBytes s ++ p)))

theorem afterEncData_phase (s : State) (p : List Byte) : (afterEncData s p).phase = s.phase := by
  rw [afterEncData, encBlocks_frame]
  rfl

theorem tailZero_afterEncData (s : State) (p : List Byte) : TailZero (afterEncData s p) :=
  setResidual_restOf_tail_zero _ _

/-- A run of encrypted blocks does not look at the residual (R201). -/
theorem encBlocks_setResidual (r : List Byte) (ps : List Block) (s : State) :
    encBlocks Config.cfg (setResidual r s) ps = setResidual r (encBlocks Config.cfg s ps) := by
  induction ps generalizing s with
  | nil => rfl
  | cons p ps ih => exact ih (encBlock Config.cfg s p)

/-- The residual of the first piece is read back in front of the second. -/
theorem afterEncData_append (s : State) (p q : List Byte) :
    afterEncData (afterEncData s p) q = afterEncData s (p ++ q) := by
  have hres : resBytes (afterEncData s p) = restOf (resBytes s ++ p) := resBytes_setResidual (restOf_length_lt _) _
  rw [afterEncData, hres, afterEncData, afterEncData, encBlocks_setResidual, ← List.append_assoc,
    blocksOf_append (resBytes s ++ p), restOf_append (resBytes s ++ p), encBlocks_append]
  rfl

theorem afterEncData_nil {s : State} (h : TailZero s) : afterEncData s [] = s := by
  have hlt := resBytes_length_lt s
  rw [afterEncData, List.append_nil, blocksOf_eq_nil hlt, restOf_eq_self hlt]
  exact setResidual_resBytes h

/-- In `ENC`, ENC_DATA is stopped by nothing but the hash bound (R186, R202). -/
theorem exec_encData_eq_hashGuard {s : State} (hp : s.phase = .enc) (p : List Byte) :
    exec (.encData p) s = hashGuard (16 * ((s.rlen.val + p.length) / 16)) s (.next (afterEncData s p)) := by
  rw [exec_encData, withChecks_of_keyless hp (by decide) rfl rfl rfl]
  simp only [resBytes_append_length]
  rfl

/-- The hash bound for two pieces, the first of which passes, is the bound for both together (R186). -/
theorem hashGuard_of_split {s t : State} {p q : List Byte}
    (hnbytes : t.hash.nbytes.toNat = s.hash.nbytes.toNat + 16 * ((s.rlen.val + p.length) / 16))
    (hrlen : t.rlen.val = (s.rlen.val + p.length) % 16) (o : Host.Outcome State Fault Refusal) :
    hashGuard (16 * ((t.rlen.val + q.length) / 16)) t o =
      hashGuard (16 * ((s.rlen.val + (p ++ q).length) / 16)) s o := by
  have hsum : t.hash.nbytes.toNat + 16 * ((t.rlen.val + q.length) / 16) =
      s.hash.nbytes.toNat + 16 * ((s.rlen.val + (p ++ q).length) / 16) := by
    rw [List.length_append]
    omega
  rw [hashGuard, hashGuard, hsum]

theorem performed_afterEncData {s : State} {p : List Byte}
    (hb : s.hash.nbytes.toNat + 16 * ((s.rlen.val + p.length) / 16) < 2 ^ 61) :
    performed (.encData p) s (afterEncData s p) := ⟨hb, rfl⟩

/-- Settles O47: both ways lead to the same state behind the same bound. -/
theorem encDataIgnoresChunkBoundaries : Obligations.EncDataIgnoresChunkBoundaries := by
  intro s p q hp hb
  obtain ⟨hnbytes, hrlen, -⟩ := performed_encData_lengths (performed_afterEncData hb)
  refine ⟨afterEncData s p, exec_encData_in_enc hp hb, ?_, ?_⟩
  · rw [exec_encData_eq_hashGuard (by rw [afterEncData_phase, hp]), exec_encData_eq_hashGuard hp,
      hashGuard_of_split hnbytes hrlen, afterEncData_append]
  · rintro rfl htail
    exact afterEncData_nil htail

/-! ### DEC_DATA -/

/-- A ciphertext block that is not the container's last: decrypted and emitted whole (R207, R208). -/
def decInner (s : State) (c : Block) : State := emit (decBlock Config.cfg s c).2.toList (decBlock Config.cfg s c).1

/-- A run of blocks none of which is the container's last. -/
def decInners (s : State) (cs : List Block) : State := cs.foldl decInner s

theorem decInners_crem (s : State) (cs : List Block) : (decInners s cs).crem = s.crem := by
  induction cs generalizing s with
  | nil => rfl
  | cons c cs ih => exact ih (decInner s c)

theorem decInners_phase (s : State) (cs : List Block) : (decInners s cs).phase = s.phase := by
  induction cs generalizing s with
  | nil => rfl
  | cons c cs ih => exact ih (decInner s c)

/-- Blocks in front of others, or of ciphertext still missing, are inner blocks (R208). -/
theorem decBlocks_append {s : State} (bs : List Block) {cs : List Block} (h : s.crem ≠ 0 ∨ cs ≠ []) :
    decBlocks Config.cfg s (bs ++ cs) = decBlocks Config.cfg (decInners s bs) cs := by
  induction bs generalizing s with
  | nil => rfl
  | cons b bs ih =>
    have hinner : s.crem ≠ 0 ∨ bs ++ cs ≠ [] := h.imp_right fun hne => by simp [hne]
    rw [List.cons_append, decBlocks_cons_inner _ _ _ _ hinner]
    exact ih (s := decInner s b) h

theorem decBlocks_of_crem_ne_zero {s : State} (h : s.crem ≠ 0) (bs : List Block) :
    decBlocks Config.cfg s bs = .ok (decInners s bs) := by
  rw [← List.append_nil bs, decBlocks_append bs (.inl h), List.append_nil]
  rfl

/-- Inner blocks do not look at `CREM`. -/
theorem decInners_setCrem (n : Word64) (s : State) (cs : List Block) :
    decInners (setCrem n s) cs = setCrem n (decInners s cs) := by
  induction cs generalizing s with
  | nil => rfl
  | cons c cs ih => exact ih (decInner s c)

/-- What DEC_DATA answers does not depend on the residual its blocks started with: it writes a new one (R208). -/
theorem finishDecData_decBlocks_setResidual (buf r : List Byte) (cs : List Block) (s : State) :
    finishDecData buf (decBlocks Config.cfg (setResidual r s) cs) = finishDecData buf (decBlocks Config.cfg s cs) := by
  induction cs generalizing s with
  | nil => rfl
  | cons c cs ih =>
    by_cases hlast : s.crem = 0 ∧ cs = []
    · obtain ⟨hcrem, rfl⟩ := hlast
      rw [decBlocks_last _ _ _ hcrem, decBlocks_last _ (setResidual r s) _ hcrem]
      simp only [decBlock_plain, setResidual_k, setResidual_chain]
      cases unpad (xorBytes (blockDecrypt Config.cfg s.k c) s.chain) <;> rfl
    · have hinner : s.crem ≠ 0 ∨ cs ≠ [] := by tauto
      rw [decBlocks_cons_inner _ _ _ _ hinner, decBlocks_cons_inner _ (setResidual r s) _ _ hinner]
      exact ih (decInner s c)

/-- In `DEC`, a DEC_DATA whose payload was announced is stopped by nothing but the hash bound (R186, R208). -/
theorem exec_decData_eq_hashGuard {s : State} {p : List Byte} (hp : s.phase = .dec) (hle : p.length ≤ s.crem.toNat) :
    exec (.decData p) s =
      hashGuard (16 * ((s.rlen.val + p.length) / 16)) s
        (finishDecData (resBytes s ++ p) (decBlocks Config.cfg (takeAnnounced s p) (blocksOf (resBytes s ++ p)))) := by
  rcases hashGuard_cases (16 * ((s.rlen.val + p.length) / 16)) s
    (finishDecData (resBytes s ++ p) (decBlocks Config.cfg (takeAnnounced s p) (blocksOf (resBytes s ++ p))))
    with ⟨hb, h⟩ | ⟨hb, h⟩
  · rw [h, exec_decData_within hp hb hle]
  · rw [h, exec_decData, withChecks_of_keyless hp (by decide) rfl rfl rfl, if_neg hle.not_gt]
    exact hashGuard_refuses (by rw [resBytes_append_length]; omega)

/-- The state after a DEC_DATA behind which ciphertext is still missing (R208). -/
def afterDecData (s : State) (p : List Byte) : State :=
  setResidual (restOf (resBytes s ++ p)) (decInners (takeAnnounced s p) (blocksOf (resBytes s ++ p)))

theorem afterDecData_phase (s : State) (p : List Byte) : (afterDecData s p).phase = s.phase :=
  decInners_phase _ _

theorem exec_decData_inner {s : State} {p : List Byte} (hp : s.phase = .dec)
    (hb : s.hash.nbytes.toNat + 16 * ((s.rlen.val + p.length) / 16) < 2 ^ 61) (hlt : p.length < s.crem.toNat) :
    exec (.decData p) s = .next (afterDecData s p) := by
  have hcrem : (takeAnnounced s p).crem ≠ 0 := by
    rw [ne_eq, takeAnnounced_crem_eq_zero_iff hlt.le]
    omega
  rw [exec_decData_within hp hb hlt.le, decBlocks_of_crem_ne_zero hcrem]
  rfl

/-- Two pieces reduce `CREM` as both together (R208). -/
theorem takeAnnounced_afterDecData (s : State) (p q : List Byte) :
    takeAnnounced (afterDecData s p) q =
      setResidual (restOf (resBytes s ++ p)) (decInners (takeAnnounced s (p ++ q)) (blocksOf (resBytes s ++ p))) := by
  have hcrem : (afterDecData s p).crem - BitVec.ofNat 64 q.length = s.crem - BitVec.ofNat 64 (p ++ q).length := by
    have h : (afterDecData s p).crem = s.crem - BitVec.ofNat 64 p.length := decInners_crem _ _
    rw [h, List.length_append, BitVec.ofNat_add, sub_add_eq_sub_sub]
  rw [takeAnnounced, hcrem, takeAnnounced, decInners_setCrem, afterDecData, takeAnnounced, decInners_setCrem]
  rfl

/-- Settles O51: the blocks of the first piece are inner blocks of both runs, since a block or `CREM` is still to
come. -/
theorem decDataIgnoresChunkBoundaries : Obligations.DecDataIgnoresChunkBoundaries := by
  intro s p q hp hblocks hle hq hb
  have hqpos : 0 < q.length := List.length_pos_iff.mpr hq
  have hexec := exec_decData_inner hp hb (p := p) (by omega)
  have hp' : (afterDecData s p).phase = .dec := (afterDecData_phase s p).trans hp
  refine ⟨_, hexec, hp', ?_⟩
  obtain ⟨hnbytes, hrlen, -, hcrem, -⟩ :=
    performed_decData_lengths (performed_of_exec (by simp [hp]) hexec (by simp [hp']))
  have hres : resBytes (afterDecData s p) = restOf (resBytes s ++ p) := resBytes_setResidual (restOf_length_lt _) _
  have hle' : (p ++ q).length ≤ s.crem.toNat := by rwa [List.length_append]
  have hmore : (takeAnnounced s (p ++ q)).crem ≠ 0 ∨ blocksOf (restOf (resBytes s ++ p) ++ q) ≠ [] := by
    rw [or_iff_not_imp_left, not_not, takeAnnounced_crem_eq_zero_iff hle', ← List.length_pos_iff, blocksOf_length,
      List.length_append, List.length_append, restOf_length, resBytes_append_length]
    omega
  rw [exec_decData_eq_hashGuard hp' (by omega), exec_decData_eq_hashGuard hp hle',
    hashGuard_of_split hnbytes hrlen, takeAnnounced_afterDecData, hres, finishDecData_decBlocks_setResidual,
    ← List.append_assoc, blocksOf_append (resBytes s ++ p), decBlocks_append _ hmore]
  simp only [finishDecData, restOf_append (resBytes s ++ p)]

end Sys2Proof.Proofs
end

section
/-! Runs of stream commands (`30_encoding.md` R101; `45_cbc_pipeline.md` R200 to R212): the tag verdict without the
key, an encryption from IDLE to IDLE as one chain of blocks, and a decryption from IDLE as the plaintexts of its
blocks, its padding and its tag. -/

namespace Sys2Proof.Proofs

open Sys2Proof Sys2Proof.Machine

/-! ### Runs -/

theorem runCommands_cons_eq_next {i : Instr} {is : List Instr} {s u : State}
    (h : runCommands (i :: is) s = .next u) : ∃ t, exec i s = .next t ∧ runCommands is t = .next u := by
  rw [runCommands] at h
  cases hexec : exec i s with
  | next t =>
    rw [hexec] at h
    exact ⟨t, rfl, h⟩
  | fault r => nomatch r
  | refused r =>
    rw [hexec] at h
    cases h

/-- A run depends on its first command only through what that answers (R70). -/
theorem runCommands_congr {i j : Instr} {s t : State} (is : List Instr) (h : exec i s = exec j t) :
    runCommands (i :: is) s = runCommands (j :: is) t := by
  rw [runCommands, runCommands, h]

/-- In phase `FAULT` the rest of a decryption is ignored (R258). -/
theorem runCommands_decData_in_fault {s : State} (hp : s.phase = .fault) (ct : List (List Byte)) (rest : List Instr) :
    runCommands (ct.map .decData ++ rest) s = runCommands rest s := by
  induction ct with
  | nil => rfl
  | cons p ct ih =>
    rw [List.map_cons, List.cons_append, runCommands_cons (exec_ignored_in_fault hp (by simp) (by simp)), ih]

theorem runCommands_decFinal_in_fault {s : State} (hp : s.phase = .fault) (tag : List Byte) :
    runCommands [.decFinal tag] s = .next s := by
  rw [runCommands_cons (exec_ignored_in_fault hp (by simp) (by simp))]
  rfl

/-! ### The tag verdict -/

/-- Two decryptions that agree in everything the tag verdict depends on. -/
structure SameVerdict (s1 s2 : State) : Prop where
  phase_left : s1.phase = .dec
  phase_right : s2.phase = .dec
  hash : s1.hash = s2.hash
  res : s1.res = s2.res
  rlen : s1.rlen = s2.rlen
  crem : s1.crem = s2.crem

theorem resBytes_eq {s1 s2 : State} (hres : s1.res = s2.res) (hrlen : s1.rlen = s2.rlen) :
    resBytes s1 = resBytes s2 := by
  rw [resBytes, resBytes, hres, hrlen]

/-- A DEC_DATA that faults in neither decryption keeps the agreement: hash, residual and `CREM` take the ciphertext, not
what it decrypts to (R207, R208). -/
theorem sameVerdict_performed {s1 s2 t1 t2 : State} {p : List Byte} (h : SameVerdict s1 s2)
    (h1 : performed (.decData p) s1 t1) (h2 : performed (.decData p) s2 t2) : SameVerdict t1 t2 := by
  obtain ⟨hhash1, hres1, hrlen1, hcrem1⟩ := performed_decData_stream h1
  obtain ⟨hhash2, hres2, hrlen2, hcrem2⟩ := performed_decData_stream h2
  have hbytes := resBytes_eq h.res h.rlen
  exact {
    phase_left := (performed_phase h1).trans h.phase_left
    phase_right := (performed_phase h2).trans h.phase_right
    hash := by rw [hhash1, hhash2, h.hash, h.rlen, hbytes]
    res := by rw [hres1, hres2, h.rlen, hbytes]
    rlen := by rw [hrlen1, hrlen2, h.rlen]
    crem := by rw [hcrem1, hcrem2, h.crem] }

/-- A run of a decryption that ends in `IDLE` never was in phase `FAULT`. -/
theorem phase_ne_fault_of_run {s t : State} {ct : List (List Byte)} {tag : List Byte}
    (h : runCommands (ct.map .decData ++ [.decFinal tag]) s = .next t) (ht : t.phase = .idle) : s.phase ≠ .fault := by
  intro hp
  rw [runCommands_decData_in_fault hp, runCommands_decFinal_in_fault hp] at h
  rw [← Host.Outcome.next.inj h, hp] at ht
  cases ht

/-- The agreement of two decryptions that both end in `IDLE` lasts up to DEC_FINAL, which compares the digest (R212). -/
theorem sameVerdict_run {s1 s2 t1 t2 : State} {ct : List (List Byte)} {tag : List Byte} (h : SameVerdict s1 s2)
    (hrun1 : runCommands (ct.map .decData ++ [.decFinal tag]) s1 = .next t1)
    (hrun2 : runCommands (ct.map .decData ++ [.decFinal tag]) s2 = .next t2)
    (ht1 : t1.phase = .idle) (ht2 : t2.phase = .idle) : t1.av = true ∧ t2.av = true ∧ t1.aok = t2.aok := by
  induction ct generalizing s1 s2 with
  | nil =>
    obtain ⟨u1, hexec1, hend1⟩ := runCommands_cons_eq_next hrun1
    obtain ⟨u2, hexec2, hend2⟩ := runCommands_cons_eq_next hrun2
    obtain rfl := Host.Outcome.next.inj hend1
    obtain rfl := Host.Outcome.next.inj hend2
    obtain ⟨-, rfl⟩ := performed_of_exec (by simp [h.phase_left]) hexec1 (by simp [ht1])
    obtain ⟨-, rfl⟩ := performed_of_exec (by simp [h.phase_right]) hexec2 (by simp [ht2])
    exact ⟨rfl, rfl, by simp [h.hash]⟩
  | cons p ct ih =>
    obtain ⟨u1, hexec1, hrest1⟩ := runCommands_cons_eq_next hrun1
    obtain ⟨u2, hexec2, hrest2⟩ := runCommands_cons_eq_next hrun2
    have hperf1 := performed_of_exec (by simp [h.phase_left]) hexec1 (phase_ne_fault_of_run hrest1 ht1)
    have hperf2 := performed_of_exec (by simp [h.phase_right]) hexec2 (phase_ne_fault_of_run hrest2 ht2)
    exact ih (sameVerdict_performed h hperf1 hperf2) hrest1 hrest2

/-- Settles O55: the premises are the agreement that `sameVerdict_run` follows. -/
theorem tagVerdictIgnoresTheKey : Obligations.TagVerdictIgnoresTheKey :=
  fun _ _ _ _ _ _ hp1 hp2 hhash hres hrlen hcrem hrun1 hrun2 ht1 ht2 =>
    sameVerdict_run ⟨hp1, hp2, hhash, hres, hrlen, hcrem⟩ hrun1 hrun2 ht1 ht2

/-! ### An encryption -/

/-- ENC_DATA over any cutting of a plaintext is ENC_DATA of the plaintext (R202). -/
theorem runCommands_encData {s : State} (pt : List (List Byte)) (rest : List Instr) (hp : s.phase = .enc)
    (htail : TailZero s) (hb : s.hash.nbytes.toNat + 16 * ((s.rlen.val + pt.flatten.length) / 16) < 2 ^ 61) :
    runCommands (pt.map .encData ++ rest) s = runCommands rest (afterEncData s pt.flatten) := by
  induction pt generalizing s with
  | nil => rw [List.flatten_nil, afterEncData_nil htail]; rfl
  | cons p pt ih =>
    rw [List.flatten_cons, List.length_append] at hb
    have hb' : s.hash.nbytes.toNat + 16 * ((s.rlen.val + p.length) / 16) < 2 ^ 61 := by omega
    obtain ⟨hnbytes, hrlen, -⟩ := performed_encData_lengths (performed_afterEncData hb')
    rw [List.map_cons, List.cons_append, runCommands_cons (exec_encData_in_enc hp hb')]
    exact (ih ((afterEncData_phase s p).trans hp) (tailZero_afterEncData s p) (by omega)).trans
      (by rw [afterEncData_append, List.flatten_cons])

/-- The plaintext of a whole encryption as blocks: the complete ones and the padded one (R202, R203). -/
def messageBlocks (m : List Byte) : List Block := blocksOf m ++ [padBlock (restOf m)]

theorem messageBlocks_length (m : List Byte) : (messageBlocks m).length = m.length / 16 + 1 := by
  simp [messageBlocks]

/-- The last block of a message is the padded one, and unpadding gives the bytes left over (R204, R209). -/
theorem unpad_messageBlocks_last (m : List Byte) (h : m.length / 16 < (messageBlocks m).length) :
    unpad (messageBlocks m)[m.length / 16] = some (restOf m) := by
  have hlast : (messageBlocks m)[m.length / 16] = padBlock (restOf m) := by
    simp [messageBlocks]
  rw [hlast, unpad_padBlock (Nat.le_of_lt_succ (restOf_length_lt m))]

/-- `c` lists the chain values of an encryption under `k`: each block after the first is the ciphertext of a block
XORed with the one before it (R201). -/
def IsCbcChain (k : Vector Word64 64) (ps : List Block) (c : Nat → Block) : Prop :=
  ∀ i (h : i < ps.length), c (i + 1) = blockEncrypt Config.cfg k (xorBytes ps[i] (c i))

/-- The ciphertext of the first `n` blocks. -/
def cipherBytes (c : Nat → Block) (n : Nat) : List Byte := (List.range n).flatMap fun i => (c (i + 1)).toList

theorem cipherBytes_length (c : Nat → Block) (n : Nat) : (cipherBytes c n).length = 16 * n := by
  simp [cipherBytes, List.length_flatMap, Nat.mul_comm]

theorem bytesAt_cipherBytes (c : Nat → Block) {n i : Nat} (h : i < n) :
    bytesAt 16 (16 * i) (cipherBytes c n) = c (i + 1) := by
  have hin : 16 * i + 16 ≤ (cipherBytes c n).length := by rw [cipherBytes_length]; omega
  rw [← Vector.toList_inj, bytesAt_toList _ _ _ hin, cipherBytes,
    take_drop_flatMap (fun _ => Vector.length_toList) _ _ (by simpa using h), List.getElem_range]

/-- The state an ENC_START leaves (R200). -/
def encStarted (iv : Block) (s : State) : State :=
  setPhase .enc (clearAuth (setHash hashInitial (setResidual [] (setChain iv (emit iv.toList s)))))

/-- A stream that starts hashes the complete blocks of its first ENC_DATA (R202). -/
theorem encStarted_hashed (iv : Block) (s : State) (m : List Byte) :
    (encStarted iv s).hash.nbytes.toNat + 16 * (((encStarted iv s).rlen.val + m.length) / 16)
      = 16 * (m.length / 16) := by
  have hnbytes : (encStarted iv s).hash.nbytes.toNat = 0 := rfl
  have hrlen : (encStarted iv s).rlen.val = 0 := rfl
  rw [hnbytes, hrlen, Nat.zero_add, Nat.zero_add]

theorem resBytes_encStarted (iv : Block) (s : State) : resBytes (encStarted iv s) = [] :=
  resBytes_setResidual (r := []) (by decide) s

/-- The residual that ENC_FINAL pads. -/
theorem resBytes_afterEncData_encStarted (iv : Block) (s : State) (m : List Byte) :
    resBytes (afterEncData (encStarted iv s) m) = restOf m := by
  rw [afterEncData, resBytes_setResidual (restOf_length_lt _), resBytes_encStarted, List.nil_append]

/-- ENC_DATA and ENC_FINAL together encrypt the blocks of the message (R202, R203). -/
theorem encBlock_afterEncData (iv : Block) (s : State) (m : List Byte) :
    encBlock Config.cfg (afterEncData (encStarted iv s) m) (padBlock (restOf m)) =
      setResidual (restOf m) (encBlocks Config.cfg (encStarted iv s) (messageBlocks m)) := by
  rw [afterEncData, resBytes_encStarted, List.nil_append, messageBlocks, encBlocks_append]
  rfl

/-- The state after a whole encryption of ciphertext `ct` from `s` (R101, R203): the container is emitted and the
stream is wiped, the key kept. -/
def encrypted (iv ct : List Byte) (s : State) : State :=
  { s with
    phase := .idle, chain := Vector.replicate 16 0, res := Vector.replicate 16 0, rlen := 0, hash := HashState.zero
    av := false, aok := false, dout := s.dout ++ (iv ++ ct ++ (shaDigest ct).toList) }

/-- ENC_FINAL behind one ENC_DATA of the whole message (R203). -/
theorem exec_encFinal_afterEncData {s : State} {iv : List Byte} (hiv : iv.length = 16) (m : List Byte)
    (hb : m.length + 16 < 2 ^ 61) :
    ∃ c : Nat → Block, c 0 = operandBlock iv ∧ IsCbcChain s.k (messageBlocks m) c ∧
      exec (.encFinal []) (afterEncData (encStarted (operandBlock iv) s) m) =
        .next (encrypted iv (cipherBytes c (m.length / 16 + 1)) s) := by
  obtain ⟨c, hfirst, hchain, hblocks⟩ := encBlocks_spec Config.cfg (messageBlocks m) (encStarted (operandBlock iv) s)
  have hstart := encStarted_hashed (operandBlock iv) s m
  obtain ⟨hcount, -, -⟩ := performed_encData_lengths
    (performed_afterEncData (s := encStarted (operandBlock iv) s) (p := m) (by omega))
  refine ⟨c, hfirst, hchain, ?_⟩
  rw [exec_encFinal_in_enc (afterEncData_phase _ _) (by omega), resBytes_afterEncData_encStarted,
    encBlock_afterEncData, hblocks, messageBlocks_length, encrypted, ← List.append_assoc, ← List.append_assoc]
  conv_rhs => rw [← operandBlock_toList hiv]
  rfl

/-- A whole encryption (R101, R200 to R204): the IV, the ciphertext of the message's blocks and its digest are
emitted. -/
theorem runCommands_encryptStream {s : State} {iv : List Byte} (pt : List (List Byte)) (hp : s.phase = .idle)
    (hkv : s.kv = true) (hiv : iv.length = 16) (hb : pt.flatten.length + 16 < 2 ^ 61) :
    ∃ c : Nat → Block, c 0 = operandBlock iv ∧ IsCbcChain s.k (messageBlocks pt.flatten) c ∧
      runCommands (encryptStream iv pt) s =
        .next (encrypted iv (cipherBytes c (pt.flatten.length / 16 + 1)) s) := by
  obtain ⟨c, hfirst, hchain, hfinal⟩ := exec_encFinal_afterEncData (s := s) hiv pt.flatten hb
  refine ⟨c, hfirst, hchain, ?_⟩
  have htail : TailZero (encStarted (operandBlock iv) s) := fun i _ => by simp [encStarted]
  have hstart := encStarted_hashed (operandBlock iv) s pt.flatten
  rw [encryptStream, runCommands_cons (exec_encStart_in_idle hp hkv hiv)]
  refine (runCommands_encData pt _ rfl htail (by omega)).trans ?_
  rw [runCommands_cons hfinal]
  rfl

end Sys2Proof.Proofs
end

section
/-! A whole decryption (`30_encoding.md` R101; `45_cbc_pipeline.md` R206 to R212): however the ciphertext is cut, it
ends by the padding of its last block and by the digest of all of it. -/

namespace Sys2Proof.Proofs

open Sys2Proof Sys2Proof.Machine

/-! ### DEC_DATA over any cutting -/

/-- A decryption between two commands, as far as chunk boundaries need it (R26, R43). -/
structure DecReady (s : State) : Prop where
  phase : s.phase = .dec
  tail : TailZero s
  blocks : (s.crem.toNat + s.rlen.val) % 16 = 0

theorem decReady_performed {s t : State} {p : List Byte} (h : DecReady s) (hperf : performed (.decData p) s t) :
    DecReady t := by
  obtain ⟨-, hrlen, hle, hcrem, -⟩ := performed_decData_lengths hperf
  have hblocks := h.blocks
  refine ⟨(performed_phase hperf).trans h.phase, ?_, by omega⟩
  obtain ⟨-, -, u, -, rfl⟩ := hperf
  exact setResidual_restOf_tail_zero _ _

/-- The empty DEC_DATA changes nothing (R208). -/
theorem exec_decData_nil {s : State} (h : DecReady s) (hb : s.hash.nbytes.toNat < 2 ^ 61) :
    exec (.decData []) s = .next s := by
  have hlt := resBytes_length_lt s
  have hrlen := s.rlen.isLt
  have hnone : takeAnnounced s [] = s := by
    rw [takeAnnounced, List.length_nil, BitVec.sub_zero]
    rfl
  have hbound : s.hash.nbytes.toNat + 16 * ((s.rlen.val + ([] : List Byte).length) / 16) < 2 ^ 61 := by
    rw [List.length_nil]
    omega
  rw [exec_decData_within h.phase hbound (Nat.zero_le _), List.append_nil, blocksOf_eq_nil hlt, hnone, decBlocks_nil,
    finishDecData, restOf_eq_self hlt, setResidual_resBytes h.tail]

/-- In `DEC` an announced DEC_DATA below the hash bound answers. -/
theorem exists_exec_decData {s : State} {p : List Byte} (hp : s.phase = .dec)
    (hb : s.hash.nbytes.toNat + 16 * ((s.rlen.val + p.length) / 16) < 2 ^ 61) (hle : p.length ≤ s.crem.toNat) :
    ∃ t, exec (.decData p) s = .next t := by
  rw [exec_decData_within hp hb hle]
  cases decBlocks Config.cfg (takeAnnounced s p) (blocksOf (resBytes s ++ p)) <;> exact ⟨_, rfl⟩

/-- DEC_DATA over any cutting of announced ciphertext is DEC_DATA of the ciphertext (R208). -/
theorem runCommands_decData {s : State} (ct : List (List Byte)) (rest : List Instr) (h : DecReady s)
    (hle : ct.flatten.length ≤ s.crem.toNat)
    (hb : s.hash.nbytes.toNat + 16 * ((s.rlen.val + ct.flatten.length) / 16) < 2 ^ 61) :
    runCommands (ct.map .decData ++ rest) s = runCommands (.decData ct.flatten :: rest) s := by
  induction ct generalizing s with
  | nil => exact (runCommands_cons (exec_decData_nil h (by omega))).symm
  | cons p ct ih =>
    rw [List.flatten_cons, List.length_append] at hle hb
    rw [List.map_cons, List.cons_append, List.flatten_cons]
    have hphase : s.phase ≠ .fault := by simp [h.phase]
    by_cases hnil : ct.flatten = []
    · obtain ⟨t, ht⟩ := exists_exec_decData (p := p) h.phase (by omega) (by omega)
      rw [hnil, List.append_nil, runCommands_cons ht, runCommands_cons ht]
      by_cases hfault : t.phase = .fault
      · exact runCommands_decData_in_fault hfault ct rest
      · have hperf := performed_of_exec hphase ht hfault
        obtain ⟨-, hrlen, -, -, hbound⟩ := performed_decData_lengths hperf
        have hready := decReady_performed h hperf
        have hlt := t.rlen.isLt
        rw [ih hready (by simp [hnil]) (by rw [hnil, List.length_nil]; omega), hnil,
          runCommands_cons (exec_decData_nil hready hbound)]
    · obtain ⟨t, ht, htdec, hsplit⟩ :=
        decDataIgnoresChunkBoundaries s p ct.flatten h.phase h.blocks hle hnil (by omega)
      have hperf := performed_of_exec hphase ht (by simp [htdec])
      obtain ⟨hnbytes, hrlen, -, hcrem, -⟩ := performed_decData_lengths hperf
      rw [runCommands_cons ht, ih (decReady_performed h hperf) (by omega) (by omega)]
      exact runCommands_congr rest hsplit

/-! ### From DEC_START to DEC_FINAL -/

/-- The state a DEC_START leaves that announces `n` ciphertext bytes (R206). -/
def decStarted (iv : Block) (n : Nat) (s : State) : State :=
  setPhase .dec (clearAuth (setHash hashInitial (setCrem (BitVec.ofNat 64 n) (setResidual [] (setChain iv s)))))

/-- DEC_START as the host writes it for a container with `n` ciphertext bytes (R100, R206). -/
theorem exec_asmDecStart {s : State} {iv : List Byte} {n : Nat} (hp : s.phase = .idle) (hkv : s.kv = true)
    (hiv : iv.length = 16) (hpos : 0 < n) (hmod : n % 16 = 0) (hb : n < 2 ^ 61) :
    exec (asmDecStart (48 + n) iv) s = .next (decStarted (operandBlock iv) n s) := by
  have htake : ((be64inv (BitVec.ofNat 64 (48 + n))).toList ++ iv).take 8 =
      (be64inv (BitVec.ofNat 64 (48 + n))).toList := List.take_left' (by simp)
  have hvalue : beValue (((be64inv (BitVec.ofNat 64 (48 + n))).toList ++ iv).take 8) = 48 + n := by
    rw [htake, beValue_be64inv, BitVec.toNat_ofNat]
    omega
  have hblock : bytesAt 16 8 ((be64inv (BitVec.ofNat 64 (48 + n))).toList ++ iv) = operandBlock iv :=
    bytesAt_append_right (by simp)
  have hstart := (decStartResult s ((be64inv (BitVec.ofNat 64 (48 + n))).toList ++ iv) hp hkv (by simp [hiv])).2
  rw [hvalue, hblock, Nat.add_sub_cancel_left] at hstart
  rw [asmDecStart, hstart (by omega) (by omega), decStarted, setResidual_nil]
  rfl

/-- The plaintext of ciphertext block `i` of `ct` under key `k` and IV `iv` (R207). -/
def plainAt (k : Vector Word64 64) (iv : Block) (ct : List Byte) (i : Nat) : Block :=
  xorBytes (blockDecrypt Config.cfg k (bytesAt 16 (16 * i) ct)) (if i = 0 then iv else bytesAt 16 (16 * (i - 1)) ct)

/-- The plaintext of the first `n` blocks. -/
def plainUpTo (k : Vector Word64 64) (iv : Block) (ct : List Byte) (n : Nat) : List Byte :=
  (List.range n).flatMap fun i => (plainAt k iv ct i).toList

/-- A ciphertext that DEC_START accepts and whose hash stays below the bound (R186, R206). -/
structure GoodCiphertext (ct : List Byte) : Prop where
  pos : 0 < ct.length
  whole : ct.length % 16 = 0
  bound : ct.length < 2 ^ 61

section

variable {s : State} {iv : Block} {ct : List Byte}

theorem decStarted_crem_toNat (h : GoodCiphertext ct) : (decStarted iv ct.length s).crem.toNat = ct.length := by
  have hbound := h.bound
  exact (BitVec.toNat_ofNat _ _).trans (Nat.mod_eq_of_lt (by omega))

theorem decReady_decStarted (h : GoodCiphertext ct) : DecReady (decStarted iv ct.length s) := by
  refine ⟨rfl, fun i _ => by simp [decStarted], ?_⟩
  rw [decStarted_crem_toNat h]
  exact h.whole

theorem resBytes_decStarted (n : Nat) : resBytes (decStarted iv n s) = [] :=
  resBytes_setResidual (r := []) (by decide) s

theorem decStarted_hashed (h : GoodCiphertext ct) :
    (decStarted iv ct.length s).hash.nbytes.toNat + 16 * (((decStarted iv ct.length s).rlen.val + ct.length) / 16)
      < 2 ^ 61 := by
  have hbound := h.bound
  have hnbytes : (decStarted iv ct.length s).hash.nbytes.toNat = 0 := rfl
  have hrlen : (decStarted iv ct.length s).rlen.val = 0 := rfl
  omega

/-- The state DEC_DATA works on when it is given the whole ciphertext. -/
theorem takeAnnounced_decStarted_crem (h : GoodCiphertext ct) :
    (takeAnnounced (decStarted iv ct.length s) ct).crem = 0 :=
  (takeAnnounced_crem_eq_zero_iff (decStarted_crem_toNat h).ge).mpr (decStarted_crem_toNat h).symm

/-- DEC_DATA of the whole ciphertext runs its blocks and finishes by the last one's padding (R208). -/
theorem exec_decData_whole (h : GoodCiphertext ct) :
    exec (.decData ct) (decStarted iv ct.length s) =
      finishDecData ct (decBlocks Config.cfg (takeAnnounced (decStarted iv ct.length s) ct) (blocksOf ct)) := by
  rw [exec_decData_within rfl (decStarted_hashed h) (decStarted_crem_toNat h).ge, resBytes_decStarted, List.nil_append]

theorem plainBlock_takeAnnounced (i : Nat) :
    plainBlock (takeAnnounced (decStarted iv ct.length s) ct) ct i = plainAt s.k iv ct i := by
  rw [plainBlock, plainAt]
  rfl

theorem plainBytes_takeAnnounced (n : Nat) :
    plainBytes (takeAnnounced (decStarted iv ct.length s) ct) ct n = plainUpTo s.k iv ct n := by
  simp only [plainBytes, plainUpTo, plainBlock_takeAnnounced]

/-- The state after a decryption whose padding was valid (R212): what was emitted, and whether the tag agreed. -/
def decrypted (ok : Bool) (out : List Byte) (s : State) : State :=
  { s with
    phase := .idle, chain := Vector.replicate 16 0, res := Vector.replicate 16 0, rlen := 0, crem := 0
    hash := HashState.zero, av := true, aok := ok, dout := s.dout ++ out }

/-- DEC_FINAL with the container's tag behind the last DEC_DATA, in the words of `decrypted` (R212). -/
theorem exec_decFinal_afterBlocks {tag out : List Byte} (h : GoodCiphertext ct) (htag : tag.length = 32) :
    exec (.decFinal tag)
        (setResidual (restOf ct) (afterBlocks (takeAnnounced (decStarted iv ct.length s) ct) ct out)) =
      .next (decrypted (decide ((shaDigest ct).toList = tag)) out s) := by
  have hwhole := h.whole
  have htake : ct.take (16 * (ct.length / 16)) = ct := List.take_of_length_le (by omega)
  have hcrem : (setResidual (restOf ct) (afterBlocks (takeAnnounced (decStarted iv ct.length s) ct) ct out)).crem = 0 :=
    takeAnnounced_decStarted_crem h
  have hdigest : hashDigest
      (setResidual (restOf ct) (afterBlocks (takeAnnounced (decStarted iv ct.length s) ct) ct out)).hash =
        shaDigest ct := by
    rw [setResidual_hash, afterBlocks, htake]
    rfl
  rw [(decFinalResult _ tag rfl htag).2 hcrem, hdigest]
  rfl

/-- With valid padding the run reaches DEC_FINAL, which compares the digest of the ciphertext with the tag (R208,
R212). -/
theorem runCommands_decData_decFinal_of_valid {tag r : List Byte} (h : GoodCiphertext ct) (htag : tag.length = 32)
    (hr : unpad (plainAt s.k iv ct (ct.length / 16 - 1)) = some r) :
    runCommands [.decData ct, .decFinal tag] (decStarted iv ct.length s) =
      .next (decrypted (decide ((shaDigest ct).toList = tag)) (plainUpTo s.k iv ct (ct.length / 16 - 1) ++ r) s) := by
  have hnb : ct.length / 16 ≠ 0 := by
    have hpos := h.pos
    have hwhole := h.whole
    omega
  have hdata := exec_decData_whole (s := s) (iv := iv) h
  rw [← plainBlock_takeAnnounced] at hr
  rw [decBlocks_blocksOf_unpadded (takeAnnounced_decStarted_crem h) hnb hr, plainBytes_takeAnnounced] at hdata
  rw [runCommands_cons hdata, runCommands_cons (exec_decFinal_afterBlocks h htag), runCommands]

/-- With invalid padding the run ends in `E_PADDING`, and DEC_FINAL is ignored (R208, R258). -/
theorem runCommands_decData_decFinal_of_invalid {tag : List Byte} (h : GoodCiphertext ct)
    (hr : unpad (plainAt s.k iv ct (ct.length / 16 - 1)) = none) :
    runCommands [.decData ct, .decFinal tag] (decStarted iv ct.length s) =
      .next (faulted 0x02 (plainUpTo s.k iv ct (ct.length / 16 - 1)) s) := by
  have hnb : ct.length / 16 ≠ 0 := by
    have hpos := h.pos
    have hwhole := h.whole
    omega
  have hdata := exec_decData_whole (s := s) (iv := iv) h
  rw [← plainBlock_takeAnnounced] at hr
  rw [decBlocks_blocksOf_invalid (takeAnnounced_decStarted_crem h) hnb hr, plainBytes_takeAnnounced] at hdata
  rw [runCommands_cons hdata, runCommands_decFinal_in_fault rfl]
  rfl

end

/-! ### The whole run -/

/-- A decryption from `IDLE` (R101), as DEC_DATA of the whole ciphertext and DEC_FINAL. -/
theorem runCommands_decryptStream {s : State} {iv tag : List Byte} (ct : List (List Byte)) (hp : s.phase = .idle)
    (hkv : s.kv = true) (hiv : iv.length = 16) (h : GoodCiphertext ct.flatten) :
    runCommands (decryptStream (48 + ct.flatten.length) iv ct tag) s =
      runCommands [.decData ct.flatten, .decFinal tag] (decStarted (operandBlock iv) ct.flatten.length s) := by
  rw [decryptStream, runCommands_cons (exec_asmDecStart hp hkv hiv h.pos h.whole h.bound)]
  exact runCommands_decData ct _ (decReady_decStarted h) (decStarted_crem_toNat h).ge (decStarted_hashed h)

end Sys2Proof.Proofs
end

section
/-! Containers (`10_state.md` R39; `45_cbc_pipeline.md` section 3, R214 to R216): decrypting what was encrypted, and
what a changed ciphertext, tag or IV does to a decryption. -/

namespace Sys2Proof.Proofs

open Sys2Proof Sys2Proof.Machine

/-! ### The parts of a container -/

section

variable {iv ct tag : List Byte}

theorem container_length (hiv : iv.length = 16) (htag : tag.length = 32) :
    (iv ++ ct ++ tag).length = 48 + ct.length := by
  rw [List.length_append, List.length_append]
  omega

theorem containerIv_eq (hiv : iv.length = 16) : containerIv (iv ++ ct ++ tag) = iv := by
  rw [containerIv, List.append_assoc, List.take_left' hiv]

theorem containerCiphertext_eq (hiv : iv.length = 16) (htag : tag.length = 32) :
    containerCiphertext (iv ++ ct ++ tag) = ct := by
  rw [containerCiphertext, container_length hiv htag, List.append_assoc, List.drop_left' hiv, Nat.add_sub_cancel_left,
    List.take_left' rfl]

theorem containerTag_eq (hiv : iv.length = 16) (htag : tag.length = 32) : containerTag (iv ++ ct ++ tag) = tag := by
  rw [containerTag, container_length hiv htag]
  exact List.drop_left' (by rw [List.length_append]; omega)

end

/-! ### XOR -/

theorem xorBytes_getElem {n : Nat} (a b : Vector Byte n) (i : Nat) (h : i < n) : (xorBytes a b)[i] = a[i] ^^^ b[i] := by
  simp [xorBytes]

/-- XOR with the same block twice gives the first operand back (R207). -/
theorem xorBytes_xorBytes_self {n : Nat} (a b : Vector Byte n) : xorBytes (xorBytes a b) b = a := by
  ext1 i h
  rw [xorBytes_getElem, xorBytes_getElem, BitVec.xor_assoc, BitVec.xor_self, BitVec.xor_zero]

theorem xorBytes_self {n : Nat} (a : Vector Byte n) : xorBytes a a = Vector.replicate n 0 := by
  ext1 i h
  rw [xorBytes_getElem, BitVec.xor_self, Vector.getElem_replicate]
  rfl

/-! ### The ciphertext of a message -/

/-- `c` lists the chain values of the encryption of message `m` under key `k` and IV `iv` (R201, R203). -/
structure Encrypts (k : Vector Word64 64) (iv m : List Byte) (c : Nat → Block) : Prop where
  start : c 0 = operandBlock iv
  chain : IsCbcChain k (messageBlocks m) c
  bound : m.length + 16 < 2 ^ 61

/-- The ciphertext of a message (R203). -/
def cipherOf (c : Nat → Block) (m : List Byte) : List Byte := cipherBytes c (m.length / 16 + 1)

/-- The container an encryption emits (R39, R203). -/
def containerOf (c : Nat → Block) (iv m : List Byte) : List Byte :=
  iv ++ cipherOf c m ++ (shaDigest (cipherOf c m)).toList

/-- An encryption from `IDLE` with a key ends and emits a container (R101). -/
theorem exists_encrypts {s : State} {iv : List Byte} (pt : List (List Byte)) (hp : s.phase = .idle) (hkv : s.kv = true)
    (hiv : iv.length = 16) (hb : pt.flatten.length + 16 < 2 ^ 61) :
    ∃ c, Encrypts s.k iv pt.flatten c ∧
      runCommands (encryptStream iv pt) s = .next (encrypted iv (cipherOf c pt.flatten) s) := by
  obtain ⟨c, hfirst, hchain, hrun⟩ := runCommands_encryptStream pt hp hkv hiv hb
  exact ⟨c, ⟨hfirst, hchain, hb⟩, hrun⟩

section

variable {k : Vector Word64 64} {iv m : List Byte} {c : Nat → Block}

theorem cipherOf_length : (cipherOf c m).length = 16 * (m.length / 16 + 1) := cipherBytes_length c _

theorem containerOf_length (hiv : iv.length = 16) : (containerOf c iv m).length = 48 + (cipherOf c m).length :=
  container_length hiv Vector.length_toList

theorem goodCiphertext_cipherOf (h : Encrypts k iv m c) : GoodCiphertext (cipherOf c m) := by
  have hbound := h.bound
  constructor <;> rw [cipherOf_length] <;> omega

/-- The last ciphertext block of a message. -/
theorem lastBlock_cipherOf : (cipherOf c m).length / 16 - 1 = m.length / 16 := by
  rw [cipherOf_length]
  omega

/-- Decrypting block `i` of the ciphertext undoes its encryption but for the chain value (R201, R207). -/
theorem plainAt_cipherOf (h : Encrypts k iv m c) (iv' : Block) (i : Nat) (hi : i < (messageBlocks m).length) :
    plainAt k iv' (cipherOf c m) i = xorBytes (xorBytes (messageBlocks m)[i] (c i)) (if i = 0 then iv' else c i) := by
  have hi' : i < m.length / 16 + 1 := messageBlocks_length m ▸ hi
  rw [plainAt, cipherOf, bytesAt_cipherBytes c hi', h.chain i hi, blockDecrypt_blockEncrypt]
  by_cases hzero : i = 0
  · rw [if_pos hzero, if_pos hzero]
  · rw [if_neg hzero, if_neg hzero, bytesAt_cipherBytes c (by omega), Nat.sub_add_cancel (Nat.pos_of_ne_zero hzero)]

/-- A block behind the first does not depend on the IV. -/
theorem plainAt_cipherOf_of_ne_zero (h : Encrypts k iv m c) (iv' : Block) {i : Nat} (hi : i < (messageBlocks m).length)
    (hzero : i ≠ 0) : plainAt k iv' (cipherOf c m) i = (messageBlocks m)[i] := by
  rw [plainAt_cipherOf h iv' i hi, if_neg hzero, xorBytes_xorBytes_self]

/-- Under the IV of the encryption every block comes back. -/
theorem plainAt_cipherOf_self (h : Encrypts k iv m c) {i : Nat} (hi : i < (messageBlocks m).length) :
    plainAt k (operandBlock iv) (cipherOf c m) i = (messageBlocks m)[i] := by
  by_cases hzero : i = 0
  · subst hzero
    rw [plainAt_cipherOf h _ 0 hi, if_pos rfl, ← h.start, xorBytes_xorBytes_self]
  · exact plainAt_cipherOf_of_ne_zero h _ hi hzero

theorem messageBlocks_getElem_of_lt {i : Nat} (h : i < m.length / 16) :
    (messageBlocks m)[i]'(by rw [messageBlocks_length]; omega) = bytesAt 16 (16 * i) m := by
  have hi : i < (blocksOf m).length := by rwa [blocksOf_length]
  simp only [messageBlocks, List.getElem_append_left hi, blocksOf_getElem]

theorem lastBlock_lt : m.length / 16 < (messageBlocks m).length := by
  rw [messageBlocks_length]
  exact Nat.lt_succ_self _

/-- The complete blocks of the message come back as they were. -/
theorem plainUpTo_cipherOf (h : Encrypts k iv m c) :
    plainUpTo k (operandBlock iv) (cipherOf c m) (m.length / 16) = m.take (16 * (m.length / 16)) := by
  rw [← flatMap_blocks m _ (by omega), plainUpTo]
  refine List.flatMap_congr fun i hi => ?_
  have hlt : i < m.length / 16 := List.mem_range.mp hi
  rw [plainAt_cipherOf_self h (hlt.trans lastBlock_lt), messageBlocks_getElem_of_lt hlt]

/-! ### The round trip -/

/-- Decrypting the ciphertext under its key and IV emits the message and compares the tag with the digest (R215). -/
theorem runCommands_decryptStream_cipherOf {d : State} {ct : List (List Byte)} {tag : List Byte}
    (h : Encrypts k iv m c) (hiv : iv.length = 16) (hp : d.phase = .idle) (hkv : d.kv = true) (hk : d.k = k)
    (hct : ct.flatten = cipherOf c m) (htag : tag.length = 32) :
    runCommands (decryptStream (48 + (cipherOf c m).length) iv ct tag) d =
      .next (decrypted (decide ((shaDigest (cipherOf c m)).toList = tag)) m d) := by
  have hgood := goodCiphertext_cipherOf h
  have hlast : unpad (plainAt d.k (operandBlock iv) (cipherOf c m) ((cipherOf c m).length / 16 - 1)) =
      some (restOf m) := by
    rw [hk, lastBlock_cipherOf, plainAt_cipherOf_self h lastBlock_lt, unpad_messageBlocks_last]
  rw [← hct] at hgood hlast ⊢
  rw [runCommands_decryptStream ct hp hkv hiv hgood, runCommands_decData_decFinal_of_valid hgood htag hlast, hk, hct,
    lastBlock_cipherOf, plainUpTo_cipherOf h, take_append_restOf]

end

/-- Settles O54: the run of `runCommands_decryptStream_cipherOf` with the tag of the container. -/
theorem decryptionUndoesEncryption : Obligations.DecryptionUndoesEncryption := by
  intro s iv pt hp hkv hiv hb
  obtain ⟨c, henc, hrun⟩ := exists_encrypts pt hp hkv hiv hb
  have htag : (shaDigest (cipherOf c pt.flatten)).toList.length = 32 := Vector.length_toList
  refine ⟨_, containerOf c iv pt.flatten, hrun, rfl, rfl, rfl, hkv, ?_, containerIv_eq hiv, fun ct hct => ?_⟩
  · rw [containerOf_length hiv, cipherOf_length]
  · rw [containerOf, containerCiphertext_eq hiv htag] at hct
    have hdec := runCommands_decryptStream_cipherOf (d := encrypted iv (cipherOf c pt.flatten) s) henc hiv rfl hkv rfl
      hct htag
    rw [decide_eq_true rfl] at hdec
    rw [containerOf_length hiv, containerOf, containerIv_eq hiv, containerTag_eq hiv htag]
    exact ⟨_, hdec, rfl, rfl, rfl, rfl⟩

/-! ### Changed ciphertext -/

/-- A decryption of any ciphertext of a good length ends in `E_PADDING` or with the verdict on its digest (R212,
R216). -/
theorem decryptStream_ends {d : State} {iv tag : List Byte} {ct : List (List Byte)} (hp : d.phase = .idle)
    (hkv : d.kv = true) (hiv : iv.length = 16) (hgood : GoodCiphertext ct.flatten) (htag : tag.length = 32) :
    ∃ u, runCommands (decryptStream (48 + ct.flatten.length) iv ct tag) d = .next u ∧
      ((u.phase = .fault ∧ u.err = 0x02) ∨
        (u.phase = .idle ∧ u.av = true ∧ u.aok = decide ((shaDigest ct.flatten).toList = tag))) := by
  rw [runCommands_decryptStream ct hp hkv hiv hgood]
  cases hr : unpad (plainAt d.k (operandBlock iv) ct.flatten (ct.flatten.length / 16 - 1)) with
  | none => exact ⟨_, runCommands_decData_decFinal_of_invalid hgood hr, .inl ⟨rfl, rfl⟩⟩
  | some r => exact ⟨_, runCommands_decData_decFinal_of_valid hgood htag hr, .inr ⟨rfl, rfl, rfl⟩⟩

theorem goodCiphertext_of_length_eq {x y : List Byte} (h : GoodCiphertext x) (hlen : y.length = x.length) :
    GoodCiphertext y := by
  obtain ⟨hpos, hwhole, hbound⟩ := h
  exact ⟨by omega, by omega, by omega⟩

/-- The tamper property of R216 for a ciphertext with its own digest. -/
theorem detectsTampering_of_good {x : List Byte} (h : GoodCiphertext x) : DetectsTampering x (shaDigest x).toList := by
  intro d iv ct hp hkv hiv hlen hne hfree
  have hgood := goodCiphertext_of_length_eq h hlen
  obtain ⟨u, hrun, hend⟩ := decryptStream_ends hp hkv hiv hgood (tag := (shaDigest x).toList) Vector.length_toList
  rw [hlen] at hrun
  refine ⟨u, hrun, hend.imp id fun ⟨hphase, hav, haok⟩ => ⟨hphase, hav, ?_⟩⟩
  rw [haok, decide_eq_false]
  exact fun hdigest => hne (hfree (Vector.toList_inj.mp hdigest))

/-- Two ciphertexts that agree in their last 32 bytes agree in their last block and in the one before it. -/
theorem bytesAt_eq_of_drop_eq {x y : List Byte} {off : Nat} (hlen : x.length = y.length)
    (hdrop : x.drop (x.length - 32) = y.drop (x.length - 32)) (hoff : x.length - 32 ≤ off) (hin : off + 16 ≤ x.length) :
    bytesAt 16 off x = bytesAt 16 off y := by
  have hsplit : off = x.length - 32 + (off - (x.length - 32)) := by omega
  rw [← Vector.toList_inj, bytesAt_toList _ _ _ hin, bytesAt_toList _ _ _ (hlen ▸ hin), hsplit, ← List.drop_drop, hdrop,
    List.drop_drop]

/-- Where the last two of three or more blocks are intact, under the same key, the padding is intact. -/
theorem unpad_of_intact_tail {k : Vector Word64 64} {iv m x : List Byte} {c : Nat → Block} (h : Encrypts k iv m c)
    (iv' : Block) (hlen : x.length = (cipherOf c m).length) (hthree : 48 ≤ x.length)
    (hdrop : x.drop (x.length - 32) = (cipherOf c m).drop (x.length - 32)) :
    unpad (plainAt k iv' x (x.length / 16 - 1)) = some (restOf m) := by
  have hwhole := (goodCiphertext_cipherOf h).whole
  have hlast := lastBlock_cipherOf (c := c) (m := m)
  rw [hlen, hlast]
  have hzero : m.length / 16 ≠ 0 := by omega
  have hplain : plainAt k iv' x (m.length / 16) = plainAt k iv' (cipherOf c m) (m.length / 16) := by
    rw [plainAt, plainAt, if_neg hzero, if_neg hzero, bytesAt_eq_of_drop_eq hlen hdrop (by omega) (by omega),
      bytesAt_eq_of_drop_eq hlen hdrop (off := 16 * (m.length / 16 - 1)) (by omega) (by omega)]
  rw [hplain, plainAt_cipherOf_of_ne_zero h iv' lastBlock_lt hzero, unpad_messageBlocks_last]

/-- Settles O59: `detectsTampering_of_good` and `decryptStream_ends`; with an intact tail the padding is valid. -/
theorem changedCiphertextIsDetected : Obligations.ChangedCiphertextIsDetected := by
  intro s iv pt hp hkv hiv hb
  obtain ⟨c, henc, hrun⟩ := exists_encrypts pt hp hkv hiv hb
  have hgood := goodCiphertext_cipherOf henc
  have htag : (shaDigest (cipherOf c pt.flatten)).toList.length = 32 := Vector.length_toList
  refine ⟨_, containerOf c iv pt.flatten, hrun, rfl, ?_⟩
  rw [containerOf_length hiv, containerOf, containerCiphertext_eq hiv htag, containerTag_eq hiv htag]
  refine ⟨detectsTampering_of_good hgood, fun d iv' ct hdp hdkv hiv' => ⟨fun hk hlen hthree hdrop => ?_, fun hct => ?_⟩⟩
  · have hgood' := goodCiphertext_of_length_eq hgood hlen
    have hpad := unpad_of_intact_tail henc (operandBlock iv') hlen hthree hdrop
    rw [← hk] at hpad
    rw [← hlen, runCommands_decryptStream ct hdp hdkv hiv' hgood',
      runCommands_decData_decFinal_of_valid hgood' htag hpad]
    exact ⟨_, rfl, rfl, rfl, by simp [decrypted, Vector.toList_inj]⟩
  · rw [← hct] at hgood htag ⊢
    obtain ⟨u, hu, hend⟩ := decryptStream_ends hdp hdkv hiv' hgood htag
    rw [decide_eq_true rfl] at hend
    exact ⟨u, hu, hend⟩

/-! ### Changed tag and changed IV -/

section

variable {k : Vector Word64 64} {iv m : List Byte} {c : Nat → Block}

/-- With at least one complete block of plaintext the padding does not depend on the IV. -/
theorem unpad_lastBlock_of_le (h : Encrypts k iv m c) (iv' : Block) (hm : 16 ≤ m.length) :
    unpad (plainAt k iv' (cipherOf c m) ((cipherOf c m).length / 16 - 1)) = some (restOf m) := by
  rw [lastBlock_cipherOf, plainAt_cipherOf_of_ne_zero h iv' lastBlock_lt (by omega), unpad_messageBlocks_last]

/-- The plaintext under another IV: the first block is changed, and the rest is that of the message. -/
theorem plainUpTo_eq_first_append (h : Encrypts k iv m c) (iv' : Block) (hm : 16 ≤ m.length) :
    plainUpTo k iv' (cipherOf c m) (m.length / 16) ++ restOf m =
      (plainAt k iv' (cipherOf c m) 0).toList ++ m.drop 16 := by
  obtain ⟨n, hn⟩ : ∃ n, m.length / 16 = n + 1 := ⟨m.length / 16 - 1, by omega⟩
  have htail : ∀ iv'' : Block, ((List.range n).flatMap fun i => (plainAt k iv'' (cipherOf c m) (i + 1)).toList) =
      (List.range n).flatMap fun i => (bytesAt 16 (16 * (i + 1)) m).toList := by
    refine fun iv'' => List.flatMap_congr fun i hi => ?_
    have hlt : i + 1 < m.length / 16 := by
      have := List.mem_range.mp hi
      omega
    rw [plainAt_cipherOf_of_ne_zero h iv'' (hlt.trans lastBlock_lt) (Nat.succ_ne_zero i),
      messageBlocks_getElem_of_lt hlt]
  have hsplit : (bytesAt 16 0 m).toList ++ ((List.range n).flatMap fun i => (bytesAt 16 (16 * (i + 1)) m).toList) =
      m.take (16 * (m.length / 16)) := by
    rw [← flatMap_blocks m _ (by omega), hn, flatMap_range_succ]
  have hfirst : (bytesAt 16 0 m).toList.length = 16 := Vector.length_toList
  have hdrop : ((List.range n).flatMap fun i => (bytesAt 16 (16 * (i + 1)) m).toList) ++ restOf m = m.drop 16 := by
    conv_rhs => rw [← take_append_restOf m, ← hsplit, List.append_assoc, List.drop_left' hfirst]
  rw [plainUpTo, hn, flatMap_range_succ, htail, List.append_assoc, hdrop]

/-- The first block under another IV, byte by byte: the XOR with both IVs (R207). -/
theorem plainAt_cipherOf_zero_getD (h : Encrypts k iv m c) (iv' : List Byte) (hm : 16 ≤ m.length) (i : Nat)
    (hi : i < 16) :
    (plainAt k (operandBlock iv') (cipherOf c m) 0).toList.getD i 0 = m.getD i 0 ^^^ iv.getD i 0 ^^^ iv'.getD i 0 := by
  have hlt : 0 < m.length / 16 := by omega
  rw [plainAt_cipherOf h _ 0 (hlt.trans lastBlock_lt), if_pos rfl, messageBlocks_getElem_of_lt hlt, h.start,
    List.getD_eq_getElem _ _ (by simpa using hi), Vector.getElem_toList, xorBytes_getElem, xorBytes_getElem]
  simp only [operandBlock, bytesAt_getElem, Nat.zero_add, Nat.mul_zero]

/-- A block of zeros has no valid padding (R209). -/
theorem unpad_zero : unpad (Vector.replicate 16 0) = none := by
  decide

/-- With less than one block of plaintext, the IV that equals the decrypted block turns the plaintext into zeros. -/
theorem exists_iv_unpad_none (h : Encrypts k iv m c) (hm : m.length < 16) :
    ∃ iv' : List Byte, iv'.length = 16 ∧
      unpad (plainAt k (operandBlock iv') (cipherOf c m) ((cipherOf c m).length / 16 - 1)) = none := by
  have hzero : m.length / 16 = 0 := Nat.div_eq_of_lt hm
  have hlt : 0 < (messageBlocks m).length := hzero ▸ lastBlock_lt
  refine ⟨(xorBytes (messageBlocks m)[0] (c 0)).toList, Vector.length_toList, ?_⟩
  rw [lastBlock_cipherOf, hzero, plainAt_cipherOf h _ 0 hlt, if_pos rfl, operandBlock, bytesAt_self, xorBytes_self,
    unpad_zero]

/-- Decrypting under another IV with at least one complete block of plaintext: the run of `decrypted`, its output the
changed first block and the rest of the message. -/
theorem runCommands_decryptStream_other_iv {d : State} {ct : List (List Byte)} {iv' : List Byte}
    (h : Encrypts k iv m c) (hiv' : iv'.length = 16) (hp : d.phase = .idle) (hkv : d.kv = true) (hk : d.k = k)
    (hct : ct.flatten = cipherOf c m) (hm : 16 ≤ m.length) :
    runCommands (decryptStream (48 + (cipherOf c m).length) iv' ct (shaDigest (cipherOf c m)).toList) d =
      .next (decrypted true ((plainAt k (operandBlock iv') (cipherOf c m) 0).toList ++ m.drop 16) d) := by
  have hgood := goodCiphertext_cipherOf h
  have hlast := unpad_lastBlock_of_le h (operandBlock iv') hm
  rw [← plainUpTo_eq_first_append h _ hm, ← lastBlock_cipherOf (c := c) (m := m)]
  rw [← hk, ← hct] at hlast
  rw [← hct] at hgood
  rw [← hct, ← hk, runCommands_decryptStream ct hp hkv hiv' hgood,
    runCommands_decData_decFinal_of_valid hgood Vector.length_toList hlast, decide_eq_true rfl]

/-- With less than one block of plaintext some IV ends in `E_PADDING`. -/
theorem exists_iv_runCommands_decryptStream_fault {d : State} {ct : List (List Byte)} (tag : List Byte)
    (h : Encrypts k iv m c) (hp : d.phase = .idle) (hkv : d.kv = true) (hk : d.k = k)
    (hct : ct.flatten = cipherOf c m) (hm : m.length < 16) :
    ∃ (u : State) (iv' : List Byte), iv'.length = 16 ∧
      runCommands (decryptStream (48 + (cipherOf c m).length) iv' ct tag) d = .next u ∧
      u.phase = .fault ∧ u.err = 0x02 := by
  obtain ⟨iv', hiv', hpad⟩ := exists_iv_unpad_none h hm
  have hgood := goodCiphertext_cipherOf h
  rw [← hk, ← hct] at hpad
  rw [← hct] at hgood ⊢
  have hrun := runCommands_decData_decFinal_of_invalid (tag := tag) hgood hpad
  rw [← runCommands_decryptStream ct hp hkv hiv' hgood] at hrun
  exact ⟨_, iv', hiv', hrun, rfl, rfl⟩

end

/-- Settles O60: the tag is the digest that DEC_FINAL compares; a changed IV reaches the first block alone, which for a
container of one block carries the padding. -/
theorem changedTagIsReportedChangedIvIsNot : Obligations.ChangedTagIsReportedChangedIvIsNot := by
  intro s iv pt hp hkv hiv hb
  obtain ⟨c, henc, hrun⟩ := exists_encrypts pt hp hkv hiv hb
  have htag : (shaDigest (cipherOf c pt.flatten)).toList.length = 32 := Vector.length_toList
  refine ⟨_, containerOf c iv pt.flatten, hrun, rfl, ?_⟩
  rw [containerOf_length hiv, containerOf, containerCiphertext_eq hiv htag, containerTag_eq hiv htag]
  refine ⟨rfl, fun d ct hdp hdkv hk hct => ⟨fun tag htag' hne => ?_, fun hm iv' hiv' => ?_, fun hm => ?_⟩⟩
  · refine ⟨_, runCommands_decryptStream_cipherOf henc hiv hdp hdkv hk hct htag', rfl, rfl, rfl, ?_⟩
    exact decide_eq_false (Ne.symm hne)
  · have hblock : (plainAt s.k (operandBlock iv') (cipherOf c pt.flatten) 0).toList.length = 16 := Vector.length_toList
    refine ⟨_, _, runCommands_decryptStream_other_iv henc hiv' hdp hdkv hk hct hm, ⟨rfl, rfl, rfl⟩, rfl, ?_,
      List.drop_left' hblock, fun i hi => ?_⟩
    · rw [List.length_append, hblock, List.length_drop]
      omega
    · rw [List.getD_append _ _ _ _ (by omega), plainAt_cipherOf_zero_getD henc iv' hm i hi]
  · exact exists_iv_runCommands_decryptStream_fault _ henc hdp hdkv hk hct hm

end Sys2Proof.Proofs
end
